-- ==== Sys2Proof/Word.lean ====
section
/-! DEFINITION. The word types of the AEGIS AEAD core (00_scope.md R10, R11).

A byte string of fixed length is held as its integer view (R11): byte `j` of the string is bits
`8j+7 … 8j` of the bit vector, so the bytewise `⊕` and `&` of R12 are the bit vector's own. -/

namespace Sys2Proof

/-- A byte (R10). -/
abbrev Byte := BitVec 8

/-- A 32-bit register or command word (10_state.md R30, 30_encoding.md R120). -/
abbrev Word := BitVec 32

/-- A block, and so a lane: a byte string of length 16 (R10). -/
abbrev Block := BitVec 128

/-- A byte string of length 32: a key, a nonce, a tag, a pad, a keystream word (10_state.md R46, R47, R59). -/
abbrev Wide := BitVec 256

end Sys2Proof
end

