-- ==== Sys2Proof/Syntax.lean ====
section
/-! DEFINITION. The six commands of the core (30_encoding.md R129), one constructor per row of the
opcode table.  A command word carries no operand but TAGLEN (R130). -/

namespace Sys2Proof

/-- A command.  `tau` is the tag size in bytes (30_encoding.md R124, R131), an integer; the encoding
admits 0 to 255, which `Instr.WellFormed` checks. -/
inductive Instr where
  /-- ENCRYPT.128 tag=τ (43_encrypt.md R241). -/
  | encrypt128 (tau : Nat)
  /-- ENCRYPT.256 tag=τ (43_encrypt.md R242). -/
  | encrypt256 (tau : Nat)
  /-- DECRYPT.128 tag=τ (44_decrypt.md R271). -/
  | decrypt128 (tau : Nat)
  /-- DECRYPT.256 tag=τ (44_decrypt.md R272). -/
  | decrypt256 (tau : Nat)
  /-- AESROUND (40_aes_round.md R160). -/
  | aesround
  /-- ZEROIZE (46_commands.md R340). -/
  | zeroize
  deriving DecidableEq, Repr

end Sys2Proof
end

