-- ==== Sys2Proof/WellFormed.lean ====
section
/-! DEFINITION. Which instruction terms have a command word: an assembler refuses `tag=n` for `n > 255`
(30_encoding.md R131); every `n` from 0 to 255 assembles, whether or not the command controller then
accepts it (R124). -/

namespace Sys2Proof

/-- The one check on an instruction term: TAGLEN is an 8-bit field (30_encoding.md R120, R131). -/
def Instr.WellFormed : Instr → Bool
  | .encrypt128 tau => decide (tau ≤ 255)
  | .encrypt256 tau => decide (tau ≤ 255)
  | .decrypt128 tau => decide (tau ≤ 255)
  | .decrypt256 tau => decide (tau ≤ 255)
  | .aesround => true
  | .zeroize => true

end Sys2Proof
end

