-- ==== Sys2Proof/Decode.lean ====
section
/-! DEFINITION. The command decoder (30_encoding.md R126), total on every 32-bit word, which refuses a
word by naming what is wrong with it (R127), and the encoder written from the same format (R120, R131). -/

namespace Sys2Proof

/-- Why a word decodes to ILLEGAL, in the words of 30_encoding.md R127. -/
inductive Illegal where
  /-- RSV, bits 31:16, is not zero (R125). -/
  | nonzeroRsv
  /-- OP is 0x0 or 0x5–0xF (R122). -/
  | reservedOp
  /-- VAR is 0x2–0xF in ENCRYPT or DECRYPT (R123). -/
  | reservedVar
  /-- VAR or TAGLEN is not zero in AESROUND or ZEROIZE (R123, R124). -/
  | nonzeroField
  deriving DecidableEq, Repr

/-- The decoder's answer: `Command | ILLEGAL` (30_encoding.md R126). -/
inductive Decoded where
  | command (i : Instr)
  | illegal (why : Illegal)
  deriving DecidableEq, Repr

/-! ## The fields of a command word (R120) -/

def opField (w : Word) : BitVec 4 := w.extractLsb' 0 4
def varField (w : Word) : BitVec 4 := w.extractLsb' 4 4
def tagField (w : Word) : BitVec 8 := w.extractLsb' 8 8
def rsvField (w : Word) : BitVec 16 := w.extractLsb' 16 16

/-- OP values (R122). -/
def opEncrypt : BitVec 4 := 0x1#4
def opDecrypt : BitVec 4 := 0x2#4
def opAesround : BitVec 4 := 0x3#4
def opZeroize : BitVec 4 := 0x4#4

/-- VAR values (R123). -/
def var128 : BitVec 4 := 0x0#4
def var256 : BitVec 4 := 0x1#4

/-- The four fields put together into a word (R120). -/
def assembleWord (rsv : BitVec 16) (tag : BitVec 8) (var op : BitVec 4) : Word :=
  rsv ++ tag ++ var ++ op

/-- decode (R126). -/
def decode (w : Word) : Decoded :=
  if rsvField w ≠ 0#16 then .illegal .nonzeroRsv
  else if opField w = opEncrypt then
    if varField w = var128 then .command (.encrypt128 (tagField w).toNat)
    else if varField w = var256 then .command (.encrypt256 (tagField w).toNat)
    else .illegal .reservedVar
  else if opField w = opDecrypt then
    if varField w = var128 then .command (.decrypt128 (tagField w).toNat)
    else if varField w = var256 then .command (.decrypt256 (tagField w).toNat)
    else .illegal .reservedVar
  else if opField w = opAesround then
    if varField w = 0#4 ∧ tagField w = 0#8 then .command .aesround else .illegal .nonzeroField
  else if opField w = opZeroize then
    if varField w = 0#4 ∧ tagField w = 0#8 then .command .zeroize else .illegal .nonzeroField
  else .illegal .reservedOp

/-! ## The encoder (R120, R131) -/

/-- The OP field a command is spelled with. -/
def Instr.op : Instr → BitVec 4
  | .encrypt128 _ => opEncrypt
  | .encrypt256 _ => opEncrypt
  | .decrypt128 _ => opDecrypt
  | .decrypt256 _ => opDecrypt
  | .aesround => opAesround
  | .zeroize => opZeroize

/-- The VAR field. -/
def Instr.var : Instr → BitVec 4
  | .encrypt128 _ => var128
  | .encrypt256 _ => var256
  | .decrypt128 _ => var128
  | .decrypt256 _ => var256
  | .aesround => 0#4
  | .zeroize => 0#4

/-- The TAGLEN field; an ill-formed tag size is cut to 8 bits. -/
def Instr.tag : Instr → BitVec 8
  | .encrypt128 tau => BitVec.ofNat 8 tau
  | .encrypt256 tau => BitVec.ofNat 8 tau
  | .decrypt128 tau => BitVec.ofNat 8 tau
  | .decrypt256 tau => BitVec.ofNat 8 tau
  | .aesround => 0#8
  | .zeroize => 0#8

/-- The command word of an instruction, RSV zero (R125, R131). -/
def encode (i : Instr) : Word := assembleWord 0#16 i.tag i.var i.op

/-- The instruction the decoder reads from the table word `w` of `nbits` bits: a command is one 32-bit
word, numbered as the table numbers it (R120). -/
def decodeTableWord (nbits w : Nat) : Option Instr :=
  match decode (BitVec.ofNat 32 (w % 2 ^ nbits)) with
  | .command i => some i
  | .illegal _ => none

end Sys2Proof
end

