-- ==== Sys2Proof/Config.lean ====
section
/-! DEFINITION. What the implementation fixes (00_scope.md R8) and the free values.

`MemOK`, the open platform predicate, is an argument of the model (R8): `Machine.State.resetOn` takes the
platform, every state carries the one it runs on, and `platform` is the platform of `Machine.State.reset`, a
constant of which nothing can be proved.  The open parameters BusProtocol, Latency, ResetLength and REG_BASE
have no counterpart: no rule of the model depends on them. -/

namespace Sys2Proof.Machine

/-- A run of `len` byte addresses from `base`. -/
structure Range where
  base : Nat
  len : Nat
  deriving DecidableEq, Repr

/-- The platform (20_memory.md R96): which DMA reads and writes it refuses (MemOK false), and which
addresses are device memory.  Any predicate on the 2^64 addresses is such a list of ranges. -/
structure Platform where
  noRead : List Range
  noWrite : List Range
  device : List Range
  deriving DecidableEq, Repr, Inhabited

end Sys2Proof.Machine

namespace Sys2Proof.Config

/-- The platform the machine stands on: the parameter MemOK, which R8 leaves OPEN and no model may choose, and
the device addresses of 20_memory.md R96.  It has no body, so what is proved of a run from reset holds
whatever the platform refuses (log 2). -/
opaque platform : Machine.Platform

/-- The free values: byte number `n` of those the spec gives "any value" (20_memory.md R105, R106,
70_reset_and_hazards.md R401).  It has no body, so nothing can be proved of its values; the counter
`State.freeCount` says which one comes next. -/
opaque freeByte : Nat → Byte

/-- MAX_LEN, the largest AD or message length in bytes (R8, 46_commands.md R329). -/
def maxLen : Nat := 2 ^ 61 - 1

/-- REG_WINDOW, the size of the register window in bytes (R8). -/
def regWindow : Nat := 4096

/-- The number of byte addresses of the DMA port's one address space (ADDR_WIDTH = 64, 20_memory.md R95). -/
def addrSpace : Nat := 2 ^ 64

end Sys2Proof.Config
end

