-- ==== Sys2Proof/Machine/State.lean ====
section
/-! DEFINITION. The state of the core (10_state.md), as plain data, with what stands outside it and the
step needs: system memory, the platform's answers, and the host's next moves. -/

namespace Sys2Proof.Machine

/-- STATUS.ERR_CODE (10_state.md R39, 60_exceptions.md R360); codes 5–15 are never produced. -/
inductive ErrCode where
  /-- 0 NONE: success. -/
  | noError
  /-- 1 ILLEGAL: the word decodes to no command. -/
  | illegal
  /-- 2 CONTRACT: a size, length or address contract is violated. -/
  | contract
  /-- 3 AUTH: the recomputed tag differs from the tag read. -/
  | auth
  /-- 4 BUS: a DMA access was refused by the platform. -/
  | bus
  deriving DecidableEq, Repr

/-- STATUS.ERR_PARAM (10_state.md R42). -/
inductive ErrParam where
  | noParam
  | tagSize
  | srcLen
  | adLen
  | dstLen
  | srcRange
  | dstRange
  | adRange
  | overlap
  deriving DecidableEq, Repr

/-- CTRL (10_state.md R36): two bits, the rest read 0 and ignore writes. -/
structure Ctrl where
  doneIE : Bool
  ovrIE : Bool
  deriving DecidableEq, Repr

/-- STATUS (10_state.md R37). -/
structure Status where
  busy : Bool
  errCode : ErrCode
  lastOp : BitVec 4
  authOk : Bool
  errParam : ErrParam
  deriving DecidableEq, Repr

/-- INT_STATUS (10_state.md R43). -/
structure IntStatus where
  done : Bool
  ovr : Bool
  deriving DecidableEq, Repr

/-- The eight 128-bit lanes (10_state.md R57); Engine-256 uses the first six. -/
structure Lanes where
  s0 : Block
  s1 : Block
  s2 : Block
  s3 : Block
  s4 : Block
  s5 : Block
  s6 : Block
  s7 : Block
  deriving DecidableEq, Repr

/-- The command snapshot Q (10_state.md R60). -/
structure Snapshot where
  op : BitVec 4
  var : BitVec 4
  tau : BitVec 8
  key : Wide
  nonce : Wide
  src : BitVec 64
  srcLen : BitVec 64
  dst : BitVec 64
  dstLen : BitVec 64
  ad : BitVec 64
  adLen : BitVec 64
  inp : Block
  rk : Block
  deriving DecidableEq, Repr

/-- Where the sequencer stands in the running command (20_memory.md R102, 46_commands.md R322).  The
computation between two accesses belongs to the step of the access that follows it, so a phase either
names the next access or says which computation comes before it. -/
inductive Phase where
  /-- No command is running. -/
  | idle
  /-- Accepted, nothing done yet: initialization comes next. -/
  | start
  /-- The next access reads AD byte `i`. -/
  | adRead (i : Nat)
  /-- The chunk that ends before AD byte `n` has been read: its absorption comes next. -/
  | adChunk (n : Nat)
  /-- The next access reads message byte `i`. -/
  | msgRead (i : Nat)
  /-- The block that ends before message byte `n` has been read: its encryption or decryption comes next. -/
  | msgBlock (n : Nat)
  /-- The next access writes output byte `i` of the block in the working block. -/
  | msgWrite (i : Nat)
  /-- The block that ends before output byte `n` has been written: the next block or finalization comes next. -/
  | msgNext (n : Nat)
  /-- The next access writes (ENCRYPT) or reads (DECRYPT) tag byte `j`. -/
  | tag (j : Nat)
  /-- DECRYPT: the expected tag has been read; the comparison comes next. -/
  | verify
  /-- DECRYPT: the next access wipes output byte `i`. -/
  | wipe (i : Nat)
  /-- Every access is done; the completion, with this outcome, is the next step. -/
  | finish (e : ErrCode)
  deriving DecidableEq, Repr

/-- The hidden state: lanes, T, E, P, Z (10_state.md R57, R59), the snapshot Q (R60), the sequencer's
position, the working block that holds a block's bytes while they are read or written one by one (the
pseudocode's local variables a, x and c), and, the model's own, which of the run's bytes became visible
only after its CMD write (log 6). -/
structure Hidden where
  lanes : Lanes
  t : Wide
  e : Wide
  p : Wide
  z : Wide
  q : Snapshot
  buf : Wide
  phase : Phase
  /-- Bytes of the AD or input range that the host wrote before CMD and that became visible during the run:
  the core reads any value there (20_memory.md R105, 93_implementation_defined.md U4). -/
  late : List Nat
  deriving DecidableEq, Repr

/-- The two kinds of DMA access (20_memory.md R96). -/
inductive AccessKind where
  | read
  | write
  deriving DecidableEq, Repr

/-- System memory (20_memory.md R95) in canonical form: addresses strictly rising, no byte listed that an
unlisted address reads as anyway. -/
abbrev Memory := List Host.Cell

/-- A host write issued and not yet visible in system memory (20_memory.md R105).  `value` is the byte
written, or none once a write of the core has met it: which of the two then survives the spec does not
say, so a free value lands (log 6). -/
structure Posted where
  addr : Nat
  value : Option Byte
  deriving DecidableEq, Repr

/-- What happens next outside the core, or that the core takes its turn. -/
inductive Event where
  /-- The core takes one step, if a command is running (00_scope.md R9). -/
  | core
  /-- A host read of `bits` bits at offset `off` of the register window (20_memory.md R90). -/
  | regRead (off bits : Nat)
  /-- A host write of `bits` bits at offset `off` of the register window (20_memory.md R90). -/
  | regWrite (off bits : Nat) (v : Word)
  /-- The host's loop `poll NAME, m, v` on the register at `off` (30_encoding.md R132). -/
  | poll (off : Nat) (mask value : Word)
  /-- The host (or another bus master) reads a byte of system memory. -/
  | memRead (a : Nat)
  /-- The host (or another bus master) writes a byte of system memory, visible at once. -/
  | memWrite (a : Nat) (v : Byte)
  /-- The host writes a byte that is not visible in system memory yet (20_memory.md R105). -/
  | memPost (a : Nat) (v : Byte)
  /-- The host makes every posted byte visible (20_memory.md R105). -/
  | memVisible
  /-- The reset input is asserted (70_reset_and_hazards.md R400, R401). -/
  | resetAssert
  /-- The reset input is released (70_reset_and_hazards.md R400, R402). -/
  | resetRelease
  deriving DecidableEq, Repr

/-- The state of the machine.  Registers, flags and hidden state are 10_state.md's; ID, VERSION and CAPS
are constants of the read operation; CMD holds no value (R44). -/
structure State where
  /-- CTRL (R36). -/
  ctrl : Ctrl
  /-- STATUS (R37–R42). -/
  status : Status
  /-- INT_STATUS (R43). -/
  intStatus : IntStatus
  /-- ERR_INFO_LO, ERR_INFO_HI (R45). -/
  errInfo : BitVec 64
  /-- KEY0–KEY7 (R46). -/
  key : Wide
  /-- NONCE0–NONCE7 (R47). -/
  nonce : Wide
  /-- SRC_ADDR (R48). -/
  srcAddr : BitVec 64
  /-- SRC_LEN (R48). -/
  srcLen : BitVec 64
  /-- DST_ADDR (R49). -/
  dstAddr : BitVec 64
  /-- DST_LEN (R49). -/
  dstLen : BitVec 64
  /-- AD_ADDR (R50). -/
  adAddr : BitVec 64
  /-- AD_LEN (R50). -/
  adLen : BitVec 64
  /-- AESR_IN0–AESR_IN3 (R51). -/
  aesrIn : Block
  /-- AESR_RK0–AESR_RK3 (R52). -/
  aesrRk : Block
  /-- AESR_OUT0–AESR_OUT3 (R53). -/
  aesrOut : Block
  /-- The hidden state (R57–R60). -/
  hid : Hidden
  /-- System memory (20_memory.md R95); not state of the core. -/
  mem : Memory
  /-- Host writes issued and not yet visible, oldest first (20_memory.md R105). -/
  posted : List Posted
  /-- What happens next, oldest first; when it is empty the core takes its turn. -/
  inputs : List Event
  /-- The data the host's last read returned. -/
  hostData : Word
  /-- How many free bytes have been used. -/
  freeCount : Nat
  /-- The reset input is asserted (70_reset_and_hazards.md R400). -/
  resetHeld : Bool
  /-- The platform the machine stands on, the parameter MemOK of 00_scope.md R8 (20_memory.md R96); no step
  changes it. -/
  platform : Platform
  deriving DecidableEq, Repr

/-- Why the machine stops with a fault.  The core's own errors are completions (60_exceptions.md R360,
R372), never faults. -/
inductive Fault where
  /-- The host made a register-port access of another width than 32 bits, unaligned or outside the window
  (20_memory.md R90, 60_exceptions.md R366).  Raised by the register port; safe. -/
  | registerPort (off bits : Nat)
  /-- The host (or another bus master) wrote a running command's AD, input or output range, or read its
  output range: "a model records such a run as a fault" (20_memory.md R103, 93_implementation_defined.md U5).
  Raised by the host's memory reads and writes while BUSY; safe. -/
  | hostDuty (a : Nat)
  /-- An access to a byte address that does not exist (20_memory.md R95).  Raised by memory accesses; for
  the core no run reaches it (46_commands.md R331); safe. -/
  | outsideAddressSpace (a : Nat)
  /-- The core is BUSY and its snapshot or sequencer names no command; no run reaches it.  Raised by the
  core's turn; safe. -/
  | noCommand
  deriving DecidableEq, Repr

/-- Why the machine gives a step no meaning. -/
inductive Refusal where
  /-- An instruction without a meaning in this model; raised by no arm of exec today; safe. -/
  | notModelled (mnemonic : String)
  /-- An access to device memory, which the spec tells a model to refuse (20_memory.md R96).  Raised by
  the memory accesses of the core and of the host; safe. -/
  | deviceMemory (a : Nat)
  deriving DecidableEq, Repr

/-- The outcome of a step. -/
abbrev Result := Host.Outcome State Fault Refusal

/-! ## Reset (10_state.md R63) -/

def Lanes.zero : Lanes := ⟨0, 0, 0, 0, 0, 0, 0, 0⟩

def Snapshot.zero : Snapshot :=
  { op := 0, var := 0, tau := 0, key := 0, nonce := 0, src := 0, srcLen := 0, dst := 0, dstLen := 0,
    ad := 0, adLen := 0, inp := 0, rk := 0 }

/-- The hidden state while BUSY = 0 (R61): every byte zero, the sequencer idle. -/
def Hidden.zero : Hidden :=
  { lanes := .zero, t := 0, e := 0, p := 0, z := 0, q := .zero, buf := 0, phase := .idle, late := [] }

/-- The machine right after reset (R63) on the platform `p`, the reset input released.  Memory lists nothing,
nothing is posted, no input waits.  The platform is an argument (00_scope.md R8). -/
def State.resetOn (p : Platform) : State :=
  { ctrl := ⟨false, false⟩
    status := ⟨false, .noError, 0, false, .noParam⟩
    intStatus := ⟨false, false⟩
    errInfo := 0
    key := 0
    nonce := 0
    srcAddr := 0
    srcLen := 0
    dstAddr := 0
    dstLen := 0
    adAddr := 0
    adLen := 0
    aesrIn := 0
    aesrRk := 0
    aesrOut := 0
    hid := .zero
    mem := []
    posted := []
    inputs := []
    hostData := 0
    freeCount := 0
    resetHeld := false
    platform := p }

/-- The machine right after reset (R63), on the platform it stands on, whatever that refuses (log 2). -/
def State.reset : State := .resetOn Config.platform

end Sys2Proof.Machine
end

