-- ==== Sys2Proof/Machine/Operands.lean ====
section
/-! DEFINITION. Byte strings, register packing, the engines' parameters and the operands of a command
(00_scope.md R8, R10–R14, 20_memory.md R92, R93, 30_encoding.md R130, 10_state.md R60). -/

namespace Sys2Proof.Machine

/-! ## Byte strings and their integer view (00_scope.md R11, R12) -/

/-- Byte `j` of a byte string. -/
def byteAt {n : Nat} (x : BitVec n) (j : Nat) : Byte := x.extractLsb' (8 * j) 8

/-- The `w`-bit field at bit `i` of `x` replaced by `v`. -/
def setField {n w : Nat} (x : BitVec n) (i : Nat) (v : BitVec w) : BitVec n :=
  (x &&& ~~~((BitVec.allOnes w).setWidth n <<< i)) ||| (v.setWidth n <<< i)

/-- Byte `j` of a byte string replaced by `v`. -/
def setByte {n : Nat} (x : BitVec n) (j : Nat) (v : Byte) : BitVec n := setField x (8 * j) v

/-- 32-bit word `i` of a register group (20_memory.md R92): NAMEi bits `8j+7 … 8j` are byte `4i+j`.  The
halves NAME_LO and NAME_HI of a pair are words 0 and 1 (R93). -/
def wordAt {n : Nat} (x : BitVec n) (i : Nat) : Word := x.extractLsb' (32 * i) 32

/-- Word `i` of a register group replaced by `v` (20_memory.md R92, R93). -/
def setWord {n : Nat} (x : BitVec n) (i : Nat) (v : Word) : BitVec n := setField x (32 * i) v

/-- The byte string of the listed bytes, first byte first; missing bytes are zero, so this is also
ZeroPad (00_scope.md R12). -/
def ofBytes (n : Nat) : List Byte → BitVec n
  | [] => 0
  | b :: rest => b.setWidth n ||| (ofBytes n rest <<< 8)

/-- The first `k` bytes of a byte string. -/
def toBytes {n : Nat} (k : Nat) (x : BitVec n) : List Byte := (List.range k).map (byteAt x)

/-- Trunc to `r` bytes, zero above (00_scope.md R12). -/
def truncBytes (x : Wide) (r : Nat) : Wide := (x.setWidth (8 * r)).setWidth 256

/-- Half 0 of a 32-byte string, bytes 0..15 (41_update_init.md R185, R188). -/
def half0 (x : Wide) : Block := x.extractLsb' 0 128

/-- Half 1 of a 32-byte string, bytes 16..31 (41_update_init.md R185, R188). -/
def half1 (x : Wide) : Block := x.extractLsb' 128 128

/-- `a ∥ b` for two blocks: `a` has the lower indices (00_scope.md R12). -/
def join (a b : Block) : Wide := b ++ a

/-! ## Engines (00_scope.md R2, R3, R8) -/

/-- The two parameter sets. -/
inductive Engine where
  /-- Engine-128 (R2). -/
  | e128
  /-- Engine-256 (R3). -/
  | e256
  deriving DecidableEq, Repr

/-- RATE: bytes absorbed or produced per update step (R8). -/
def Engine.rate : Engine → Nat
  | .e128 => 32
  | .e256 => 16

/-- The two operations on a message. -/
inductive Direction where
  | encrypt
  | decrypt
  deriving DecidableEq, Repr

/-- The OP field of a direction (30_encoding.md R122). -/
def Direction.op : Direction → BitVec 4
  | .encrypt => opEncrypt
  | .decrypt => opDecrypt

/-- The VAR field of an engine (30_encoding.md R123). -/
def Engine.var : Engine → BitVec 4
  | .e128 => var128
  | .e256 => var256

/-! ## The constants C0 and C1 (41_update_init.md R181) -/

/-- `F(k), F(k+1), …`: the next `n` Fibonacci numbers modulo 256 from `a = F(k)`, `b = F(k+1)`. -/
def fibonacciBytes : Nat → Byte → Byte → List Byte
  | 0, _, _ => []
  | n + 1, a, b => a :: fibonacciBytes n b (a + b)

/-- C0 = 00 01 01 02 03 05 08 0d 15 22 37 59 90 e9 79 62, byte 0 first. -/
def c0 : Block := 0x6279e99059372215_0d08050302010100#128

/-- C1 = db 3d 18 55 6d c2 2f f1 20 11 31 42 73 b5 28 dd, byte 0 first. -/
def c1 : Block := 0xdd28b57342311120_f12fc26d55183ddb#128

/-! ## The snapshot as operands (10_state.md R60) -/

/-- The command word the snapshot's fields come from, RSV zero (30_encoding.md R120). -/
def Snapshot.word (q : Snapshot) : Word := assembleWord 0#16 q.tau q.var q.op

/-- msglen: Q.srclen for ENCRYPT, Q.srclen − τ for DECRYPT (43_encrypt.md R240, 44_decrypt.md R270). -/
def Snapshot.msgLen (d : Direction) (q : Snapshot) : Nat :=
  match d with
  | .encrypt => q.srcLen.toNat
  | .decrypt => q.srcLen.toNat - q.tau.toNat

/-- A snapshot of a command that has buffers: ENCRYPT or DECRYPT (20_memory.md R101: AESROUND and
ZEROIZE have empty access sequences). -/
def Snapshot.hasBuffers (q : Snapshot) : Bool := q.op = opEncrypt ∨ q.op = opDecrypt

/-- Address `a` lies in the `len` bytes from `base`. -/
def inRange (base len a : Nat) : Bool := base ≤ a ∧ a < base + len

/-- `a` is in the AD range (20_memory.md R103). -/
def Snapshot.inAd (q : Snapshot) (a : Nat) : Bool := inRange q.ad.toNat q.adLen.toNat a

/-- `a` is in the input range (20_memory.md R103). -/
def Snapshot.inInput (q : Snapshot) (a : Nat) : Bool := inRange q.src.toNat q.srcLen.toNat a

/-- `a` is in the output range (20_memory.md R103). -/
def Snapshot.inOutput (q : Snapshot) (a : Nat) : Bool := inRange q.dst.toNat q.dstLen.toNat a

end Sys2Proof.Machine
end

