-- ==== Sys2Proof/Machine/AesRound.lean ====
section
/-! DEFINITION. The AES round unit (40_aes_round.md R150–R157). -/

namespace Sys2Proof.Machine

/-! ## GF(2^8) (R152) -/

/-- a • 0x02. -/
def xtime (a : Byte) : Byte := (a <<< 1) ^^^ (if a.msb then 0x1B#8 else 0#8)

/-- a • 0x03. -/
def mul3 (a : Byte) : Byte := xtime a ^^^ a

/-- The product of `a` by the lowest `n` bits of `b` as a polynomial. -/
def gfMulBits : Nat → Byte → Byte → Byte
  | 0, _, _ => 0
  | n + 1, a, b => (if b.getLsbD 0 then a else 0) ^^^ gfMulBits n (xtime a) (b >>> 1)

/-- a • b: polynomial multiplication reduced modulo 0x11B. -/
def gfMul (a b : Byte) : Byte := gfMulBits 8 a b

/-- `a` raised to the power `n`. -/
def gfPow (a : Byte) : Nat → Byte
  | 0 => 1
  | n + 1 => gfMul a (gfPow a n)

/-- The multiplicative inverse, 0x00 for 0x00: the power 254, since the 255 nonzero bytes form a group. -/
def gfInv (a : Byte) : Byte := gfPow a 254

/-- The affine map of SubBytes (R153): bit i is `b_i ⊕ b_(i+4) ⊕ b_(i+5) ⊕ b_(i+6) ⊕ b_(i+7) ⊕ c_i`,
indices modulo 8, c = 0x63. -/
def affine (b : Byte) : Byte :=
  b ^^^ b.rotateRight 4 ^^^ b.rotateRight 5 ^^^ b.rotateRight 6 ^^^ b.rotateRight 7 ^^^ 0x63#8

/-! ## SubBytes (R153) -/

/-- One row of the table of R153 (the high hex digit of the byte), column 0 leftmost. -/
def sboxRow : Nat → Block
  | 0x0 => 0x637c777bf26b6fc53001672bfed7ab76#128
  | 0x1 => 0xca82c97dfa5947f0add4a2af9ca472c0#128
  | 0x2 => 0xb7fd9326363ff7cc34a5e5f171d83115#128
  | 0x3 => 0x04c723c31896059a071280e2eb27b275#128
  | 0x4 => 0x09832c1a1b6e5aa0523bd6b329e32f84#128
  | 0x5 => 0x53d100ed20fcb15b6acbbe394a4c58cf#128
  | 0x6 => 0xd0efaafb434d338545f9027f503c9fa8#128
  | 0x7 => 0x51a3408f929d38f5bcb6da2110fff3d2#128
  | 0x8 => 0xcd0c13ec5f974417c4a77e3d645d1973#128
  | 0x9 => 0x60814fdc222a908846eeb814de5e0bdb#128
  | 0xA => 0xe0323a0a4906245cc2d3ac629195e479#128
  | 0xB => 0xe7c8376d8dd54ea96c56f4ea657aae08#128
  | 0xC => 0xba78252e1ca6b4c6e8dd741f4bbd8b8a#128
  | 0xD => 0x703eb5664803f60e613557b986c11d9e#128
  | 0xE => 0xe1f8981169d98e949b1e87e9ce5528df#128
  | _ => 0x8ca1890dbfe6426841992d0fb054bb16#128

/-- Sbox, read from the table: row the high hex digit, column the low one. -/
def sbox (a : Byte) : Byte := (sboxRow (a.toNat / 16)).extractLsb' (8 * (15 - a.toNat % 16)) 8

/-- The block whose byte `j` is `f j`. -/
def blockOf (f : Nat → Byte) : Block := ofBytes 128 ((List.range 16).map f)

/-- SubBytes (R153). -/
def subBytes (b : Block) : Block := blockOf fun j => sbox (byteAt b j)

/-! ## ShiftRows (R154) -/

/-- ShiftRows: `out[r + 4c] = in[r + 4((c + r) mod 4)]`. -/
def shiftRows (b : Block) : Block :=
  blockOf fun j => byteAt b (j % 4 + 4 * ((j / 4 + j % 4) % 4))

/-! ## MixColumns (R155) -/

/-- Row `r` of a mixed column. -/
def mixRow (s0 s1 s2 s3 : Byte) : Nat → Byte
  | 0 => xtime s0 ^^^ mul3 s1 ^^^ s2 ^^^ s3
  | 1 => s0 ^^^ xtime s1 ^^^ mul3 s2 ^^^ s3
  | 2 => s0 ^^^ s1 ^^^ xtime s2 ^^^ mul3 s3
  | _ => mul3 s0 ^^^ s1 ^^^ s2 ^^^ xtime s3

/-- MixColumns: column `c` is bytes `4c … 4c+3` (R151). -/
def mixColumns (b : Block) : Block :=
  blockOf fun j =>
    mixRow (byteAt b (4 * (j / 4))) (byteAt b (4 * (j / 4) + 1)) (byteAt b (4 * (j / 4) + 2))
      (byteAt b (4 * (j / 4) + 3)) (j % 4)

/-- AESRound(in, rk) = MixColumns(ShiftRows(SubBytes(in))) ⊕ rk (R157). -/
def aesRound (inp rk : Block) : Block := mixColumns (shiftRows (subBytes inp)) ^^^ rk

end Sys2Proof.Machine
end

