-- ==== Sys2Proof/Machine/Flags.lean ====
section
/-! DEFINITION. The status words and the interrupt output (10_state.md R36, R37, R43, R62,
60_exceptions.md R360, R370). -/

namespace Sys2Proof.Machine

/-- A flag as a bit. -/
def bit (b : Bool) : BitVec 1 := BitVec.ofBool b

/-- The ERR_CODE field (10_state.md R39). -/
def ErrCode.code : ErrCode → BitVec 4
  | .noError => 0
  | .illegal => 1
  | .contract => 2
  | .auth => 3
  | .bus => 4

/-- The ERR_PARAM field (10_state.md R42). -/
def ErrParam.code : ErrParam → BitVec 4
  | .noParam => 0
  | .tagSize => 1
  | .srcLen => 2
  | .adLen => 3
  | .dstLen => 4
  | .srcRange => 5
  | .dstRange => 6
  | .adRange => 7
  | .overlap => 8

/-- CTRL as the host reads it (R36). -/
def Ctrl.word (c : Ctrl) : Word := 0#30 ++ bit c.ovrIE ++ bit c.doneIE

/-- What a write of `v` leaves in CTRL: bits 31:2 are ignored (R36). -/
def Ctrl.ofWord (v : Word) : Ctrl := ⟨v.getLsbD 0, v.getLsbD 1⟩

/-- STATUS as the host reads it (R37). -/
def Status.word (t : Status) : Word :=
  0#12 ++ t.errParam.code ++ 0#3 ++ bit t.authOk ++ t.lastOp ++ t.errCode.code ++ 0#3 ++ bit t.busy

/-- INT_STATUS as the host reads it (R43). -/
def IntStatus.word (i : IntStatus) : Word := 0#30 ++ bit i.ovr ++ bit i.done

/-- A host write of `v` to INT_STATUS: a 1 clears its bit, a 0 leaves it (R43). -/
def IntStatus.clear (i : IntStatus) (v : Word) : IntStatus :=
  ⟨i.done && !v.getLsbD 0, i.ovr && !v.getLsbD 1⟩

/-- The interrupt output (10_state.md R62, 60_exceptions.md R370). -/
def State.irq (s : State) : Bool :=
  (s.intStatus.done && s.ctrl.doneIE) || (s.intStatus.ovr && s.ctrl.ovrIE)

end Sys2Proof.Machine
end

