-- ==== Sys2Proof/Machine/Contract.lean ====
section
/-! DEFINITION. The contract checks (46_commands.md R326–R333). -/

namespace Sys2Proof.Machine

/-- Overlap(s, sl, d, dl): both lengths nonzero, different starts, and a byte shared (R333). -/
def overlaps (s sl d dl : Nat) : Bool :=
  sl ≠ 0 ∧ dl ≠ 0 ∧ s ≠ d ∧ s < d + dl ∧ d < s + sl

/-- ContractCheck: the first failing check with its ERR_PARAM and ERR_INFO, or none (R326).  The sums
are exact. -/
def contractCheck (d : Direction) (q : Snapshot) : Option (ErrParam × BitVec 64) :=
  let tau := q.tau.toNat
  let srcLen := q.srcLen.toNat
  let msgLen := q.msgLen d
  let exp := match d with
    | .encrypt => msgLen + tau
    | .decrypt => msgLen
  if tau ≠ 16 ∧ tau ≠ 32 then some (.tagSize, 0x30#64)
  else if d = .decrypt ∧ srcLen < tau then some (.srcLen, BitVec.ofNat 64 tau)
  else if Config.maxLen < msgLen then
    some (.srcLen, BitVec.ofNat 64 (Config.maxLen + (match d with | .encrypt => 0 | .decrypt => tau)))
  else if Config.maxLen < q.adLen.toNat then some (.adLen, BitVec.ofNat 64 Config.maxLen)
  else if q.dstLen.toNat ≠ exp then some (.dstLen, BitVec.ofNat 64 exp)
  else if Config.addrSpace < q.src.toNat + srcLen then
    some (.srcRange, BitVec.ofNat 64 (Config.addrSpace - q.src.toNat))
  else if Config.addrSpace < q.dst.toNat + q.dstLen.toNat then
    some (.dstRange, BitVec.ofNat 64 (Config.addrSpace - q.dst.toNat))
  else if Config.addrSpace < q.ad.toNat + q.adLen.toNat then
    some (.adRange, BitVec.ofNat 64 (Config.addrSpace - q.ad.toNat))
  else if overlaps q.src.toNat srcLen q.dst.toNat q.dstLen.toNat then some (.overlap, 0)
  else none

end Sys2Proof.Machine
end

