-- ==== Sys2Proof/Machine/Ops.lean ====
section
/-! DEFINITION. The named operations over memory, registers, acceptance and completion.

"Trap entry" for this hardware is the completion that records an error, "trap return" the next acceptance
(60_exceptions.md, introduction; R372, R373): `complete` and `clearReport` are those two, written once. -/

namespace Sys2Proof.Machine

/-! ## System memory (20_memory.md R95–R97) -/

namespace Memory

/-- What an unlisted address reads as (log 1). -/
def unlisted : Byte := 0

/-- The byte at `a`. -/
def read : Memory → Nat → Byte
  | [], _ => unlisted
  | (b, x) :: rest, a => if a = b then x else read rest a

/-- The byte `v` stored at `a`, in canonical form. -/
def write : Memory → Nat → Byte → Memory
  | [], a, v => if v = unlisted then [] else [(a, v)]
  | (b, x) :: rest, a, v =>
    if a < b then (if v = unlisted then (b, x) :: rest else (a, v) :: (b, x) :: rest)
    else if a = b then (if v = unlisted then rest else (a, v) :: rest)
    else (b, x) :: write rest a v

/-- Every listed address is above `lo`, rising strictly, and no listed byte is the unlisted one. -/
def wfAbove : Nat → Memory → Bool
  | _, [] => true
  | lo, (b, x) :: rest => decide (lo ≤ b) && decide (x ≠ unlisted) && wfAbove (b + 1) rest

/-- The canonical form. -/
def wf (m : Memory) : Bool := wfAbove 0 m

/-- `n` bytes from address `a` take the free bytes numbered from `k`. -/
def freeRange : Nat → Nat → Nat → Memory → Memory
  | _, 0, _, m => m
  | a, n + 1, k, m => freeRange (a + 1) n (k + 1) (write m a (Config.freeByte k))

/-- The listed bytes from address `a` on stored in ascending order. -/
def writeBytes : Nat → List Byte → Memory → Memory
  | _, [], m => m
  | a, b :: rest, m => writeBytes (a + 1) rest (write m a b)

/-- The `n` bytes from address `a`. -/
def readBytes (m : Memory) (a n : Nat) : List Byte := (List.range n).map fun j => read m (a + j)

/-- Host writes that become visible, oldest first; one whose value is open lands the free byte of its
number, counted from `k` (log 6). -/
def land : List Posted → Nat → Memory → Memory
  | [], _, m => m
  | c :: rest, k, m => land rest (k + 1) (write m c.addr (c.value.getD (Config.freeByte k)))

end Memory

/-! ## The platform (20_memory.md R96) -/

/-- `a` lies in one of the ranges. -/
def inSome (rs : List Range) (a : Nat) : Bool := rs.any fun r => inRange r.base r.len a

/-- MemOK(a, k): the platform completes a DMA access of kind `k` to `a`. -/
def Platform.memOK (p : Platform) (a : Nat) : AccessKind → Bool
  | .read => !inSome p.noRead a
  | .write => !inSome p.noWrite a

/-- A location with side effects on read or write. -/
def Platform.isDevice (p : Platform) (a : Nat) : Bool := inSome p.device a

/-- The host has written byte `a` and not yet made it visible (20_memory.md R105). -/
def isPosted (cells : List Posted) (a : Nat) : Bool := cells.any fun c => c.addr = a

/-- The host writes not yet visible, with an open value for those to an address of `p`.
DESIGN CHOICE (log 6): the spec does not say which survives, a host write not visible before CMD or what
the command leaves in that byte, so any value lands when the host write becomes visible. -/
def openPosted (p : Nat → Bool) (cells : List Posted) : List Posted :=
  cells.map fun c => if p c.addr then ⟨c.addr, none⟩ else c

/-! ## Completion and acceptance (46_commands.md R321, R323, R345) -/

/-- Zeroize (R345): every byte of the lanes, T, E, P, Z and Q becomes zero, and the sequencer idles. -/
def zeroize (s : State) : State := { s with hid := .zero }

/-- Complete(e, p, v) (R323), atomically: the outcome of the command whose snapshot Q holds is reported,
AESROUND's result and ZEROIZE's clearing happen (40_aes_round.md R160, R340), the hidden state is zeroed,
BUSY falls and DONE rises. -/
def complete (e : ErrCode) (p : ErrParam) (v : BitVec 64) (s : State) : State :=
  let isAesround : Bool := e = .noError ∧ s.hid.q.op = opAesround
  let isZeroize : Bool := e = .noError ∧ s.hid.q.op = opZeroize
  { s with
    key := if isZeroize then 0 else s.key
    nonce := if isZeroize then 0 else s.nonce
    aesrIn := if isZeroize then 0 else s.aesrIn
    aesrRk := if isZeroize then 0 else s.aesrRk
    aesrOut :=
      if isAesround then aesRound s.hid.q.inp s.hid.q.rk
      else if isZeroize then 0 else s.aesrOut
    status :=
      { s.status with
        busy := false
        errCode := e
        errParam := p
        authOk := decide (e = .noError ∧ s.hid.q.op = opDecrypt) }
    errInfo := v
    intStatus := { s.intStatus with done := true }
    hid := .zero }

/-- The first lines of Accept(w): the last report is cleared, LAST_OP takes bits 3:0 of the word (R321). -/
def clearReport (op : BitVec 4) (s : State) : State :=
  { s with
    status := { s.status with lastOp := op, errCode := .noError, authOk := false, errParam := .noParam }
    errInfo := 0
    intStatus := { s.intStatus with done := false } }

/-- A word that decodes to no command: accepted and completed in one step with ILLEGAL
(30_encoding.md R127, R321). -/
def acceptIllegal (w : Word) (s : State) : State :=
  complete .illegal .noParam (w.setWidth 64) (clearReport (opField w) s)

/-- The snapshot Q of a command with these fields (10_state.md R60). -/
def takeSnapshot (op var : BitVec 4) (tau : BitVec 8) (s : State) : Snapshot :=
  { op := op
    var := var
    tau := tau
    key := s.key
    nonce := s.nonce
    src := s.srcAddr
    srcLen := s.srcLen
    dst := s.dstAddr
    dstLen := s.dstLen
    ad := s.adAddr
    adLen := s.adLen
    inp := s.aesrIn
    rk := s.aesrRk }

/-- The snapshot put into the hidden state. -/
def withSnapshot (q : Snapshot) (s : State) : State := { s with hid := { s.hid with q := q } }

/-- BUSY rises and the run begins (R321, R322). -/
def startRun (s : State) : State :=
  { s with status := { s.status with busy := true }, hid := { s.hid with phase := .start } }

/-- Accept(w) for a word that decodes to a command with these fields; `check` is its contract check, and
a failure completes with CONTRACT in the same step (R321). -/
def accept (op var : BitVec 4) (tau : BitVec 8) (check : Snapshot → Option (ErrParam × BitVec 64))
    (s : State) : State :=
  let s1 := clearReport op s
  let q := takeSnapshot op var tau s1
  let s2 := withSnapshot q s1
  match check q with
  | some (p, v) => complete .contract p v s2
  | none => startRun s2

/-- A CMD write while BUSY = 1: dropped, and flagged by OVR (R324). -/
def dropCommand (s : State) : State := { s with intStatus := { s.intStatus with ovr := true } }

/-- Every byte of the command's output range takes a free value, and so does a host write to it that is
not visible yet (20_memory.md R106, 70_reset_and_hazards.md R401, log 6). -/
def freeOutput (s : State) : State :=
  { s with
    mem := Memory.freeRange s.hid.q.dst.toNat s.hid.q.dstLen.toNat s.freeCount s.mem
    posted := openPosted s.hid.q.inOutput s.posted
    freeCount := s.freeCount + s.hid.q.dstLen.toNat }

/-- `raise BUS(a)`: every byte of the output range takes a free value, and the command completes with
BUS (20_memory.md R106, 60_exceptions.md R365).
DESIGN CHOICE (log 22): the refused access takes no step of its own; its step is the BUS completion.
46_commands.md R322 gives an access and the completion a step each, R365 says the refused access does not
happen and raises BUS at it, and no rule counts the steps of a command that ends with BUS. -/
def raiseBus (a : Nat) (s : State) : State :=
  complete .bus .noParam (BitVec.ofNat 64 a) (freeOutput s)

/-! ## DMA accesses (20_memory.md R95, R96, R99, R105, R106) -/

/-- Byte `a` was written by the host and not visible before the CMD write of the running command: it is
not visible yet, or became so during the run (R105). -/
def State.unseen (s : State) (a : Nat) : Bool := isPosted s.posted a || s.hid.late.contains a

/-- One DMA read of byte `a`; `k` is the rest of the step with the byte read.  A byte the host wrote and
did not make visible before CMD reads as any value (R105).  A refused read completes with BUS in this step
(log 22). -/
def dmaRead (a : Nat) (s : State) (k : Byte → State → State) : Result :=
  if Config.addrSpace ≤ a then .fault (.outsideAddressSpace a)
  else if !s.platform.memOK a .read then .next (raiseBus a s)
  else if s.platform.isDevice a then .refused (.deviceMemory a)
  else if s.unseen a then
    .next (k (Config.freeByte s.freeCount) { s with freeCount := s.freeCount + 1 })
  else .next (k (Memory.read s.mem a) s)

/-- One DMA write of `v` to byte `a`; `k` is the rest of the step.
DESIGN CHOICE (log 6): where an older host write of the byte is not visible yet, memory takes the core's
byte, the host write stays to come and its value becomes open; the spec does not say which survives.
A refused write completes with BUS in this step (log 22). -/
def dmaWrite (a : Nat) (v : Byte) (s : State) (k : State → State) : Result :=
  if Config.addrSpace ≤ a then .fault (.outsideAddressSpace a)
  else if !s.platform.memOK a .write then .next (raiseBus a s)
  else if s.platform.isDevice a then .refused (.deviceMemory a)
  else .next (k { s with mem := Memory.write s.mem a v, posted := openPosted (fun b => b = a) s.posted })

/-! ## The register window (10_state.md R30) -/

/-- The registers of the window. -/
inductive Reg where
  | id
  | version
  | caps
  | ctrl
  | status
  | intStatus
  | cmd
  /-- ERR_INFO_LO (`i = 0`), ERR_INFO_HI (`i = 1`); so for every pair below. -/
  | errInfo (i : Nat)
  | key (i : Nat)
  | nonce (i : Nat)
  | srcAddr (i : Nat)
  | srcLen (i : Nat)
  | dstAddr (i : Nat)
  | dstLen (i : Nat)
  | adAddr (i : Nat)
  | adLen (i : Nat)
  | aesrIn (i : Nat)
  | aesrRk (i : Nat)
  | aesrOut (i : Nat)
  | reserved
  deriving DecidableEq, Repr

/-- The register at an aligned offset of the window (R30, R54). -/
def regAt (off : Nat) : Reg :=
  if off = 0x000 then .id
  else if off = 0x004 then .version
  else if off = 0x008 then .caps
  else if off = 0x00C then .ctrl
  else if off = 0x010 then .status
  else if off = 0x014 then .intStatus
  else if off = 0x018 then .cmd
  else if off < 0x020 then .reserved
  else if off < 0x028 then .errInfo ((off - 0x020) / 4)
  else if off < 0x040 then .reserved
  else if off < 0x060 then .key ((off - 0x040) / 4)
  else if off < 0x080 then .nonce ((off - 0x060) / 4)
  else if off < 0x088 then .srcAddr ((off - 0x080) / 4)
  else if off < 0x090 then .srcLen ((off - 0x088) / 4)
  else if off < 0x098 then .dstAddr ((off - 0x090) / 4)
  else if off < 0x0A0 then .dstLen ((off - 0x098) / 4)
  else if off < 0x0A8 then .adAddr ((off - 0x0A0) / 4)
  else if off < 0x0B0 then .adLen ((off - 0x0A8) / 4)
  else if off < 0x0C0 then .aesrIn ((off - 0x0B0) / 4)
  else if off < 0x0D0 then .aesrRk ((off - 0x0C0) / 4)
  else if off < 0x0E0 then .aesrOut ((off - 0x0D0) / 4)
  else .reserved

/-- ID, "AEGS" (R33). -/
def idValue : Word := 0x41454753#32

/-- VERSION 1.0 (R34). -/
def versionValue : Word := 0x00010000#32

/-- CAPS: every feature present (R35). -/
def capsValue : Word := 0x0000003F#32

/-- What a read of a register returns.  CMD, KEY and NONCE are write-only and read 0 (R44, R46, R47);
reserved offsets read 0 (R54).  A read changes nothing (20_memory.md R91). -/
def readReg (r : Reg) (s : State) : Word :=
  match r with
  | .id => idValue
  | .version => versionValue
  | .caps => capsValue
  | .ctrl => s.ctrl.word
  | .status => s.status.word
  | .intStatus => s.intStatus.word
  | .cmd => 0
  | .errInfo i => wordAt s.errInfo i
  | .key _ => 0
  | .nonce _ => 0
  | .srcAddr i => wordAt s.srcAddr i
  | .srcLen i => wordAt s.srcLen i
  | .dstAddr i => wordAt s.dstAddr i
  | .dstLen i => wordAt s.dstLen i
  | .adAddr i => wordAt s.adAddr i
  | .adLen i => wordAt s.adLen i
  | .aesrIn i => wordAt s.aesrIn i
  | .aesrRk i => wordAt s.aesrRk i
  | .aesrOut i => wordAt s.aesrOut i
  | .reserved => 0

/-- A write of `v` to a register other than CMD, whose writes the controller takes (R44).  Writes to
read-only registers and reserved offsets are ignored (R30, R54). -/
def writeReg (r : Reg) (v : Word) (s : State) : State :=
  match r with
  | .id => s
  | .version => s
  | .caps => s
  | .ctrl => { s with ctrl := .ofWord v }
  | .status => s
  | .intStatus => { s with intStatus := s.intStatus.clear v }
  | .cmd => s
  | .errInfo _ => s
  | .key i => { s with key := setWord s.key i v }
  | .nonce i => { s with nonce := setWord s.nonce i v }
  | .srcAddr i => { s with srcAddr := setWord s.srcAddr i v }
  | .srcLen i => { s with srcLen := setWord s.srcLen i v }
  | .dstAddr i => { s with dstAddr := setWord s.dstAddr i v }
  | .dstLen i => { s with dstLen := setWord s.dstLen i v }
  | .adAddr i => { s with adAddr := setWord s.adAddr i v }
  | .adLen i => { s with adLen := setWord s.adLen i v }
  | .aesrIn i => { s with aesrIn := setWord s.aesrIn i v }
  | .aesrRk i => { s with aesrRk := setWord s.aesrRk i v }
  | .aesrOut _ => s
  | .reserved => s

/-- The register port accepts 32-bit accesses at multiples of 4 inside the window (20_memory.md R90). -/
def portAccepts (off bits : Nat) : Bool := bits = 32 ∧ off % 4 = 0 ∧ off < Config.regWindow

/-! ## Host duty (20_memory.md R103) -/

/-- `a` lies in the AD or input range of the running command. -/
def State.inSource (s : State) (a : Nat) : Bool :=
  s.status.busy && s.hid.q.hasBuffers && (s.hid.q.inAd a || s.hid.q.inInput a)

/-- A host write to `a` would breach the host duty: it lies in a range of the running command. -/
def writeBreach (s : State) (a : Nat) : Bool :=
  s.status.busy && s.hid.q.hasBuffers && (s.hid.q.inAd a || s.hid.q.inInput a || s.hid.q.inOutput a)

/-- A host read of `a` would breach the host duty: it lies in the output range of the running command. -/
def readBreach (s : State) (a : Nat) : Bool :=
  s.status.busy && s.hid.q.hasBuffers && s.hid.q.inOutput a

end Sys2Proof.Machine
end

