-- ==== Sys2Proof/Machine/Commands.lean ====
section
/-! DEFINITION. AESROUND and ZEROIZE (40_aes_round.md R160, 46_commands.md R340): no memory access, no
contract check, one step after acceptance, which is the completion (R322). -/

namespace Sys2Proof.Machine

/-- The next step of a command with an empty access sequence: its acceptance while the core is idle, its
completion while it is BUSY. -/
def registerCommand (op : BitVec 4) (s : State) : Result :=
  if s.status.busy then .next (complete .noError .noParam 0 s)
  else .next (accept op 0 0 (fun _ => none) s)

/-- AESROUND (40_aes_round.md R160). -/
def execAesround (s : State) : Result := registerCommand opAesround s

/-- ZEROIZE (46_commands.md R340). -/
def execZeroize (s : State) : Result := registerCommand opZeroize s

end Sys2Proof.Machine
end

