-- ==== Sys2Proof/Machine/Update.lean ====
section
/-! DEFINITION. The lane-update engine and initialization (41_update_init.md R180–R190). -/

namespace Sys2Proof.Machine

/-- Update128(m0, m1): one simultaneous assignment of the eight lanes (R182, R183). -/
def update128 (m0 m1 : Block) (l : Lanes) : Lanes :=
  { s0 := aesRound l.s7 (l.s0 ^^^ m0)
    s1 := aesRound l.s0 l.s1
    s2 := aesRound l.s1 l.s2
    s3 := aesRound l.s2 l.s3
    s4 := aesRound l.s3 (l.s4 ^^^ m1)
    s5 := aesRound l.s4 l.s5
    s6 := aesRound l.s5 l.s6
    s7 := aesRound l.s6 l.s7 }

/-- Update256(m): lanes 0..5 only (R182, R184). -/
def update256 (m : Block) (l : Lanes) : Lanes :=
  { l with
    s0 := aesRound l.s5 (l.s0 ^^^ m)
    s1 := aesRound l.s0 l.s1
    s2 := aesRound l.s1 l.s2
    s3 := aesRound l.s2 l.s3
    s4 := aesRound l.s3 l.s4
    s5 := aesRound l.s4 l.s5 }

/-- The engine's update with a rate-sized block: Engine-128 injects its halves (R185), Engine-256 the
block in the low half. -/
def update (e : Engine) (m : Wide) (l : Lanes) : Lanes :=
  match e with
  | .e128 => update128 (half0 m) (half1 m) l
  | .e256 => update256 (half0 m) l

/-- `n` applications of `f`. -/
def repeatLanes (f : Lanes → Lanes) : Nat → Lanes → Lanes
  | 0, l => l
  | n + 1, l => repeatLanes f n (f l)

/-- The lanes Init128 seeds (R186). -/
def seed128 (k n : Block) : Lanes :=
  { s0 := k ^^^ n
    s1 := c1
    s2 := c0
    s3 := c1
    s4 := k ^^^ n
    s5 := k ^^^ c0
    s6 := k ^^^ c1
    s7 := k ^^^ c0 }

/-- Init128(K, N): the seed, then 10 steps with m0 = nonce, m1 = key (R186). -/
def init128 (k n : Block) : Lanes := repeatLanes (update128 n k) 10 (seed128 k n)

/-- The lanes Init256 seeds; S[6] and S[7] stay as they are, which is zero (R187). -/
def seed256 (key nonce : Wide) (l : Lanes) : Lanes :=
  { l with
    s0 := half0 key ^^^ half0 nonce
    s1 := half1 key ^^^ half1 nonce
    s2 := c1
    s3 := c0
    s4 := half0 key ^^^ c0
    s5 := half1 key ^^^ c1 }

/-- One of the four repetitions of Init256 (R187). -/
def initRound256 (key nonce : Wide) (l : Lanes) : Lanes :=
  update256 (half1 key ^^^ half1 nonce)
    (update256 (half0 key ^^^ half0 nonce)
      (update256 (half1 key)
        (update256 (half0 key) l)))

/-- Init256(K, N) (R187). -/
def init256 (key nonce : Wide) (l : Lanes) : Lanes :=
  repeatLanes (initRound256 key nonce) 4 (seed256 key nonce l)

/-- Init(Q.key, Q.nonce) of the engine: Engine-128 takes bytes 0..15 of both (R186), Engine-256 all
(R187). -/
def initLanes (e : Engine) (key nonce : Wide) (l : Lanes) : Lanes :=
  match e with
  | .e128 => init128 (half0 key) (half0 nonce)
  | .e256 => init256 key nonce l

end Sys2Proof.Machine
end

