-- ==== Sys2Proof/Machine/Finalize.lean ====
section
/-! DEFINITION. Finalization, tag derivation and the constant-time comparison
(45_finalize_verify.md R290–R296). -/

namespace Sys2Proof.Machine

/-- The length block: `LE64(adlen · 8) ∥ LE64(msglen · 8)` (R290). -/
def lengthBlock (adLen msgLen : Nat) : Block :=
  BitVec.ofNat 64 (msgLen * 8) ++ BitVec.ofNat 64 (adLen * 8)

/-- Finalize128: t from lane 2 once, seven steps with m0 = m1 = t (R291). -/
def stir128 (len : Block) (l : Lanes) : Lanes :=
  let t := l.s2 ^^^ len
  repeatLanes (update128 t t) 7 l

/-- Finalize256: t from lane 3 once, seven steps (R292). -/
def stir256 (len : Block) (l : Lanes) : Lanes :=
  let t := l.s3 ^^^ len
  repeatLanes (update256 t) 7 l

/-- The engine's seven finalization steps. -/
def stir (e : Engine) (len : Block) (l : Lanes) : Lanes :=
  match e with
  | .e128 => stir128 len l
  | .e256 => stir256 len l

/-- The 16-byte tag (R293). -/
def tag16 (e : Engine) (l : Lanes) : Block :=
  match e with
  | .e128 => l.s0 ^^^ l.s1 ^^^ l.s2 ^^^ l.s3 ^^^ l.s4 ^^^ l.s5 ^^^ l.s6
  | .e256 => l.s0 ^^^ l.s1 ^^^ l.s2 ^^^ l.s3 ^^^ l.s4 ^^^ l.s5

/-- The 32-byte tag (R293). -/
def tag32 (e : Engine) (l : Lanes) : Wide :=
  match e with
  | .e128 => join (l.s0 ^^^ l.s1 ^^^ l.s2 ^^^ l.s3) (l.s4 ^^^ l.s5 ^^^ l.s6 ^^^ l.s7)
  | .e256 => join (l.s0 ^^^ l.s1 ^^^ l.s2) (l.s3 ^^^ l.s4 ^^^ l.s5)

/-- T for the tag size τ: for τ = 16, T[16..31] is zero (R293).  The contract check leaves only 16 and
32. -/
def tagOf (e : Engine) (tau : Nat) (l : Lanes) : Wide :=
  if tau = 16 then join (tag16 e l) 0 else tag32 e l

/-- Finalize(adlen, msglen, τ) on the hidden state: stir, then T (R294). -/
def finalize (e : Engine) (d : Direction) (h : Hidden) : Hidden :=
  let l := stir e (lengthBlock h.q.adLen.toNat (h.q.msgLen d)) h.lanes
  { h with lanes := l, t := tagOf e h.q.tau.toNat l }

/-- The accumulated difference `d | (a[j] ⊕ b[j])` over the first `n` bytes (R296). -/
def ctDiff (a b : Wide) (n : Nat) : Byte :=
  (List.range n).foldl (fun d j => d ||| (byteAt a j ^^^ byteAt b j)) 0

/-- CTEqual on the first `tau` bytes (R296). -/
def ctEqual (tau : Nat) (a b : Wide) : Bool := ctDiff a b tau = 0

end Sys2Proof.Machine
end

