-- ==== Sys2Proof/Machine/Stream.lean ====
section
/-! DEFINITION. Keystream and the block operations of absorption, encryption and decryption
(42_absorb.md R211–R214, 43_encrypt.md R231–R233, 44_decrypt.md R262, R263), on the hidden state.

A rate-sized block is held in a 32-byte word; Engine-256 uses its low half.  A partial block read into a
cleared word is already ZeroPad of its bytes. -/

namespace Sys2Proof.Machine

/-- Keystream128 (43_encrypt.md R231). -/
def keystream128 (l : Lanes) : Wide :=
  join (l.s6 ^^^ l.s1 ^^^ (l.s2 &&& l.s3)) (l.s2 ^^^ l.s5 ^^^ (l.s6 &&& l.s7))

/-- Keystream256 (43_encrypt.md R231). -/
def keystream256 (l : Lanes) : Block := l.s1 ^^^ l.s4 ^^^ l.s5 ^^^ (l.s2 &&& l.s3)

/-- The engine's keystream word. -/
def keystream (e : Engine) (l : Lanes) : Wide :=
  match e with
  | .e128 => keystream128 l
  | .e256 => join (keystream256 l) 0

/-- One update step of the hidden lanes. -/
def Hidden.update (e : Engine) (m : Wide) (h : Hidden) : Hidden :=
  { h with lanes := Machine.update e m h.lanes }

/-- Absorb(a) for the chunk in the working block (42_absorb.md R211, R212). -/
def absorbFull (e : Engine) (h : Hidden) : Hidden := h.update e h.buf

/-- The trailing partial chunk: padded in P, absorbed, P wiped (42_absorb.md R213, R214). -/
def absorbPartial (e : Engine) (h : Hidden) : Hidden :=
  let h1 := { h with p := h.buf }
  { h1.update e h1.p with p := 0 }

/-- EncBlock: keystream, then update with the plaintext `x`; answers the ciphertext block
(43_encrypt.md R232). -/
def encBlock (e : Engine) (x : Wide) (h : Hidden) : Wide × Hidden :=
  let h1 := { h with z := keystream e h.lanes }
  (x ^^^ h1.z, h1.update e x)

/-- The full block in the working block encrypted, the ciphertext left there (43_encrypt.md R232). -/
def encFull (e : Engine) (h : Hidden) : Hidden :=
  let r := encBlock e h.buf h
  { r.2 with buf := r.1 }

/-- EncPartial on the `r` bytes in the working block (43_encrypt.md R233). -/
def encPartial (e : Engine) (r : Nat) (h : Hidden) : Hidden :=
  let h1 := { h with p := h.buf }
  let b := encBlock e h1.p h1
  { b.2 with p := 0, buf := truncBytes b.1 r }

/-- DecBlock: keystream, then update with the recovered plaintext; answers the plaintext block
(44_decrypt.md R262). -/
def decBlock (e : Engine) (c : Wide) (h : Hidden) : Wide × Hidden :=
  let h1 := { h with z := keystream e h.lanes }
  let x := c ^^^ h1.z
  (x, h1.update e x)

/-- The full block in the working block decrypted, the plaintext left there (44_decrypt.md R262). -/
def decFull (e : Engine) (h : Hidden) : Hidden :=
  let r := decBlock e h.buf h
  { r.2 with buf := r.1 }

/-- DecPartial on the `r` bytes in the working block: only the recovered bytes, zero-extended, are fed
to the update (44_decrypt.md R263). -/
def decPartial (e : Engine) (r : Nat) (h : Hidden) : Hidden :=
  let h1 := { h with z := keystream e h.lanes }
  let h2 := { h1 with p := h1.buf ^^^ h1.z }
  let x := truncBytes h2.p r
  let h3 := { h2 with p := x }
  { h3.update e h3.p with p := 0, buf := x }

end Sys2Proof.Machine
end

