-- ==== Sys2Proof/Machine/Sequencer.lean ====
section
/-! DEFINITION. The run of ENCRYPT and DECRYPT, one step per byte access and one to complete
(20_memory.md R101, R102, 46_commands.md R322): the computation due before the next access (`settle`),
the access itself (`nextAccess`), and what its completion records (`afterRead`, `afterWrite`). -/

namespace Sys2Proof.Machine

/-- The hidden state with the sequencer at `p`. -/
def Hidden.atPhase (p : Phase) (h : Hidden) : Hidden := { h with phase := p }

/-- After the last message step: T is computed, the tag phase comes next (43_encrypt.md R240,
44_decrypt.md R270). -/
def enterTag (e : Engine) (d : Direction) (h : Hidden) : Hidden := (finalize e d h).atPhase (.tag 0)

/-- The message phase from byte `i`, or what follows it. -/
def enterMsg (e : Engine) (d : Direction) (i : Nat) (h : Hidden) : Hidden :=
  if i < h.q.msgLen d then h.atPhase (.msgRead i) else enterTag e d h

/-- The AD phase from byte `i`, or what follows it. -/
def enterAd (e : Engine) (d : Direction) (i : Nat) (h : Hidden) : Hidden :=
  if i < h.q.adLen.toNat then h.atPhase (.adRead i) else enterMsg e d 0 h

/-- Init(Q.key, Q.nonce) (43_encrypt.md R240). -/
def initialize128or256 (e : Engine) (h : Hidden) : Hidden :=
  { h with lanes := initLanes e h.q.key h.q.nonce h.lanes }

/-- The chunk that ends before AD byte `n` absorbed, full or partial, and the working block cleared
(42_absorb.md R213). -/
def absorbChunk (e : Engine) (n : Nat) (h : Hidden) : Hidden :=
  let h1 := if n % e.rate = 0 then absorbFull e h else absorbPartial e h
  { h1 with buf := 0 }

/-- The block that ends before message byte `n` encrypted or decrypted, full or partial
(43_encrypt.md R240, 44_decrypt.md R270). -/
def cryptBlock (e : Engine) (d : Direction) (n : Nat) (h : Hidden) : Hidden :=
  match d with
  | .encrypt => if n % e.rate = 0 then encFull e h else encPartial e (n % e.rate) h
  | .decrypt => if n % e.rate = 0 then decFull e h else decPartial e (n % e.rate) h

/-- The first byte of the block that ends before byte `n > 0`. -/
def blockStart (e : Engine) (n : Nat) : Nat := (n - 1) / e.rate * e.rate

/-- The tag comparison and what follows it (44_decrypt.md R270, 45_finalize_verify.md R297, R298): on a
mismatch T becomes zero and the wipe phase comes, which is empty for an empty message. -/
def verifyTag (d : Direction) (h : Hidden) : Hidden :=
  if ctEqual h.q.tau.toNat h.t h.e then h.atPhase (.finish .noError)
  else if 0 < h.q.msgLen d then { h with t := 0, phase := .wipe 0 }
  else { h with t := 0, phase := .finish .auth }

/-- The computation due before the next access (46_commands.md R322). -/
def settle (e : Engine) (d : Direction) (h : Hidden) : Hidden :=
  match h.phase with
  | .idle => h
  | .start => enterAd e d 0 (initialize128or256 e h)
  | .adRead _ => h
  | .adChunk n => enterAd e d n (absorbChunk e n h)
  | .msgRead _ => h
  | .msgBlock n => (cryptBlock e d n h).atPhase (.msgWrite (blockStart e n))
  | .msgWrite _ => h
  | .msgNext n => enterMsg e d n { h with buf := 0 }
  | .tag _ => h
  | .verify => verifyTag d h
  | .wipe _ => h
  | .finish _ => h

/-- What the core does next once the computation is settled. -/
inductive Access where
  /-- A DMA read of byte `a`. -/
  | read (a : Nat)
  /-- A DMA write of `v` to byte `a`. -/
  | write (a : Nat) (v : Byte)
  /-- The completion, with this outcome. -/
  | finish (e : ErrCode)
  /-- No command is running. -/
  | nothing
  deriving DecidableEq, Repr

/-- The next access of the access sequence, for settled hidden state (20_memory.md R102). -/
def nextAccess (e : Engine) (d : Direction) (h : Hidden) : Access :=
  match h.phase with
  | .adRead i => .read (h.q.ad.toNat + i)
  | .msgRead i => .read (h.q.src.toNat + i)
  | .msgWrite i => .write (h.q.dst.toNat + i) (byteAt h.buf (i % e.rate))
  | .tag j =>
    match d with
    | .encrypt => .write (h.q.dst.toNat + h.q.msgLen d + j) (byteAt h.t j)
    | .decrypt => .read (h.q.src.toNat + h.q.msgLen d + j)
  | .wipe i => .write (h.q.dst.toNat + i) 0
  | .finish c => .finish c
  | .idle => .nothing
  | .start => .nothing
  | .adChunk _ => .nothing
  | .msgBlock _ => .nothing
  | .msgNext _ => .nothing
  | .verify => .nothing

/-- Byte `i` is the last of its rate-sized block or of the `len` bytes. -/
def endsBlock (e : Engine) (i len : Nat) : Bool := (i + 1) % e.rate = 0 ∨ i + 1 = len

/-- What a completed read leaves: the byte in the working block, or in E for a tag byte
(44_decrypt.md R270), and the sequencer one byte on. -/
def afterRead (e : Engine) (d : Direction) (b : Byte) (h : Hidden) : Hidden :=
  match h.phase with
  | .adRead i =>
    { h with
      buf := setByte h.buf (i % e.rate) b
      phase := if endsBlock e i h.q.adLen.toNat then .adChunk (i + 1) else .adRead (i + 1) }
  | .msgRead i =>
    { h with
      buf := setByte h.buf (i % e.rate) b
      phase := if endsBlock e i (h.q.msgLen d) then .msgBlock (i + 1) else .msgRead (i + 1) }
  | .tag j =>
    { h with
      e := setByte h.e j b
      phase := if j + 1 = h.q.tau.toNat then .verify else .tag (j + 1) }
  | .idle => h
  | .start => h
  | .adChunk _ => h
  | .msgBlock _ => h
  | .msgWrite _ => h
  | .msgNext _ => h
  | .verify => h
  | .wipe _ => h
  | .finish _ => h

/-- What a completed write leaves: the sequencer one byte on. -/
def afterWrite (e : Engine) (d : Direction) (h : Hidden) : Hidden :=
  match h.phase with
  | .msgWrite i => h.atPhase (if endsBlock e i (h.q.msgLen d) then .msgNext (i + 1) else .msgWrite (i + 1))
  | .tag j => h.atPhase (if j + 1 = h.q.tau.toNat then .finish .noError else .tag (j + 1))
  | .wipe i => h.atPhase (if i + 1 = h.q.msgLen d then .finish .auth else .wipe (i + 1))
  | .idle => h
  | .start => h
  | .adRead _ => h
  | .adChunk _ => h
  | .msgRead _ => h
  | .msgBlock _ => h
  | .msgNext _ => h
  | .verify => h
  | .finish _ => h

/-- The state with its hidden part changed by `f`. -/
def State.onHidden (f : Hidden → Hidden) (s : State) : State := { s with hid := f s.hid }

/-- One step of the run of ENCRYPT or DECRYPT (46_commands.md R322). -/
def streamStep (e : Engine) (d : Direction) (s : State) : Result :=
  let s1 := s.onHidden (settle e d)
  match nextAccess e d s1.hid with
  | .read a => dmaRead a s1 fun b s2 => s2.onHidden (afterRead e d b)
  | .write a v => dmaWrite a v s1 fun s2 => s2.onHidden (afterWrite e d)
  | .finish c => .next (complete c .noParam 0 s1)
  | .nothing => .fault .noCommand

/-- The next step of an ENCRYPT or DECRYPT command: its acceptance, with the contract check, while the
core is idle (46_commands.md R321), and a step of its run while it is BUSY (R322). -/
def streamCommand (e : Engine) (d : Direction) (tau : Nat) (s : State) : Result :=
  if s.status.busy then streamStep e d s
  else .next (accept d.op e.var (BitVec.ofNat 8 tau) (contractCheck d) s)

end Sys2Proof.Machine
end

