-- ==== Sys2Proof/Machine/Decrypt.lean ====
section
/-! DEFINITION. The DECRYPT commands (44_decrypt.md R270–R274). -/

namespace Sys2Proof.Machine

/-- DECRYPT.128 (R271): ContractCheck, then DecryptMsg with Engine-128. -/
def execDecrypt128 (tau : Nat) (s : State) : Result := streamCommand .e128 .decrypt tau s

/-- DECRYPT.256 (R272): ContractCheck, then DecryptMsg with Engine-256. -/
def execDecrypt256 (tau : Nat) (s : State) : Result := streamCommand .e256 .decrypt tau s

end Sys2Proof.Machine
end

