-- ==== Sys2Proof/Machine/Encrypt.lean ====
section
/-! DEFINITION. The ENCRYPT commands (43_encrypt.md R240–R243). -/

namespace Sys2Proof.Machine

/-- ENCRYPT.128 (R241): ContractCheck, then EncryptMsg with Engine-128. -/
def execEncrypt128 (tau : Nat) (s : State) : Result := streamCommand .e128 .encrypt tau s

/-- ENCRYPT.256 (R242): ContractCheck, then EncryptMsg with Engine-256. -/
def execEncrypt256 (tau : Nat) (s : State) : Result := streamCommand .e256 .encrypt tau s

end Sys2Proof.Machine
end

