-- ==== Sys2Proof/Machine/Dispatch.lean ====
section
/-! DEFINITION. One arm per command.  `exec i s` is the next step of command `i`: its acceptance while the
core is idle (46_commands.md R321), the next step of its run while it is BUSY (R322). -/

namespace Sys2Proof.Machine

def exec (i : Instr) (s : State) : Host.Outcome State Fault Refusal :=
  match i with
  | .encrypt128 tau => Sys2Proof.Machine.execEncrypt128 tau s
  | .encrypt256 tau => Sys2Proof.Machine.execEncrypt256 tau s
  | .decrypt128 tau => Sys2Proof.Machine.execDecrypt128 tau s
  | .decrypt256 tau => Sys2Proof.Machine.execDecrypt256 tau s
  | .aesround => Sys2Proof.Machine.execAesround s
  | .zeroize => Sys2Proof.Machine.execZeroize s

end Sys2Proof.Machine
end

