-- ==== Sys2Proof/Machine/Agents.lean ====
section
/-! DEFINITION. What each event does: the core's turn, the host's register and memory accesses, and
reset (00_scope.md R9, 20_memory.md R90, R91, R103, R105, 46_commands.md R320, R324,
70_reset_and_hazards.md R400, R401). -/

namespace Sys2Proof.Machine

/-- The core's turn: the next step of the running command, which the snapshot names; an idle core does
nothing. -/
def coreTurn (s : State) : Result :=
  if s.status.busy then
    match decode s.hid.q.word with
    | .command i => exec i s
    | .illegal _ => .fault .noCommand
  else .next s

/-- A host write of `w` to CMD: dropped while BUSY (46_commands.md R324), otherwise the acceptance of
`w` (R320). -/
def commandWrite (w : Word) (s : State) : Result :=
  if s.status.busy then .next (dropCommand s)
  else
    match decode w with
    | .command i => exec i s
    | .illegal _ => .next (acceptIllegal w s)

/-- A host read through the register port; the data goes to the host (20_memory.md R90, R91). -/
def portRead (off bits : Nat) (s : State) : Result :=
  if portAccepts off bits then .next { s with hostData := readReg (regAt off) s }
  else .fault (.registerPort off bits)

/-- A host write through the register port (20_memory.md R90, R91).  While reset is asserted every register
holds its reset value, so no write has an effect (70_reset_and_hazards.md R400, log 5). -/
def portWrite (off bits : Nat) (v : Word) (s : State) : Result :=
  if portAccepts off bits then
    if s.resetHeld then .next s
    else if regAt off = .cmd then commandWrite v s else .next (writeReg (regAt off) v s)
  else .fault (.registerPort off bits)

/-- One round of `poll NAME, m, v` (30_encoding.md R132): a read; while it does not match, the core takes
a step and the host reads again. -/
def pollReg (off : Nat) (mask value : Word) (s : State) : Result :=
  if portAccepts off 32 then
    let w := readReg (regAt off) s
    if w &&& mask = value then .next { s with hostData := w }
    else .next { s with hostData := w, inputs := .core :: .poll off mask value :: s.inputs }
  else .fault (.registerPort off 32)

/-- A host read of a byte of system memory.  Reading the output range of a running command breaches the
host duty (20_memory.md R103); a byte written and not yet visible reads as any value. -/
def hostMemRead (a : Nat) (s : State) : Result :=
  if Config.addrSpace ≤ a then .fault (.outsideAddressSpace a)
  else if readBreach s a then .fault (.hostDuty a)
  else if s.platform.isDevice a then .refused (.deviceMemory a)
  else if isPosted s.posted a then
    .next { s with
      hostData := (Config.freeByte s.freeCount).setWidth 32, freeCount := s.freeCount + 1 }
  else .next { s with hostData := (Memory.read s.mem a).setWidth 32 }

/-- A host write of a byte of system memory, visible at once; older posted writes of that byte are
overtaken by it. -/
def hostMemWrite (a : Nat) (v : Byte) (s : State) : Result :=
  if Config.addrSpace ≤ a then .fault (.outsideAddressSpace a)
  else if writeBreach s a then .fault (.hostDuty a)
  else if s.platform.isDevice a then .refused (.deviceMemory a)
  else .next { s with mem := Memory.write s.mem a v, posted := s.posted.filter fun c => c.addr ≠ a }

/-- A host write of a byte that is not visible yet (20_memory.md R105).  Issued while BUSY into the running
command's buffers it breaches the host duty like any other write (R103, log 7). -/
def hostMemPost (a : Nat) (v : Byte) (s : State) : Result :=
  if Config.addrSpace ≤ a then .fault (.outsideAddressSpace a)
  else if writeBreach s a then .fault (.hostDuty a)
  else if s.platform.isDevice a then .refused (.deviceMemory a)
  else .next { s with posted := s.posted ++ [⟨a, some v⟩] }

/-- The posted bytes become visible, oldest first.  A byte of the running command's AD or input range is one
the core reads any value from, whatever lands there (20_memory.md R105, 70_reset_and_hazards.md R416), so it
is remembered in `late`.
DESIGN CHOICE (log 6): a byte of the running command's output range stays to come until the run is over, and
its value becomes open, since the spec does not say which survives, the host's byte or the command's. -/
def hostMemVisible (s : State) : Result :=
  let landing := s.posted.filter fun c => !readBreach s c.addr
  let staying := s.posted.filter fun c => readBreach s c.addr
  .next { s with
    mem := Memory.land landing s.freeCount s.mem
    posted := openPosted (fun _ => true) staying
    hid := { s.hid with late := s.hid.late ++ (landing.map Posted.addr).filter s.inSource }
    freeCount := s.freeCount + landing.length }

/-- What a reset does outside the core: if it cuts an ENCRYPT or DECRYPT short, every byte of that command's
output range takes a free value; nothing else changes (70_reset_and_hazards.md R401, R403, log 5). -/
def cutShort (s : State) : State := if s.status.busy && s.hid.q.hasBuffers then freeOutput s else s

/-- Reset is asserted (70_reset_and_hazards.md R400, R401): every piece of the core's state takes its reset
value, and keeps it until reset is released. -/
def assertReset (s : State) : State :=
  { State.resetOn s.platform with
    mem := (cutShort s).mem
    posted := (cutShort s).posted
    inputs := s.inputs
    hostData := s.hostData
    freeCount := (cutShort s).freeCount
    resetHeld := true }

/-- Reset is released (70_reset_and_hazards.md R400, R402): the core is idle and ready. -/
def releaseReset (s : State) : State := { s with resetHeld := false }

/-- What an event does. -/
def perform (ev : Event) (s : State) : Result :=
  match ev with
  | .core => coreTurn s
  | .regRead off bits => portRead off bits s
  | .regWrite off bits v => portWrite off bits v s
  | .poll off mask value => pollReg off mask value s
  | .memRead a => hostMemRead a s
  | .memWrite a v => hostMemWrite a v s
  | .memPost a v => hostMemPost a v s
  | .memVisible => hostMemVisible s
  | .resetAssert => .next (assertReset s)
  | .resetRelease => .next (releaseReset s)

/-- The state once its first input has been taken. -/
def State.withInputs (evs : List Event) (s : State) : State := { s with inputs := evs }

/-- One step: the first input, or the core's turn when none waits. -/
def nextStep (s : State) : Result :=
  match s.inputs with
  | [] => coreTurn s
  | ev :: rest => perform ev (s.withInputs rest)

/-- The host about to write the command word `w` to CMD, with the core idle and reset released. -/
def aboutToWriteCmd (w : Word) (s : State) : State :=
  { s with
    status := { s.status with busy := false }
    hid := .zero
    inputs := .regWrite 0x018 32 w :: s.inputs
    resetHeld := false }

end Sys2Proof.Machine
end

