-- ==== Sys2Proof/Machine/Step.lean ====
section
/-! DEFINITION. One step of the machine, and how the host places a command word. -/

namespace Sys2Proof.Machine

/-- One step: one register access, one memory access of the host, one reset, or one step of the core
(46_commands.md R322, 60_exceptions.md R368). -/
def step (s : State) : Host.Outcome State Fault Refusal := nextStep s

/-- `s` with the host about to write the table word `w` of `nbits` bits to CMD: the core "fetches" a
command only as a host write to CMD (10_state.md R44, 20_memory.md R110). -/
def State.withFetchWord (s : State) (nbits w : Nat) : State :=
  aboutToWriteCmd (BitVec.ofNat 32 (w % 2 ^ nbits)) s

end Sys2Proof.Machine
end

