-- ==== Sys2Proof/Machine/HostProgram.lean ====
section
/-! DEFINITION. Host programs: host operations and pseudo-instructions with their expansions
(30_encoding.md R131–R133), as abstract syntax (log 17). -/

namespace Sys2Proof.Machine

/-- The offset of a register in the window (10_state.md R30); a reserved offset stands for all. -/
def regOffset : Reg → Nat
  | .id => 0x000
  | .version => 0x004
  | .caps => 0x008
  | .ctrl => 0x00C
  | .status => 0x010
  | .intStatus => 0x014
  | .cmd => 0x018
  | .errInfo i => 0x020 + 4 * i
  | .key i => 0x040 + 4 * i
  | .nonce i => 0x060 + 4 * i
  | .srcAddr i => 0x080 + 4 * i
  | .srcLen i => 0x088 + 4 * i
  | .dstAddr i => 0x090 + 4 * i
  | .dstLen i => 0x098 + 4 * i
  | .adAddr i => 0x0A0 + 4 * i
  | .adLen i => 0x0A8 + 4 * i
  | .aesrIn i => 0x0B0 + 4 * i
  | .aesrRk i => 0x0C0 + 4 * i
  | .aesrOut i => 0x0D0 + 4 * i
  | .reserved => 0x01C

/-- The register exists: its index is inside its group (10_state.md R30). -/
def regExists : Reg → Bool
  | .id => true
  | .version => true
  | .caps => true
  | .ctrl => true
  | .status => true
  | .intStatus => true
  | .cmd => true
  | .errInfo i => decide (i < 2)
  | .key i => decide (i < 8)
  | .nonce i => decide (i < 8)
  | .srcAddr i => decide (i < 2)
  | .srcLen i => decide (i < 2)
  | .dstAddr i => decide (i < 2)
  | .dstLen i => decide (i < 2)
  | .adAddr i => decide (i < 2)
  | .adLen i => decide (i < 2)
  | .aesrIn i => decide (i < 4)
  | .aesrRk i => decide (i < 4)
  | .aesrOut i => decide (i < 4)
  | .reserved => true

/-- A line of a host program (30_encoding.md R132, R133). -/
inductive HostLine where
  | wr (r : Reg) (v : Word)
  | rd (r : Reg)
  | poll (r : Reg) (mask value : Word)
  | ldkey (bytes : List Byte)
  | ldnonce (bytes : List Byte)
  | setsrc (a l : BitVec 64)
  | setdst (a l : BitVec 64)
  | setad (a l : BitVec 64)
  | ldaes (inp rk : List Byte)
  | cmd (i : Instr)
  | wait
  | ack
  deriving DecidableEq, Repr

/-- What an assembler accepts (R131, R133): registers that exist, keys and nonces of 16 or 32 bytes, AES
blocks of 16, a command with a word. -/
def hostLineOk : HostLine → Bool
  | .wr r _ => regExists r
  | .rd r => regExists r
  | .poll r _ _ => regExists r
  | .ldkey bytes => bytes.length = 16 ∨ bytes.length = 32
  | .ldnonce bytes => bytes.length = 16 ∨ bytes.length = 32
  | .setsrc _ _ => true
  | .setdst _ _ => true
  | .setad _ _ => true
  | .ldaes inp rk => inp.length = 16 ∧ rk.length = 16
  | .cmd i => i.WellFormed
  | .wait => true
  | .ack => true

/-- `wr NAME, v` is one register-port write. -/
def writeEvent (r : Reg) (v : Word) : Event := .regWrite (regOffset r) 32 v

/-- The writes of a byte string to a register group, one word each 4 bytes (20_memory.md R92, R133). -/
def groupWrites (reg : Nat → Reg) (bytes : List Byte) : List Event :=
  (List.range (bytes.length / 4)).map fun i => writeEvent (reg i) (wordAt (ofBytes 256 bytes) i)

/-- The four writes that set an address and a length, LO before HI (R133). -/
def pairWrites (addr len : Nat → Reg) (a l : BitVec 64) : List Event :=
  [writeEvent (addr 0) (wordAt a 0), writeEvent (addr 1) (wordAt a 1),
   writeEvent (len 0) (wordAt l 0), writeEvent (len 1) (wordAt l 1)]

/-- The exact expansion of a line (R132, R133). -/
def expandLine : HostLine → List Event
  | .wr r v => [writeEvent r v]
  | .rd r => [.regRead (regOffset r) 32]
  | .poll r mask value => [.poll (regOffset r) mask value]
  | .ldkey bytes => groupWrites .key bytes
  | .ldnonce bytes => groupWrites .nonce bytes
  | .setsrc a l => pairWrites .srcAddr .srcLen a l
  | .setdst a l => pairWrites .dstAddr .dstLen a l
  | .setad a l => pairWrites .adAddr .adLen a l
  | .ldaes inp rk => groupWrites .aesrIn inp ++ groupWrites .aesrRk rk
  | .cmd i => [writeEvent .cmd (encode i)]
  | .wait => [.poll (regOffset .status) 0x1 0x0]
  | .ack => [writeEvent .intStatus 0x3]

/-- The state with a host program waiting. -/
def State.withProgram (lines : List HostLine) (s : State) : State :=
  { s with inputs := lines.flatMap expandLine }

/-- The start state's `mem A: <bytes>` (R132). -/
def State.withBytes (a : Nat) (bytes : List Byte) (s : State) : State :=
  { s with mem := Memory.writeBytes a bytes s.mem }

end Sys2Proof.Machine
end

