-- ==== Sys2Proof/Machine/Reference.lean ====
section
/-! DEFINITION. The algorithm the commands compute, as functions on whole byte strings and lanes
(42_absorb.md R213, 43_encrypt.md R240, 44_decrypt.md R270): no sequencer, no memory, no registers.  The
step-by-step run is to be held against these. -/

namespace Sys2Proof.Machine

/-- The number of rate-sized blocks, the last possibly partial, of `len` bytes. -/
def blockCount (e : Engine) (len : Nat) : Nat := (len + e.rate - 1) / e.rate

/-- The bytes of block `i` of a byte string. -/
def blockBytes (e : Engine) (bytes : List Byte) (i : Nat) : List Byte :=
  (bytes.drop (i * e.rate)).take e.rate

/-- The bytes zero-padded to a rate-sized block (00_scope.md R12). -/
def padBlock (bytes : List Byte) : Wide := ofBytes 256 bytes

/-- AbsorbAD on a whole byte string (42_absorb.md R213). -/
def absorbBytes (e : Engine) (ad : List Byte) (l : Lanes) : Lanes :=
  (List.range (blockCount e ad.length)).foldl (fun l i => update e (padBlock (blockBytes e ad i)) l) l

/-- One block of plaintext bytes, full or partial: the ciphertext bytes and the lanes after it
(43_encrypt.md R232, R233). -/
def encryptBlock (e : Engine) (x : List Byte) (l : Lanes) : List Byte × Lanes :=
  (toBytes x.length (padBlock x ^^^ keystream e l), update e (padBlock x) l)

/-- One block of ciphertext bytes, full or partial: the plaintext bytes and the lanes after it
(44_decrypt.md R262, R263). -/
def decryptBlock (e : Engine) (c : List Byte) (l : Lanes) : List Byte × Lanes :=
  let x := toBytes c.length (padBlock c ^^^ keystream e l)
  (x, update e (padBlock x) l)

/-- A block operation over the blocks of a byte string, in order. -/
def overBlocks (e : Engine) (f : List Byte → Lanes → List Byte × Lanes) (bytes : List Byte) (l : Lanes) :
    List Byte × Lanes :=
  (List.range (blockCount e bytes.length)).foldl
    (fun acc i => (acc.1 ++ (f (blockBytes e bytes i) acc.2).1, (f (blockBytes e bytes i) acc.2).2)) ([], l)

/-- The lanes after initialization and the associated data. -/
def lanesAfterAd (e : Engine) (key nonce : Wide) (ad : List Byte) : Lanes :=
  absorbBytes e ad (initLanes e key nonce .zero)

/-- The tag of the lanes after the last message block (45_finalize_verify.md R294). -/
def tagBytes (e : Engine) (adLen msgLen tau : Nat) (l : Lanes) : List Byte :=
  toBytes tau (tagOf e tau (stir e (lengthBlock adLen msgLen) l))

/-- encrypt: the ciphertext followed by the tag (43_encrypt.md R240, R243). -/
def encryptBytes (e : Engine) (key nonce : Wide) (tau : Nat) (ad msg : List Byte) : List Byte :=
  let r := overBlocks e (encryptBlock e) msg (lanesAfterAd e key nonce ad)
  r.1 ++ tagBytes e ad.length msg.length tau r.2

/-- decrypt: the plaintext, and whether the tag, the last `tau` input bytes, verifies
(44_decrypt.md R270). -/
def decryptBytes (e : Engine) (key nonce : Wide) (tau : Nat) (ad input : List Byte) : List Byte × Bool :=
  let msgLen := input.length - tau
  let r := overBlocks e (decryptBlock e) (input.take msgLen) (lanesAfterAd e key nonce ad)
  (r.1, decide (tagBytes e ad.length msgLen tau r.2 = input.drop msgLen))

end Sys2Proof.Machine
end

