-- ==== Sys2Proof/Safety.lean ====
section
/-! DEFINITION. The terms claims use: runs of a command, which buffers the platform serves, and the
invariant of the machine. -/

namespace Sys2Proof.Machine

/-- The ENCRYPT or DECRYPT command of an engine. -/
def streamInstr (e : Engine) (d : Direction) (tau : Nat) : Instr :=
  match d, e with
  | .encrypt, .e128 => .encrypt128 tau
  | .encrypt, .e256 => .encrypt256 tau
  | .decrypt, .e128 => .decrypt128 tau
  | .decrypt, .e256 => .decrypt256 tau

/-- The next `n` steps of command `i`, nothing in between. -/
def execRun (i : Instr) : Nat → State → Result
  | 0, s => .next s
  | n + 1, s =>
    match exec i s with
    | .next t => execRun i n t
    | .fault f => .fault f
    | .refused r => .refused r

/-- The platform serves every DMA access a command with snapshot `q` can make, and every byte it can read was
visible before its CMD write (20_memory.md R96, R105). -/
structure Served (q : Snapshot) (s : State) : Prop where
  reads : ∀ a, q.inAd a = true ∨ q.inInput a = true →
    s.platform.memOK a .read = true ∧ s.platform.isDevice a = false ∧ s.unseen a = false
  writes : ∀ a, q.inOutput a = true →
    s.platform.memOK a .write = true ∧ s.platform.isDevice a = false

/-- What an access shows to the bus: kind and address, never the data (20_memory.md R101). -/
inductive AccessShape where
  | read (a : Nat)
  | write (a : Nat)
  | finish (e : ErrCode)
  | nothing
  deriving DecidableEq, Repr

/-- The shape of an access. -/
def Access.shape : Access → AccessShape
  | .read a => .read a
  | .write a _ => .write a
  | .finish e => .finish e
  | .nothing => .nothing

/-- The public part of a snapshot: no key, nonce or AES input (20_memory.md R101). -/
def Snapshot.public (q : Snapshot) : Snapshot := { q with key := 0, nonce := 0, inp := 0, rk := 0 }

/-- The DMA access the core makes next when it runs this command (20_memory.md R101, 46_commands.md R322):
the computation due is settled first. -/
def upcoming (e : Engine) (d : Direction) (s : State) : Access := nextAccess e d (settle e d s.hid)

/-- What the bus sees of the next `n` steps of the run. -/
def accessTrace (e : Engine) (d : Direction) : Nat → State → List AccessShape
  | 0, _ => []
  | n + 1, s =>
    (upcoming e d s).shape ::
      match streamStep e d s with
      | .next t => accessTrace e d n t
      | .fault _ => []
      | .refused _ => []

/-- Phase (1) of an access sequence (20_memory.md R102). -/
def adPhase (q : Snapshot) : List AccessShape :=
  (List.range q.adLen.toNat).map fun i => .read (q.ad.toNat + i)

/-- Phase (2): for each block its reads, then its writes; the last block may be partial. -/
def messagePhase (e : Engine) (d : Direction) (q : Snapshot) : List AccessShape :=
  (List.range (blockCount e (q.msgLen d))).flatMap fun b =>
    let r := min e.rate (q.msgLen d - b * e.rate)
    ((List.range r).map fun i => .read (q.src.toNat + b * e.rate + i)) ++
      (List.range r).map fun i => .write (q.dst.toNat + b * e.rate + i)

/-- Phase (3): ENCRYPT writes the tag behind the ciphertext, DECRYPT reads it behind the message. -/
def tagPhase (d : Direction) (q : Snapshot) : List AccessShape :=
  (List.range q.tau.toNat).map fun j =>
    match d with
    | .encrypt => .write (q.dst.toNat + q.msgLen d + j)
    | .decrypt => .read (q.src.toNat + q.msgLen d + j)

/-- Phase (4), DECRYPT only, and only if the tag did not verify. -/
def wipePhase (q : Snapshot) : List AccessShape :=
  (List.range (q.msgLen .decrypt)).map fun i => .write (q.dst.toNat + i)

/-- Every piece of the core's state at the value of the reset table (10_state.md R63). -/
structure AtReset (s : State) : Prop where
  ctrl : s.ctrl = ⟨false, false⟩
  status : s.status = ⟨false, .noError, 0, false, .noParam⟩
  intStatus : s.intStatus = ⟨false, false⟩
  errInfo : s.errInfo = 0
  key : s.key = 0
  nonce : s.nonce = 0
  srcAddr : s.srcAddr = 0
  srcLen : s.srcLen = 0
  dstAddr : s.dstAddr = 0
  dstLen : s.dstLen = 0
  adAddr : s.adAddr = 0
  adLen : s.adLen = 0
  aesrIn : s.aesrIn = 0
  aesrRk : s.aesrRk = 0
  aesrOut : s.aesrOut = 0
  lanes : s.hid.lanes = ⟨0, 0, 0, 0, 0, 0, 0, 0⟩
  tag : s.hid.t = 0
  expected : s.hid.e = 0
  pad : s.hid.p = 0
  keystream : s.hid.z = 0
  snapshot : s.hid.q = ⟨0, 0, 0, 0, 0, 0, 0, 0, 0, 0, 0, 0, 0⟩
  block : s.hid.buf = 0
  sequencer : s.hid.phase = .idle
  late : s.hid.late = []
  irq : s.irq = false
  id : readReg .id s = 0x41454753#32
  version : readReg .version s = 0x00010000#32
  caps : readReg .caps s = 0x0000003F#32

/-- What a completion with this report leaves when it changes no register but STATUS, ERR_INFO and
INT_STATUS.DONE (46_commands.md R323, R345): the hidden state zero, BUSY down, everything else as it was. -/
def reported (c : ErrCode) (op : BitVec 4) (ok : Bool) (p : ErrParam) (v : BitVec 64) (s : State) : State :=
  { s with
    status := ⟨false, c, op, ok, p⟩
    errInfo := v
    intStatus := { s.intStatus with done := true }
    hid := .zero }

/-! ## The invariant -/

/-- The sequencer stands at a place of the access sequence of its command (20_memory.md R102). -/
def phaseOk (e : Engine) (d : Direction) (h : Hidden) : Prop :=
  match h.phase with
  | .idle => False
  | .start => True
  | .adRead i => i < h.q.adLen.toNat
  | .adChunk n => 0 < n ∧ n ≤ h.q.adLen.toNat ∧ (n % e.rate = 0 ∨ n = h.q.adLen.toNat)
  | .msgRead i => i < h.q.msgLen d
  | .msgBlock n => 0 < n ∧ n ≤ h.q.msgLen d ∧ (n % e.rate = 0 ∨ n = h.q.msgLen d)
  | .msgWrite i => i < h.q.msgLen d
  | .msgNext n => 0 < n ∧ n ≤ h.q.msgLen d ∧ (n % e.rate = 0 ∨ n = h.q.msgLen d)
  | .tag j => j < h.q.tau.toNat
  | .verify => d = .decrypt
  | .wipe i => d = .decrypt ∧ i < h.q.msgLen d
  | .finish c => (c = .noError ∧ d = .encrypt) ∨ (c = .auth ∧ d = .decrypt)

/-- The first `n` bytes of the output range are zero in memory. -/
def wipedTo (s : State) (n : Nat) : Prop :=
  ∀ j, j < n → Memory.read s.mem (s.hid.q.dst.toNat + j) = 0

/-- A running ENCRYPT or DECRYPT: its snapshot passed the contract check (46_commands.md R321), the pad
buffer is wiped between steps (42_absorb.md R214), lanes 6 and 7 stay zero for Engine-256
(41_update_init.md R190), and the wipe phase has zeroed what it passed (45_finalize_verify.md R298). -/
structure StreamRun (e : Engine) (d : Direction) (s : State) : Prop where
  op : s.hid.q.op = d.op
  var : s.hid.q.var = e.var
  contract : contractCheck d s.hid.q = none
  phase : phaseOk e d s.hid
  pad : s.hid.p = 0
  lanes : e = .e256 → s.hid.lanes.s6 = 0 ∧ s.hid.lanes.s7 = 0
  wiping : ∀ i, s.hid.phase = .wipe i → wipedTo s i
  wiped : s.hid.phase = .finish .auth → wipedTo s (s.hid.q.msgLen d)

/-- A running AESROUND or ZEROIZE: accepted, its completion next (46_commands.md R322). -/
structure RegisterRun (s : State) : Prop where
  op : s.hid.q.op = opAesround ∨ s.hid.q.op = opZeroize
  var : s.hid.q.var = 0
  tau : s.hid.q.tau = 0
  phase : s.hid.phase = .start

/-- What holds in every state a run reaches. -/
structure State.Inv (s : State) : Prop where
  /-- Memory keeps its canonical form and lists only addresses that exist (20_memory.md R95). -/
  memWf : Memory.wf s.mem = true
  memBelow : ∀ c ∈ s.mem, c.1 < Config.addrSpace
  postedBelow : ∀ c ∈ s.posted, c.addr < Config.addrSpace
  /-- The idle invariant (10_state.md R61). -/
  idle : s.status.busy = false → s.hid = .zero
  /-- While BUSY, the snapshot and the sequencer name a command. -/
  run : s.status.busy = true → (∃ e d, StreamRun e d s) ∨ RegisterRun s
  /-- While BUSY the report is clear (10_state.md R38–R45, 46_commands.md R321). -/
  clear : s.status.busy = true →
    s.status.errCode = .noError ∧ s.errInfo = 0 ∧ s.intStatus.done = false ∧ s.status.authOk = false ∧
      s.status.lastOp = s.hid.q.op
  /-- ERR_PARAM names a parameter exactly for CONTRACT (10_state.md R42). -/
  param : s.status.errParam ≠ .noParam ↔ s.status.errCode = .contract
  /-- AUTH_OK only after a DECRYPT that succeeded (10_state.md R41). -/
  auth : s.status.authOk = true → s.status.errCode = .noError ∧ s.status.lastOp = opDecrypt
  /-- ERR_INFO is 0 for NONE and AUTH (60_exceptions.md R361). -/
  info : s.status.errCode = .noError ∨ s.status.errCode = .auth → s.errInfo = 0
  /-- While reset is asserted every piece of the core's state holds its reset value
  (70_reset_and_hazards.md R400). -/
  held : s.resetHeld = true → AtReset s

end Sys2Proof.Machine
end

