-- ==== Sys2Proof/Certificates/Slice0/Obligations.lean ====
section
/-! DEFINITION. The statements about the model, each a formal reading of rules of the spec or derived from
them; OBLIGATIONS.json says which. -/

open Sys2Proof Sys2Proof.Machine

/-! ## Encoding (30_encoding.md) -/

/-- The words of the table of R134, and DECRYPT.128 τ = 32 of 95_test_vectors.md L2.8, decode as they say. -/
def Obligations.SampleWordsDecodeAsTheTableSays : Prop :=
  decode 0x00001001#32 = .command (.encrypt128 16) ∧
  decode 0x00002001#32 = .command (.encrypt128 32) ∧
  decode 0x00001011#32 = .command (.encrypt256 16) ∧
  decode 0x00002002#32 = .command (.decrypt128 32) ∧
  decode 0x00002012#32 = .command (.decrypt256 32) ∧
  decode 0x00001801#32 = .command (.encrypt128 24) ∧
  decode 0x00000003#32 = .command .aesround ∧
  decode 0x00000004#32 = .command .zeroize ∧
  decode 0x00000000#32 = .illegal .reservedOp ∧
  decode 0x00001021#32 = .illegal .reservedVar ∧
  decode 0x00010001#32 = .illegal .nonzeroRsv ∧
  decode 0x00001003#32 = .illegal .nonzeroField ∧
  decode 0x00000013#32 = .illegal .nonzeroField ∧
  decode 0x00000005#32 = .illegal .reservedOp

/-- Decoding the word of a well-formed instruction gives the instruction back, with every tag size. -/
def Obligations.DecodingAnEncodedInstructionGivesItBack : Prop :=
  ∀ i : Instr, i.WellFormed = true → decode (encode i) = .command i

/-- A word that decodes to a command is that command's word, and the command is well formed: no word has
two readings and no bit is dropped. -/
def Obligations.EncodingADecodedWordGivesItBack : Prop :=
  ∀ (w : Word) (i : Instr), decode w = .command i → encode i = w ∧ i.WellFormed = true

/-- R129: a word selects a command when `w & mask = match`, with TAGLEN its bits 15:8; every other word is
ILLEGAL. -/
def Obligations.MaskAndMatchSelectTheCommand : Prop :=
  ∀ w : Word,
    (w &&& 0xFFFF00FF#32 = 0x00000001#32 ↔
      decode w = .command (.encrypt128 ((w >>> 8).extractLsb' 0 8).toNat)) ∧
    (w &&& 0xFFFF00FF#32 = 0x00000011#32 ↔
      decode w = .command (.encrypt256 ((w >>> 8).extractLsb' 0 8).toNat)) ∧
    (w &&& 0xFFFF00FF#32 = 0x00000002#32 ↔
      decode w = .command (.decrypt128 ((w >>> 8).extractLsb' 0 8).toNat)) ∧
    (w &&& 0xFFFF00FF#32 = 0x00000012#32 ↔
      decode w = .command (.decrypt256 ((w >>> 8).extractLsb' 0 8).toNat)) ∧
    (w &&& 0xFFFFFFFF#32 = 0x00000003#32 ↔ decode w = .command .aesround) ∧
    (w &&& 0xFFFFFFFF#32 = 0x00000004#32 ↔ decode w = .command .zeroize) ∧
    ((w &&& 0xFFFF00FF#32 ≠ 0x00000001#32 ∧ w &&& 0xFFFF00FF#32 ≠ 0x00000011#32 ∧
        w &&& 0xFFFF00FF#32 ≠ 0x00000002#32 ∧ w &&& 0xFFFF00FF#32 ≠ 0x00000012#32 ∧
        w ≠ 0x00000003#32 ∧ w ≠ 0x00000004#32) ↔ ∃ why, decode w = .illegal why)

/-- The register map of 10_state.md R30: the offset of every register leads back to it. -/
def Obligations.EveryRegisterStandsAtItsOffset : Prop :=
  ∀ r : Reg, regExists r = true →
    regAt (regOffset r) = r ∧ portAccepts (regOffset r) 32 = true

/-! ## Reset (10_state.md R63, 70_reset_and_hazards.md R400–R403) -/

/-- R63: after reset every piece of the core's state holds its reset value: at the reset state, on every platform
(R8: MemOK is an argument), in the step that
asserts reset, in every step while it is asserted, whatever the host does, and when it is released; system
memory is unchanged when no command was cut short. -/
def Obligations.ResetGivesEveryPieceItsResetValue : Prop :=
  AtReset State.reset ∧
  (∀ p : Platform, AtReset (State.resetOn p) ∧ (State.resetOn p).platform = p) ∧
  (∀ (s : State) (rest : List Event), s.inputs = .resetAssert :: rest →
    ∃ t, step s = .next t ∧ AtReset t ∧ t.resetHeld = true ∧ (s.status.busy = false → t.mem = s.mem) ∧
      t.inputs = rest) ∧
  (∀ s t : State, s.resetHeld = true → AtReset s → step s = .next t →
    AtReset t ∧ (s.inputs.head? ≠ some .resetRelease → t.resetHeld = true)) ∧
  ∀ (s : State) (rest : List Event), s.inputs = .resetRelease :: rest →
    step s = .next { s with inputs := rest, resetHeld := false }

/-- R401, R403: a reset that cuts a command short gives every byte of its output range a free value and
leaves every other byte, and the platform, as they were; a host write that was not visible yet stays to come,
with its value open only in that output range.  AESROUND and ZEROIZE have no output range (log 5); what
becomes of a waiting host write is log 6. -/
def Obligations.ResetDuringACommandFreesOnlyItsOutput : Prop :=
  ∀ (s : State) (rest : List Event), s.inputs = .resetAssert :: rest → Memory.wf s.mem = true →
    ∃ t, step s = .next t ∧ AtReset t ∧ t.platform = s.platform ∧
      (∀ a, ¬(s.status.busy = true ∧ s.hid.q.hasBuffers = true ∧ s.hid.q.inOutput a = true) →
        Memory.read t.mem a = Memory.read s.mem a) ∧
      (s.status.busy = true → s.hid.q.hasBuffers = true →
        (∀ j, j < s.hid.q.dstLen.toNat →
          Memory.read t.mem (s.hid.q.dst.toNat + j) = Config.freeByte (s.freeCount + j)) ∧
        t.posted = openPosted s.hid.q.inOutput s.posted) ∧
      (s.status.busy = false ∨ s.hid.q.hasBuffers = false → t.posted = s.posted)

/-! ## The register port (10_state.md, 20_memory.md R90–R93) -/

/-- R366: an access of another width, unaligned or outside the window is a fault of the host program. -/
def Obligations.BadPortAccessIsAHostFault : Prop :=
  ∀ (s : State) (off bits : Nat) (v : Word) (rest : List Event),
    bits ≠ 32 ∨ off % 4 ≠ 0 ∨ 4096 ≤ off →
    (s.inputs = .regRead off bits :: rest → step s = .fault (.registerPort off bits)) ∧
    (s.inputs = .regWrite off bits v :: rest → step s = .fault (.registerPort off bits))

/-- R91, R46, R47, R58: a read returns the register's value to the host and changes nothing else, and what it
returns depends on no byte of the key, the nonce or the hidden state.  R33–R35, R45, R48–R53, R92, R93: what
each register returns: a constant, 0, or the words of its 64-bit value or byte string. -/
def Obligations.ReadsChangeNothingAndShowNoSecret : Prop :=
  (∀ (s : State) (off : Nat) (rest : List Event), off % 4 = 0 → off < 4096 →
    s.inputs = .regRead off 32 :: rest →
    step s = .next { s with inputs := rest, hostData := readReg (regAt off) s }) ∧
  (∀ (s : State) (off : Nat) (key nonce : Wide) (hid : Hidden), off % 4 = 0 → off < 4096 →
    readReg (regAt off) { s with key := key, nonce := nonce, hid := hid } = readReg (regAt off) s) ∧
  ∀ s : State,
    readReg (regAt 0x000) s = 0x41454753#32 ∧ readReg (regAt 0x004) s = 0x00010000#32 ∧
    readReg (regAt 0x008) s = 0x0000003F#32 ∧ readReg (regAt 0x018) s = 0 ∧
    (∀ i, i < 16 → readReg (regAt (0x040 + 4 * i)) s = 0) ∧
    readReg (regAt 0x024) s ++ readReg (regAt 0x020) s = s.errInfo ∧
    readReg (regAt 0x084) s ++ readReg (regAt 0x080) s = s.srcAddr ∧
    readReg (regAt 0x08C) s ++ readReg (regAt 0x088) s = s.srcLen ∧
    readReg (regAt 0x094) s ++ readReg (regAt 0x090) s = s.dstAddr ∧
    readReg (regAt 0x09C) s ++ readReg (regAt 0x098) s = s.dstLen ∧
    readReg (regAt 0x0A4) s ++ readReg (regAt 0x0A0) s = s.adAddr ∧
    readReg (regAt 0x0AC) s ++ readReg (regAt 0x0A8) s = s.adLen ∧
    ∀ i j, i < 4 → j < 4 →
      byteAt (readReg (regAt (0x0B0 + 4 * i)) s) j = byteAt s.aesrIn (4 * i + j) ∧
      byteAt (readReg (regAt (0x0C0 + 4 * i)) s) j = byteAt s.aesrRk (4 * i + j) ∧
      byteAt (readReg (regAt (0x0D0 + 4 * i)) s) j = byteAt s.aesrOut (4 * i + j)

/-- R33, R34: ID and VERSION read their constants; writes to them, to CAPS, STATUS, ERR_INFO and AESR_OUT are
ignored (R30). -/
def Obligations.ReadOnlyRegistersIgnoreWrites : Prop :=
  ∀ (s : State) (off : Nat) (v : Word) (rest : List Event),
    (s.inputs = .regRead 0x000 32 :: rest →
      step s = .next { s with inputs := rest, hostData := 0x41454753#32 }) ∧
    (s.inputs = .regRead 0x004 32 :: rest →
      step s = .next { s with inputs := rest, hostData := 0x00010000#32 }) ∧
    (off ∈ [0x000, 0x004, 0x008, 0x010, 0x020, 0x024, 0x0D0, 0x0D4, 0x0D8, 0x0DC] →
      s.inputs = .regWrite off 32 v :: rest → step s = .next { s with inputs := rest })

/-- R54: at a reserved offset a read returns 0 and a write has no effect. -/
def Obligations.ReservedOffsetsReadZeroAndIgnoreWrites : Prop :=
  ∀ (s : State) (off : Nat) (v : Word) (rest : List Event), off % 4 = 0 →
    off = 0x01C ∨ (0x028 ≤ off ∧ off ≤ 0x03C) ∨ (0x0E0 ≤ off ∧ off ≤ 0xFFC) →
    (s.inputs = .regRead off 32 :: rest → step s = .next { s with inputs := rest, hostData := 0 }) ∧
    (s.inputs = .regWrite off 32 v :: rest → step s = .next { s with inputs := rest })

/-- R36: a write to CTRL takes bits 0 and 1, the rest read 0, at once and also while BUSY, and IRQ follows
(60_exceptions.md R370); CTRL resets to 0.  R400: while reset is asserted the write has no effect (log 5). -/
def Obligations.ControlWriteSetsTheEnables : Prop :=
  readReg (regAt 0x00C) State.reset = 0 ∧
  ∀ (s : State) (v : Word) (rest : List Event), s.inputs = .regWrite 0x00C 32 v :: rest →
    (s.resetHeld = true → step s = .next { s with inputs := rest }) ∧
    (s.resetHeld = false →
      ∃ t, step s = .next t ∧ t = { s with inputs := rest, ctrl := t.ctrl } ∧
        readReg (regAt 0x00C) t = v &&& 3#32 ∧
        t.irq = ((s.intStatus.done && v.getLsbD 0) || (s.intStatus.ovr && v.getLsbD 1)))

/-- R43: INT_STATUS reads DONE at bit 0, OVR at bit 1 and 0 elsewhere; writing 1 to a bit clears it, writing 0
leaves it, and nothing else changes.  R400: while reset is asserted the write has no effect (log 5). -/
def Obligations.InterruptBitsClearOnWritingOne : Prop :=
  (∀ s : State,
    (readReg (regAt 0x014) s).extractLsb' 0 1 = BitVec.ofBool s.intStatus.done ∧
    (readReg (regAt 0x014) s).extractLsb' 1 1 = BitVec.ofBool s.intStatus.ovr ∧
    (readReg (regAt 0x014) s).extractLsb' 2 30 = 0) ∧
  ∀ (s : State) (v : Word) (rest : List Event), s.inputs = .regWrite 0x014 32 v :: rest →
    (s.resetHeld = true → step s = .next { s with inputs := rest }) ∧
    (s.resetHeld = false →
      ∃ t, step s = .next t ∧ t = { s with inputs := rest, intStatus := t.intStatus } ∧
        readReg (regAt 0x014) t = readReg (regAt 0x014) s &&& ~~~v)

/-- R37, R39, R42: the fields of STATUS stand at their bits, every other bit reads 0, and the codes of
ERR_CODE and ERR_PARAM are the numbers of the rules. -/
def Obligations.StatusWordHasItsFields : Prop :=
  ∀ s : State,
    (readReg (regAt 0x010) s).extractLsb' 0 1 = BitVec.ofBool s.status.busy ∧
    (readReg (regAt 0x010) s).extractLsb' 1 3 = 0 ∧
    (readReg (regAt 0x010) s).extractLsb' 4 4 =
      (match s.status.errCode with
        | .noError => 0#4 | .illegal => 1#4 | .contract => 2#4 | .auth => 3#4 | .bus => 4#4) ∧
    (readReg (regAt 0x010) s).extractLsb' 8 4 = s.status.lastOp ∧
    (readReg (regAt 0x010) s).extractLsb' 12 1 = BitVec.ofBool s.status.authOk ∧
    (readReg (regAt 0x010) s).extractLsb' 13 3 = 0 ∧
    (readReg (regAt 0x010) s).extractLsb' 16 4 =
      (match s.status.errParam with
        | .noParam => 0#4 | .tagSize => 1#4 | .srcLen => 2#4 | .adLen => 3#4 | .dstLen => 4#4
        | .srcRange => 5#4 | .dstRange => 6#4 | .adRange => 7#4 | .overlap => 8#4) ∧
    (readReg (regAt 0x010) s).extractLsb' 20 12 = 0

/-- R48, R49, R50, R93: NAME_LO and NAME_HI are the halves of the 64-bit value, written separately: a write of
one half leaves the other half and everything else, and a write of both sets the whole value. -/
def Obligations.AddressAndLengthPairsJoinTheirHalves : Prop :=
  (∀ (s : State) (v : Word),
    writeReg (regAt 0x080) v s = { s with srcAddr := s.srcAddr.extractLsb' 32 32 ++ v } ∧
    writeReg (regAt 0x084) v s = { s with srcAddr := v ++ s.srcAddr.extractLsb' 0 32 } ∧
    writeReg (regAt 0x088) v s = { s with srcLen := s.srcLen.extractLsb' 32 32 ++ v } ∧
    writeReg (regAt 0x08C) v s = { s with srcLen := v ++ s.srcLen.extractLsb' 0 32 } ∧
    writeReg (regAt 0x090) v s = { s with dstAddr := s.dstAddr.extractLsb' 32 32 ++ v } ∧
    writeReg (regAt 0x094) v s = { s with dstAddr := v ++ s.dstAddr.extractLsb' 0 32 } ∧
    writeReg (regAt 0x098) v s = { s with dstLen := s.dstLen.extractLsb' 32 32 ++ v } ∧
    writeReg (regAt 0x09C) v s = { s with dstLen := v ++ s.dstLen.extractLsb' 0 32 } ∧
    writeReg (regAt 0x0A0) v s = { s with adAddr := s.adAddr.extractLsb' 32 32 ++ v } ∧
    writeReg (regAt 0x0A4) v s = { s with adAddr := v ++ s.adAddr.extractLsb' 0 32 } ∧
    writeReg (regAt 0x0A8) v s = { s with adLen := s.adLen.extractLsb' 32 32 ++ v } ∧
    writeReg (regAt 0x0AC) v s = { s with adLen := v ++ s.adLen.extractLsb' 0 32 }) ∧
  ∀ (s : State) (lo hi : Word),
    writeReg (regAt 0x084) hi (writeReg (regAt 0x080) lo s) = { s with srcAddr := hi ++ lo } ∧
    writeReg (regAt 0x08C) hi (writeReg (regAt 0x088) lo s) = { s with srcLen := hi ++ lo } ∧
    writeReg (regAt 0x094) hi (writeReg (regAt 0x090) lo s) = { s with dstAddr := hi ++ lo } ∧
    writeReg (regAt 0x09C) hi (writeReg (regAt 0x098) lo s) = { s with dstLen := hi ++ lo } ∧
    writeReg (regAt 0x0A4) hi (writeReg (regAt 0x0A0) lo s) = { s with adAddr := hi ++ lo } ∧
    writeReg (regAt 0x0AC) hi (writeReg (regAt 0x0A8) lo s) = { s with adLen := hi ++ lo }

/-- R92, R46, R47, R51, R52: word `i` of KEY, NONCE, AESR_IN and AESR_RK holds bytes `4i … 4i+3`; a write of it
leaves every other byte of the group and everything else in the machine. -/
def Obligations.ByteStringRegistersPackLittleEndian : Prop :=
  ∀ (s : State) (i : Nat) (v : Word),
    (i < 8 →
      (∃ key, writeReg (regAt (0x040 + 4 * i)) v s = { s with key := key } ∧
        ∀ k, k < 32 → byteAt key k = if k / 4 = i then byteAt v (k % 4) else byteAt s.key k) ∧
      (∃ nonce, writeReg (regAt (0x060 + 4 * i)) v s = { s with nonce := nonce } ∧
        ∀ k, k < 32 → byteAt nonce k = if k / 4 = i then byteAt v (k % 4) else byteAt s.nonce k)) ∧
    (i < 4 →
      (∃ inp, writeReg (regAt (0x0B0 + 4 * i)) v s = { s with aesrIn := inp } ∧
        ∀ k, k < 16 → byteAt inp k = if k / 4 = i then byteAt v (k % 4) else byteAt s.aesrIn k) ∧
      (∃ rk, writeReg (regAt (0x0C0 + 4 * i)) v s = { s with aesrRk := rk } ∧
        ∀ k, k < 16 → byteAt rk k = if k / 4 = i then byteAt v (k % 4) else byteAt s.aesrRk k))

/-- R32, R56, R91, R423: a 32-bit write at an aligned offset of the window but CMD's is the write of the
register that stands there, also while a command runs, and leaves the run, STATUS, ERR_INFO, AESR_OUT and
memory as they were.  R400: while reset is asserted a write, of CMD too, has no effect (log 5). -/
def Obligations.RegisterWritesDoNotTouchTheRun : Prop :=
  ∀ (s : State) (off : Nat) (v : Word) (rest : List Event), off % 4 = 0 → off < 4096 →
    s.inputs = .regWrite off 32 v :: rest →
    (s.resetHeld = false → off ≠ 0x018 →
      ∃ t, step s = .next t ∧ t = writeReg (regAt off) v { s with inputs := rest } ∧
        t.hid = s.hid ∧ t.status = s.status ∧ t.errInfo = s.errInfo ∧
        t.aesrOut = s.aesrOut ∧ t.mem = s.mem ∧ t.platform = s.platform ∧ t.posted = s.posted ∧
        t.inputs = rest ∧ t.resetHeld = false) ∧
    (s.resetHeld = true → step s = .next { s with inputs := rest })

/-! ## Steps run commands (46_commands.md R320–R324) -/

/-- A CMD write to an idle core whose reset is released runs the command its word decodes to: step is exec of it. -/
def Obligations.CommandWriteRunsTheDecodedCommand : Prop :=
  ∀ (s : State) (w : Word) (i : Instr) (rest : List Event), s.inputs = .regWrite 0x018 32 w :: rest →
    s.resetHeld = false → s.status.busy = false → decode w = .command i →
    step s = exec i { s with inputs := rest }

/-- A BUSY core's turn runs the next step of the command its snapshot names: step is exec of it, when no
input waits and when the core's turn is the input. -/
def Obligations.CoreTurnRunsTheRunningCommand : Prop :=
  ∀ (s : State) (e : Engine) (d : Direction) (rest : List Event), s.status.busy = true →
    (s.hid.q.op = d.op → s.hid.q.var = e.var →
      (s.inputs = [] → step s = exec (streamInstr e d s.hid.q.tau.toNat) s) ∧
      (s.inputs = .core :: rest →
        step s = exec (streamInstr e d s.hid.q.tau.toNat) { s with inputs := rest })) ∧
    (s.hid.q.op = opAesround → s.hid.q.var = 0 → s.hid.q.tau = 0 →
      (s.inputs = [] → step s = exec .aesround s) ∧
      (s.inputs = .core :: rest → step s = exec .aesround { s with inputs := rest })) ∧
    (s.hid.q.op = opZeroize → s.hid.q.var = 0 → s.hid.q.tau = 0 →
      (s.inputs = [] → step s = exec .zeroize s) ∧
      (s.inputs = .core :: rest → step s = exec .zeroize { s with inputs := rest }))

/-- R324: a CMD write while BUSY = 1 is dropped; only INT_STATUS.OVR is set, which raises IRQ when its
enable is 1. -/
def Obligations.CommandWriteWhileBusyIsDropped : Prop :=
  ∀ (s : State) (w : Word) (rest : List Event), s.inputs = .regWrite 0x018 32 w :: rest →
    s.resetHeld = false → s.status.busy = true →
    ∃ t, step s = .next t ∧
      t = { s with inputs := rest, intStatus := { s.intStatus with ovr := true } } ∧
      (s.ctrl.ovrIE = true → t.irq = true)

/-- R127: a word that decodes to no command is refused at acceptance: ILLEGAL with the word in ERR_INFO and
its OP in LAST_OP, BUSY never set, and nothing else of the core or of memory changed. -/
def Obligations.IllegalWordIsRefusedAtAcceptance : Prop :=
  ∀ (s : State) (w : Word) (rest : List Event), s.inputs = .regWrite 0x018 32 w :: rest →
    s.resetHeld = false → s.status.busy = false →
    (rsvField w ≠ 0 ∨ (opField w ≠ 1 ∧ opField w ≠ 2 ∧ opField w ≠ 3 ∧ opField w ≠ 4) ∨
      ((opField w = 1 ∨ opField w = 2) ∧ varField w ≠ 0 ∧ varField w ≠ 1) ∨
      ((opField w = 3 ∨ opField w = 4) ∧ (varField w ≠ 0 ∨ tagField w ≠ 0))) →
    step s = .next (reported .illegal (w.extractLsb' 0 4) false .noParam (0#32 ++ w) { s with inputs := rest })

/-- R321, R60: the acceptance of ENCRYPT or DECRYPT whose contract holds takes the snapshot of every
parameter register, clears the last report and sets BUSY; nothing else changes. -/
def Obligations.StreamCommandAcceptanceTakesTheSnapshot : Prop :=
  ∀ (e : Engine) (d : Direction) (tau : Nat) (s : State), s.status.busy = false →
    contractCheck d (takeSnapshot d.op e.var (BitVec.ofNat 8 tau) s) = none →
    exec (streamInstr e d tau) s = .next { s with
      status := ⟨true, .noError, d.op, false, .noParam⟩
      errInfo := 0
      intStatus := { s.intStatus with done := false }
      hid := { s.hid with
        q := { op := d.op, var := e.var, tau := BitVec.ofNat 8 tau, key := s.key, nonce := s.nonce
               src := s.srcAddr, srcLen := s.srcLen, dst := s.dstAddr, dstLen := s.dstLen
               ad := s.adAddr, adLen := s.adLen, inp := s.aesrIn, rk := s.aesrRk }
        phase := .start } }

/-- R321, R60: the same for AESROUND and ZEROIZE, which no contract check stops (60_exceptions.md R363). -/
def Obligations.RegisterCommandAcceptanceTakesTheSnapshot : Prop :=
  ∀ s : State, s.status.busy = false →
    exec .aesround s = .next { s with
      status := ⟨true, .noError, 3, false, .noParam⟩
      errInfo := 0
      intStatus := { s.intStatus with done := false }
      hid := { s.hid with
        q := { op := 3, var := 0, tau := 0, key := s.key, nonce := s.nonce
               src := s.srcAddr, srcLen := s.srcLen, dst := s.dstAddr, dstLen := s.dstLen
               ad := s.adAddr, adLen := s.adLen, inp := s.aesrIn, rk := s.aesrRk }
        phase := .start } } ∧
    exec .zeroize s = .next { s with
      status := ⟨true, .noError, 4, false, .noParam⟩
      errInfo := 0
      intStatus := { s.intStatus with done := false }
      hid := { s.hid with
        q := { op := 4, var := 0, tau := 0, key := s.key, nonce := s.nonce
               src := s.srcAddr, srcLen := s.srcLen, dst := s.dstAddr, dstLen := s.dstLen
               ad := s.adAddr, adLen := s.adLen, inp := s.aesrIn, rk := s.aesrRk }
        phase := .start } }

/-! ## The contract (46_commands.md R326–R333) -/

/-- R326–R333: the contract holds exactly when every check does. -/
def Obligations.ContractHoldsExactlyWhenEveryCheckDoes : Prop :=
  ∀ (d : Direction) (q : Snapshot),
    contractCheck d q = none ↔
      (q.tau = 16 ∨ q.tau = 32) ∧
      (d = .decrypt → q.tau.toNat ≤ q.srcLen.toNat) ∧
      q.msgLen d ≤ 2 ^ 61 - 1 ∧ q.adLen.toNat ≤ 2 ^ 61 - 1 ∧
      (d = .encrypt → q.dstLen.toNat = q.srcLen.toNat + q.tau.toNat) ∧
      (d = .decrypt → q.dstLen.toNat + q.tau.toNat = q.srcLen.toNat) ∧
      q.src.toNat + q.srcLen.toNat ≤ 2 ^ 64 ∧ q.dst.toNat + q.dstLen.toNat ≤ 2 ^ 64 ∧
      q.ad.toNat + q.adLen.toNat ≤ 2 ^ 64 ∧
      (q.src = q.dst ∨ ∀ a, ¬(q.inInput a = true ∧ q.inOutput a = true))

/-- R327: a tag size other than 16 or 32 is refused at acceptance with TAG_SIZE and 0x30. -/
def Obligations.BadTagSizeIsAContractViolation : Prop :=
  ∀ (e : Engine) (d : Direction) (tau : Nat) (s : State), s.status.busy = false → tau ≤ 255 →
    tau ≠ 16 → tau ≠ 32 →
    exec (streamInstr e d tau) s = .next (reported .contract d.op false .tagSize 0x30#64 s)

/-- R328: an input shorter than the tag, or a message longer than MAX_LEN, is refused with SRC_LEN and the
least or largest permitted length, the tag size being valid. -/
def Obligations.BadSourceLengthIsAContractViolation : Prop :=
  ∀ (e : Engine) (tau : Nat) (s : State), s.status.busy = false → tau = 16 ∨ tau = 32 →
    (s.srcLen.toNat < tau →
      exec (streamInstr e .decrypt tau) s =
        .next (reported .contract 2 false .srcLen (BitVec.ofNat 64 tau) s)) ∧
    (2 ^ 61 - 1 < s.srcLen.toNat →
      exec (streamInstr e .encrypt tau) s =
        .next (reported .contract 1 false .srcLen (BitVec.ofNat 64 (2 ^ 61 - 1)) s)) ∧
    (2 ^ 61 - 1 + tau < s.srcLen.toNat →
      exec (streamInstr e .decrypt tau) s =
        .next (reported .contract 2 false .srcLen (BitVec.ofNat 64 (2 ^ 61 - 1 + tau)) s))

/-- R329: associated data longer than MAX_LEN is refused with AD_LEN and MAX_LEN, the checks before it
passing. -/
def Obligations.LongAssociatedDataIsAContractViolation : Prop :=
  ∀ (e : Engine) (tau : Nat) (s : State), s.status.busy = false → tau = 16 ∨ tau = 32 →
    2 ^ 61 - 1 < s.adLen.toNat →
    (s.srcLen.toNat ≤ 2 ^ 61 - 1 →
      exec (streamInstr e .encrypt tau) s =
        .next (reported .contract 1 false .adLen (BitVec.ofNat 64 (2 ^ 61 - 1)) s)) ∧
    (tau ≤ s.srcLen.toNat → s.srcLen.toNat ≤ 2 ^ 61 - 1 + tau →
      exec (streamInstr e .decrypt tau) s =
        .next (reported .contract 2 false .adLen (BitVec.ofNat 64 (2 ^ 61 - 1)) s))

/-- R330: an output length other than the expected one is refused with DST_LEN and the expected length, the
checks before it passing. -/
def Obligations.BadOutputLengthIsAContractViolation : Prop :=
  ∀ (e : Engine) (tau : Nat) (s : State), s.status.busy = false → tau = 16 ∨ tau = 32 →
    s.adLen.toNat ≤ 2 ^ 61 - 1 →
    (s.srcLen.toNat ≤ 2 ^ 61 - 1 → s.dstLen.toNat ≠ s.srcLen.toNat + tau →
      exec (streamInstr e .encrypt tau) s =
        .next (reported .contract 1 false .dstLen (s.srcLen + BitVec.ofNat 64 tau) s)) ∧
    (tau ≤ s.srcLen.toNat → s.srcLen.toNat ≤ 2 ^ 61 - 1 + tau → s.dstLen.toNat ≠ s.srcLen.toNat - tau →
      exec (streamInstr e .decrypt tau) s =
        .next (reported .contract 2 false .dstLen (s.srcLen - BitVec.ofNat 64 tau) s))

/-- R331, R333: with valid lengths, the first buffer that wraps past 2^64 is refused with its RANGE and
2^64 − addr, in the order SRC, DST, AD; then a partial overlap of input and output with OVERLAP and 0. -/
def Obligations.BadRangesAndOverlapAreContractViolations : Prop :=
  ∀ (e : Engine) (d : Direction) (tau : Nat) (s : State), s.status.busy = false → tau = 16 ∨ tau = 32 →
    s.adLen.toNat ≤ 2 ^ 61 - 1 →
    (d = .encrypt → s.srcLen.toNat ≤ 2 ^ 61 - 1 ∧ s.dstLen.toNat = s.srcLen.toNat + tau) →
    (d = .decrypt → s.srcLen.toNat ≤ 2 ^ 61 - 1 + tau ∧ s.dstLen.toNat + tau = s.srcLen.toNat) →
    (2 ^ 64 < s.srcAddr.toNat + s.srcLen.toNat →
      exec (streamInstr e d tau) s =
        .next (reported .contract d.op false .srcRange (BitVec.ofNat 64 (2 ^ 64 - s.srcAddr.toNat)) s)) ∧
    (s.srcAddr.toNat + s.srcLen.toNat ≤ 2 ^ 64 → 2 ^ 64 < s.dstAddr.toNat + s.dstLen.toNat →
      exec (streamInstr e d tau) s =
        .next (reported .contract d.op false .dstRange (BitVec.ofNat 64 (2 ^ 64 - s.dstAddr.toNat)) s)) ∧
    (s.srcAddr.toNat + s.srcLen.toNat ≤ 2 ^ 64 → s.dstAddr.toNat + s.dstLen.toNat ≤ 2 ^ 64 →
      2 ^ 64 < s.adAddr.toNat + s.adLen.toNat →
      exec (streamInstr e d tau) s =
        .next (reported .contract d.op false .adRange (BitVec.ofNat 64 (2 ^ 64 - s.adAddr.toNat)) s)) ∧
    (s.srcAddr.toNat + s.srcLen.toNat ≤ 2 ^ 64 → s.dstAddr.toNat + s.dstLen.toNat ≤ 2 ^ 64 →
      s.adAddr.toNat + s.adLen.toNat ≤ 2 ^ 64 → s.srcAddr ≠ s.dstAddr →
      (∃ a, inRange s.srcAddr.toNat s.srcLen.toNat a = true ∧
        inRange s.dstAddr.toNat s.dstLen.toNat a = true) →
      exec (streamInstr e d tau) s = .next (reported .contract d.op false .overlap 0 s))

/-! ## The AES round unit and AESROUND (40_aes_round.md) -/

/-- R152, R153: SubBytes replaces every byte by its Sbox, Sbox(a) = Affine(a^−1), with Affine's bits as the
rule gives them; a • a^−1 = 0x01 for a ≠ 0, 0x00^−1 = 0x00; xtime and •0x03 are the products by 2 and 3. -/
def Obligations.SboxIsTheAffineImageOfTheInverse : Prop :=
  (∀ (b : Block) (j : Nat), j < 16 → byteAt (subBytes b) j = sbox (byteAt b j)) ∧
  (∀ a : Byte, sbox a = affine (gfInv a)) ∧
  (∀ (b : Byte) (i : Nat), i < 8 →
    (affine b).getLsbD i =
      (b.getLsbD i ^^ b.getLsbD ((i + 4) % 8) ^^ b.getLsbD ((i + 5) % 8) ^^ b.getLsbD ((i + 6) % 8) ^^
        b.getLsbD ((i + 7) % 8) ^^ (0x63#8).getLsbD i)) ∧
  (∀ a : Byte, a ≠ 0 → gfMul a (gfInv a) = 1) ∧ gfInv 0 = 0 ∧
  ∀ a : Byte, xtime a = gfMul a 2 ∧ mul3 a = gfMul a 3

/-- R154: ShiftRows rotates row r left by r positions. -/
def Obligations.ShiftRowsRotatesEachRow : Prop :=
  (∀ (b : Block) (r c : Nat), r < 4 → c < 4 →
    byteAt (shiftRows b) (r + 4 * c) = byteAt b (r + 4 * ((c + r) % 4))) ∧
  toBytes 16 (shiftRows (ofBytes 128 [0, 1, 2, 3, 4, 5, 6, 7, 8, 9, 10, 11, 12, 13, 14, 15])) =
    [0x00, 0x05, 0x0a, 0x0f, 0x04, 0x09, 0x0e, 0x03, 0x08, 0x0d, 0x02, 0x07, 0x0c, 0x01, 0x06, 0x0b]

/-- R155: MixColumns multiplies each column by the fixed matrix, in GF(2^8). -/
def Obligations.MixColumnsMultipliesEachColumn : Prop :=
  (∀ (b : Block) (c : Nat), c < 4 →
    let s0 := byteAt b (4 * c)
    let s1 := byteAt b (4 * c + 1)
    let s2 := byteAt b (4 * c + 2)
    let s3 := byteAt b (4 * c + 3)
    byteAt (mixColumns b) (4 * c) = gfMul 2 s0 ^^^ gfMul 3 s1 ^^^ s2 ^^^ s3 ∧
    byteAt (mixColumns b) (4 * c + 1) = s0 ^^^ gfMul 2 s1 ^^^ gfMul 3 s2 ^^^ s3 ∧
    byteAt (mixColumns b) (4 * c + 2) = s0 ^^^ s1 ^^^ gfMul 2 s2 ^^^ gfMul 3 s3 ∧
    byteAt (mixColumns b) (4 * c + 3) = gfMul 3 s0 ^^^ s1 ^^^ s2 ^^^ gfMul 2 s3) ∧
  (mixColumns (ofBytes 128 [0xdb, 0x13, 0x53, 0x45])).extractLsb' 0 32 = 0xbca14d8e#32

/-- R160, R323, R345: the step after acceptance completes AESROUND: AESR_OUT takes
MixColumns(ShiftRows(SubBytes(Q.in))) ⊕ Q.rk, the report is NONE, the hidden state is zeroed, and nothing
else changes. -/
def Obligations.AesroundCompletesWithTheRound : Prop :=
  ∀ s : State, s.status.busy = true → s.hid.q.op = 3 →
    exec .aesround s = .next { s with
      aesrOut := mixColumns (shiftRows (subBytes s.hid.q.inp)) ^^^ s.hid.q.rk
      status := ⟨false, .noError, s.status.lastOp, false, .noParam⟩
      errInfo := 0
      intStatus := { s.intStatus with done := true }
      hid := .zero }

/-- R340, R323: the step after acceptance completes ZEROIZE: KEY, NONCE, AESR_IN, AESR_RK and AESR_OUT become
zero, the report is NONE, the hidden state is zeroed, and nothing else changes. -/
def Obligations.ZeroizeClearsTheHostLoadedSecrets : Prop :=
  ∀ s : State, s.status.busy = true → s.hid.q.op = 4 →
    exec .zeroize s = .next { s with
      key := 0
      nonce := 0
      aesrIn := 0
      aesrRk := 0
      aesrOut := 0
      status := ⟨false, .noError, s.status.lastOp, false, .noParam⟩
      errInfo := 0
      intStatus := { s.intStatus with done := true }
      hid := .zero }

/-! ## Update, keystream, tag (41_update_init.md, 43_encrypt.md, 44_decrypt.md, 45_finalize_verify.md) -/

/-- R190, R184: an Engine-256 command neither reads nor writes lanes 6 and 7, and while one runs they are
zero. -/
def Obligations.Engine256LeavesLanesSixAndSeven : Prop :=
  (∀ (d : Direction) (h : Hidden) (x y : Block),
    settle .e256 d { h with lanes := { h.lanes with s6 := x, s7 := y } } =
      { settle .e256 d h with lanes := { (settle .e256 d h).lanes with s6 := x, s7 := y } }) ∧
  ∀ s : State, s.Inv → s.status.busy = true → s.hid.q.hasBuffers = true → s.hid.q.var = 1 →
    s.hid.lanes.s6 = 0 ∧ s.hid.lanes.s7 = 0

/-- R262, R233, R263: from the same state, DecBlock of EncBlock's ciphertext returns the plaintext and leaves
the same hidden state; on the trailing partial block both directions inject the same padded plaintext, so
the lanes agree and the plaintext comes back. -/
def Obligations.BlocksKeepBothSidesInStep : Prop :=
  (∀ (e : Engine) (x : Wide) (h : Hidden),
    decBlock e (encBlock e x h).1 h = (x, (encBlock e x h).2)) ∧
  ∀ (e : Engine) (r : Nat) (h : Hidden), r < e.rate → (∀ j, r ≤ j → j < 32 → byteAt h.buf j = 0) →
    (decPartial e r { h with buf := (encPartial e r h).buf }).lanes = (encPartial e r h).lanes ∧
    (decPartial e r { h with buf := (encPartial e r h).buf }).buf = h.buf ∧
    (∀ j, j < r → byteAt (encPartial e r h).buf j = byteAt h.buf j ^^^ byteAt (keystream e h.lanes) j) ∧
    (∀ j, r ≤ j → j < 32 → byteAt (encPartial e r h).buf j = 0)

/-- R290: for lengths within MAX_LEN the length block holds both bit lengths exactly, so different lengths
give different blocks. -/
def Obligations.LengthBlockTellsLengthsApart : Prop :=
  ∀ adLen msgLen : Nat, adLen ≤ 2 ^ 61 - 1 → msgLen ≤ 2 ^ 61 - 1 →
    ((lengthBlock adLen msgLen).extractLsb' 0 64).toNat = 8 * adLen ∧
    ((lengthBlock adLen msgLen).extractLsb' 64 64).toNat = 8 * msgLen ∧
    ∀ adLen' msgLen', adLen' ≤ 2 ^ 61 - 1 → msgLen' ≤ 2 ^ 61 - 1 →
      lengthBlock adLen msgLen = lengthBlock adLen' msgLen' → adLen = adLen' ∧ msgLen = msgLen'

/-- R296: the comparison is true exactly when the first τ bytes agree; later bytes are not compared. -/
def Obligations.ComparisonIsEqualityOfTheTagBytes : Prop :=
  ∀ (tau : Nat) (a b : Wide), ctEqual tau a b = true ↔ ∀ j, j < tau → byteAt a j = byteAt b j

/-- R183–R185, R211–R213, R231, R291–R293 lane by lane: the update, the chunk absorbed, the keystream, t of
finalization and both tags; R181: the constants; 95_test_vectors.md L2.2, L2.3, L2.5 and the rows E1, E6, E7b,
E10, E17, E21, E27 of L2.9. -/
def Obligations.ConstantsAndVectorsReproduce : Prop :=
  let k := ofBytes 256 [0x10, 0x01]
  let n := ofBytes 256 [0x10, 0x00, 0x02]
  let upTo (len : Nat) : List Byte := (List.range len).map (BitVec.ofNat 8)
  let ad := upTo 8
  let same (b : Byte) : Block := ofBytes 128 (List.replicate 16 b)
  let start : Lanes := ⟨same 0, same 1, same 2, same 3, same 4, same 5, same 6, same 7⟩
  (toBytes 16 c0 ++ toBytes 16 c1 = (List.range 32).map fun i => BitVec.ofNat 8 (Nat.fib i)) ∧
  (∀ (m : Wide) (l : Lanes),
    update .e128 m l =
      { s0 := aesRound l.s7 (l.s0 ^^^ m.extractLsb' 0 128), s1 := aesRound l.s0 l.s1
        s2 := aesRound l.s1 l.s2, s3 := aesRound l.s2 l.s3
        s4 := aesRound l.s3 (l.s4 ^^^ m.extractLsb' 128 128), s5 := aesRound l.s4 l.s5
        s6 := aesRound l.s5 l.s6, s7 := aesRound l.s6 l.s7 } ∧
    update .e256 m l =
      { s0 := aesRound l.s5 (l.s0 ^^^ m.extractLsb' 0 128), s1 := aesRound l.s0 l.s1
        s2 := aesRound l.s1 l.s2, s3 := aesRound l.s2 l.s3, s4 := aesRound l.s3 l.s4
        s5 := aesRound l.s4 l.s5, s6 := l.s6, s7 := l.s7 }) ∧
  (∀ (e : Engine) (h : Hidden),
    (absorbFull e h).lanes = update e h.buf h.lanes ∧ (absorbPartial e h).lanes = update e h.buf h.lanes) ∧
  (∀ l : Lanes,
    keystream .e128 l =
      (l.s2 ^^^ l.s5 ^^^ (l.s6 &&& l.s7)) ++ (l.s6 ^^^ l.s1 ^^^ (l.s2 &&& l.s3)) ∧
    keystream .e256 l = 0#128 ++ (l.s1 ^^^ l.s4 ^^^ l.s5 ^^^ (l.s2 &&& l.s3))) ∧
  (∀ (len : Block) (l : Lanes),
    stir .e128 len l = repeatLanes (update128 (l.s2 ^^^ len) (l.s2 ^^^ len)) 7 l ∧
    stir .e256 len l = repeatLanes (update256 (l.s3 ^^^ len)) 7 l) ∧
  (∀ l : Lanes,
    tagOf .e128 16 l = 0#128 ++ (l.s0 ^^^ l.s1 ^^^ l.s2 ^^^ l.s3 ^^^ l.s4 ^^^ l.s5 ^^^ l.s6) ∧
    tagOf .e128 32 l = (l.s4 ^^^ l.s5 ^^^ l.s6 ^^^ l.s7) ++ (l.s0 ^^^ l.s1 ^^^ l.s2 ^^^ l.s3) ∧
    tagOf .e256 16 l = 0#128 ++ (l.s0 ^^^ l.s1 ^^^ l.s2 ^^^ l.s3 ^^^ l.s4 ^^^ l.s5) ∧
    tagOf .e256 32 l = (l.s3 ^^^ l.s4 ^^^ l.s5) ++ (l.s0 ^^^ l.s1 ^^^ l.s2)) ∧
  update .e128 (ofBytes 256 (upTo 32)) start =
      ⟨0xcacbc8c9cecfcccdc2c3c0c1c6c7c4c5#128, 0x62626262626262626262626262626262#128,
        0x7e7e7e7e7e7e7e7e7e7e7e7e7e7e7e7e#128, 0x74747474747474747474747474747474#128,
        0x606162636465666768696a6b6c6d6e6f#128, 0xf7f7f7f7f7f7f7f7f7f7f7f7f7f7f7f7#128,
        0x6d6d6d6d6d6d6d6d6d6d6d6d6d6d6d6d#128, 0x68686868686868686868686868686868#128⟩ ∧
  update .e256 (ofBytes 256 (upTo 16)) start =
      ⟨0x64656667606162636c6d6e6f68696a6b#128, 0x62626262626262626262626262626262#128,
        0x7e7e7e7e7e7e7e7e7e7e7e7e7e7e7e7e#128, 0x74747474747474747474747474747474#128,
        0x7f7f7f7f7f7f7f7f7f7f7f7f7f7f7f7f#128, 0xf7f7f7f7f7f7f7f7f7f7f7f7f7f7f7f7#128,
        same 0x06, same 0x07⟩ ∧
  (init128 (half0 k) (half0 n)).s0 = 0xc119df33a897eb28a69eebde292a6ca3#128 ∧
  (init256 k n .zero).s5 = 0x62928b1d28b08d9ba6953d30e6d57380#128 ∧
  toBytes 32 (keystream .e128 (init128 (half0 k) (half0 n))) =
    [0xc1, 0xc0, 0xe5, 0x8b, 0xd9, 0x13, 0x00, 0x6f, 0xeb, 0xa0, 0x0f, 0x4b, 0x3c, 0xc3, 0x59, 0x4e,
     0xc0, 0x34, 0x44, 0xc2, 0xd2, 0xd6, 0x4a, 0xf5, 0xc4, 0xc1, 0x7a, 0xd9, 0x90, 0x2d, 0x22, 0x06] ∧
  toBytes 16 (keystream .e256 (init256 k n .zero)) =
    [0x75, 0x4f, 0xc3, 0xd8, 0xc9, 0x73, 0x24, 0x6d, 0xcc, 0x6d, 0x74, 0x14, 0x12, 0xa4, 0xb2, 0x36] ∧
  encryptBytes .e128 k n 16 [] [] =
    [0xc2, 0xb8, 0x79, 0xa6, 0x7d, 0xef, 0x9d, 0x74, 0xe6, 0xc1, 0x4f, 0x70, 0x8b, 0xbc, 0xc9, 0xb4] ∧
  encryptBytes .e128 k n 32 ad (upTo 32) =
    [0x79, 0xd9, 0x45, 0x93, 0xd8, 0xc2, 0x11, 0x9d, 0x7e, 0x8f, 0xd9, 0xb8, 0xfc, 0x77, 0x84, 0x5c,
     0x5c, 0x07, 0x7a, 0x05, 0xb2, 0x52, 0x8b, 0x6a, 0xc5, 0x4b, 0x56, 0x3a, 0xed, 0x8e, 0xfe, 0x84,
     0x02, 0x2c, 0xb7, 0x96, 0xfe, 0x7e, 0x0a, 0xe1, 0x19, 0x75, 0x25, 0xff, 0x67, 0xe3, 0x09, 0x48,
     0x4c, 0xfb, 0xab, 0x65, 0x28, 0xdd, 0xef, 0x89, 0xf1, 0x7d, 0x74, 0xef, 0x8e, 0xcd, 0x82, 0xb3] ∧
  encryptBytes .e128 k n 32 ad (upTo 14) =
    [0x79, 0xd9, 0x45, 0x93, 0xd8, 0xc2, 0x11, 0x9d, 0x7e, 0x8f, 0xd9, 0xb8, 0xfc, 0x77, 0x86, 0xf1,
     0xb8, 0x0b, 0xfb, 0x46, 0x3a, 0xba, 0x71, 0x1d, 0x15, 0x40, 0x5d, 0x09, 0x4b, 0xaf, 0x4a, 0x55,
     0xa1, 0x5d, 0xbf, 0xec, 0x81, 0xa7, 0x6f, 0x35, 0xed, 0x0b, 0x9c, 0x8b, 0x04, 0xac] ∧
  encryptBytes .e128 k n 16 (upTo 33) [] =
    [0xfd, 0x3c, 0x50, 0xf2, 0xfc, 0x2b, 0xd6, 0xbe, 0x8c, 0xd5, 0xc2, 0x4b, 0x7d, 0xa0, 0x66, 0x1a] ∧
  encryptBytes .e256 k n 16 [] [] =
    [0xe3, 0xde, 0xf9, 0x78, 0xa0, 0xf0, 0x54, 0xaf, 0xd1, 0xe7, 0x61, 0xd7, 0x55, 0x3a, 0xfb, 0xa3] ∧
  encryptBytes .e256 k n 32 ad (upTo 17) =
    [0xf3, 0x73, 0x07, 0x9e, 0xd8, 0x4b, 0x27, 0x09, 0xfa, 0xee, 0x37, 0x35, 0x84, 0x58, 0x5d, 0x60,
     0xac, 0x2b, 0x7f, 0xc5, 0x8c, 0xa2, 0x55, 0xae, 0xb5, 0xa7, 0xb1, 0x95, 0x19, 0xbd, 0x0c, 0x46,
     0xf9, 0x86, 0x1d, 0xd5, 0xe5, 0x19, 0xc5, 0xe9, 0x7a, 0x6c, 0x34, 0x0b, 0x20, 0xde, 0x91, 0x1e,
     0xd6] ∧
  encryptBytes .e256 k n 32 ad (upTo 14) =
    [0xf3, 0x73, 0x07, 0x9e, 0xd8, 0x4b, 0x27, 0x09, 0xfa, 0xee, 0x37, 0x35, 0x84, 0x58, 0x8c, 0x1c,
     0xc7, 0x03, 0xc8, 0x12, 0x81, 0xbe, 0xe3, 0xf6, 0xd9, 0x96, 0x6e, 0x14, 0x94, 0x8b, 0x4a, 0x17,
     0x5b, 0x2e, 0xfb, 0xdc, 0x31, 0xe6, 0x1a, 0x98, 0xb4, 0x46, 0x52, 0x35, 0xc2, 0xd9]

/-- The source's round-trip property (95_test_vectors.md L1.2, R262, R263): decrypting an encryption with
the same key, nonce and associated data verifies and gives the message back. -/
def Obligations.DecryptionRecoversEveryMessage : Prop :=
  ∀ (e : Engine) (key nonce : Wide) (tau : Nat) (ad msg : List Byte), tau = 16 ∨ tau = 32 →
    decryptBytes e key nonce tau ad (encryptBytes e key nonce tau ad msg) = (msg, true)

/-! ## The run of ENCRYPT and DECRYPT (20_memory.md R96–R114, 46_commands.md R322) -/

/-- R113: the core reads only the AD range and the input range and writes only the output range. -/
def Obligations.AccessesStayInTheCommandsRanges : Prop :=
  ∀ (e : Engine) (d : Direction) (s : State), StreamRun e d s →
    (∀ a, upcoming e d s = .read a → s.hid.q.inAd a = true ∨ s.hid.q.inInput a = true) ∧
    (∀ a v, upcoming e d s = .write a v → s.hid.q.inOutput a = true) ∧
    upcoming e d s ≠ .nothing

/-- R102: on served buffers the accesses of a whole run are the AD phase, the message phase and the tag phase,
in that order; then ENCRYPT completes; DECRYPT stands at the comparison, completes when the tag verifies and
wipes its output first when it does not. -/
def Obligations.AccessSequenceHasItsPhases : Prop :=
  ∀ (e : Engine) (d : Direction) (s : State), s.status.busy = true → StreamRun e d s → Served s.hid.q s →
    let n := s.hid.q.adLen.toNat + 2 * s.hid.q.msgLen d + s.hid.q.tau.toNat
    let phases := adPhase s.hid.q ++ messagePhase e d s.hid.q ++ tagPhase d s.hid.q
    (s.hid.phase = .start →
      ∃ t, execRun (streamInstr e d s.hid.q.tau.toNat) n s = .next t ∧ t.hid.q = s.hid.q ∧
        accessTrace e d n s = phases ∧
        (d = .encrypt → t.hid.phase = .finish .noError ∧
          accessTrace e d (n + 1) s = phases ++ [.finish .noError]) ∧
        (d = .decrypt → t.hid.phase = .verify ∧
          (ctEqual s.hid.q.tau.toNat t.hid.t t.hid.e = true →
            accessTrace e d (n + 1) s = phases ++ [.finish .noError]) ∧
          (ctEqual s.hid.q.tau.toNat t.hid.t t.hid.e = false →
            accessTrace e d (n + s.hid.q.msgLen d + 1) s = phases ++ wipePhase s.hid.q ++ [.finish .auth]))) ∧
    (s.hid.phase = .verify → ctEqual s.hid.q.tau.toNat s.hid.t s.hid.e = true →
      accessTrace e d 1 s = [.finish .noError]) ∧
    (s.hid.phase = .verify → ctEqual s.hid.q.tau.toNat s.hid.t s.hid.e = false →
      accessTrace e d (s.hid.q.msgLen d + 1) s = wipePhase s.hid.q ++ [.finish .auth])

/-- R101, R425: what the bus sees of the next access, its kind and address, and where the sequencer stands after
it, whatever byte a read returns, never depend on key, nonce, data or tag bytes, but for the one outcome of
the tag comparison. -/
def Obligations.AccessAddressesDependOnPublicValuesOnly : Prop :=
  ∀ (e : Engine) (d : Direction) (h h' : Hidden), h.phase = h'.phase → h.q.public = h'.q.public →
    (h.phase = .verify → ctEqual h.q.tau.toNat h.t h.e = ctEqual h'.q.tau.toNat h'.t h'.e) →
    (nextAccess e d (settle e d h)).shape = (nextAccess e d (settle e d h')).shape ∧
    (∀ b b' : Byte,
      (afterRead e d b (settle e d h)).phase = (afterRead e d b' (settle e d h')).phase ∧
      (afterRead e d b (settle e d h)).q = h.q) ∧
    (afterWrite e d (settle e d h)).phase = (afterWrite e d (settle e d h')).phase ∧
    (afterWrite e d (settle e d h)).q = h.q

/-- R15, R95, R322: while the platform serves its buffers, every step of a running ENCRYPT or DECRYPT
completes: a read takes the byte in memory, a write stores its byte, and nothing else of memory and no
host-visible register changes until the completion.  Where a host write of the byte written is not visible
yet, its value becomes open (log 6). -/
def Obligations.ServedAccessesTakeEffect : Prop :=
  ∀ (e : Engine) (d : Direction) (s : State), s.status.busy = true → StreamRun e d s →
    Served s.hid.q s →
    (∀ a, upcoming e d s = .read a →
      exec (streamInstr e d s.hid.q.tau.toNat) s =
        .next { s with hid := afterRead e d (Memory.read s.mem a) (settle e d s.hid) }) ∧
    (∀ a v, upcoming e d s = .write a v →
      exec (streamInstr e d s.hid.q.tau.toNat) s =
        .next { s with
          mem := Memory.write s.mem a v
          posted := openPosted (fun b => b = a) s.posted
          hid := afterWrite e d (settle e d s.hid) }) ∧
    (∀ c, upcoming e d s = .finish c →
      exec (streamInstr e d s.hid.q.tau.toNat) s =
        .next (reported c s.status.lastOp (decide (c = .noError ∧ d = .decrypt)) .noParam 0 s))

/-- The frame of every step of a running ENCRYPT or DECRYPT: the parameter registers, CTRL, INT_STATUS.OVR,
AESR_OUT, LAST_OP and everything outside the core but memory are unchanged (46_commands.md R322, R323); a host
write not visible yet stays to come, with an open value only where it lies in the output range or meets the byte written (log 6). -/
def Obligations.RunLeavesEveryOtherRegister : Prop :=
  ∀ (e : Engine) (d : Direction) (tau : Nat) (s t : State), s.status.busy = true → s.hid.q.op = d.op →
    exec (streamInstr e d tau) s = .next t →
    t.ctrl = s.ctrl ∧ t.intStatus.ovr = s.intStatus.ovr ∧ t.status.lastOp = s.status.lastOp ∧
    t.key = s.key ∧ t.nonce = s.nonce ∧ t.srcAddr = s.srcAddr ∧ t.srcLen = s.srcLen ∧
    t.dstAddr = s.dstAddr ∧ t.dstLen = s.dstLen ∧ t.adAddr = s.adAddr ∧ t.adLen = s.adLen ∧
    t.aesrIn = s.aesrIn ∧ t.aesrRk = s.aesrRk ∧ t.aesrOut = s.aesrOut ∧ t.platform = s.platform ∧
    t.inputs = s.inputs ∧ t.hostData = s.hostData ∧ t.resetHeld = s.resetHeld ∧
    (∀ a, isPosted t.posted a = isPosted s.posted a) ∧
    (∀ c ∈ t.posted, c ∈ s.posted ∨ (c.value = none ∧
      (s.hid.q.inOutput c.addr = true ∨ ∃ v, upcoming e d s = .write c.addr v))) ∧
    ((t.status = s.status ∧ t.errInfo = s.errInfo ∧ t.intStatus = s.intStatus) ∨
      (t.status.busy = false ∧ t.intStatus.done = true ∧ t.hid = .zero))

/-- The memory frame of every step of a running ENCRYPT or DECRYPT: a served write stores its byte at the
address the run computes and every other byte is unchanged; a served read and the completion leave all of
memory; a refused access leaves every byte outside the output range (20_memory.md R106). -/
def Obligations.RunStoresOnlyWhereItSays : Prop :=
  ∀ (e : Engine) (d : Direction) (tau : Nat) (s t : State), s.status.busy = true →
    Memory.wf s.mem = true → exec (streamInstr e d tau) s = .next t →
    (∀ a v, upcoming e d s = .write a v → s.platform.memOK a .write = true →
      Memory.read t.mem a = v ∧ ∀ b, b ≠ a → Memory.read t.mem b = Memory.read s.mem b) ∧
    (∀ a v, upcoming e d s = .write a v → s.platform.memOK a .write = false →
      ∀ b, s.hid.q.inOutput b = false → Memory.read t.mem b = Memory.read s.mem b) ∧
    (∀ a, upcoming e d s = .read a → s.platform.memOK a .read = true →
      ∀ b, Memory.read t.mem b = Memory.read s.mem b) ∧
    (∀ a, upcoming e d s = .read a → s.platform.memOK a .read = false →
      ∀ b, s.hid.q.inOutput b = false → Memory.read t.mem b = Memory.read s.mem b) ∧
    (∀ c, upcoming e d s = .finish c → ∀ b, Memory.read t.mem b = Memory.read s.mem b)

/-- R106: an access the platform refuses has no effect and is the last: the command completes with BUS and
the address, every byte of the output range holds a free value, every other byte is unchanged, the hidden
state is zeroed.  That the completion is the refused access's own step is the model's choice (log 22). -/
def Obligations.RefusedAccessCompletesWithBus : Prop :=
  ∀ (e : Engine) (d : Direction) (tau a : Nat) (s : State), s.status.busy = true → StreamRun e d s →
    Memory.wf s.mem = true →
    (upcoming e d s = .read a ∧ s.platform.memOK a .read = false) ∨
      (∃ v, upcoming e d s = .write a v ∧ s.platform.memOK a .write = false) →
    ∃ t, exec (streamInstr e d tau) s = .next t ∧
      t.status = ⟨false, .bus, s.status.lastOp, false, .noParam⟩ ∧
      t.errInfo.toNat = a ∧ t.intStatus.done = true ∧ t.hid = .zero ∧
      (∀ j, j < s.hid.q.dstLen.toNat →
        Memory.read t.mem (s.hid.q.dst.toNat + j) = Config.freeByte (s.freeCount + j)) ∧
      ∀ b, s.hid.q.inOutput b = false → Memory.read t.mem b = Memory.read s.mem b

/-- R96: a DMA access the platform would complete to device memory is refused by the model. -/
def Obligations.DeviceMemoryIsRefused : Prop :=
  ∀ (e : Engine) (d : Direction) (tau a : Nat) (s : State), s.status.busy = true → StreamRun e d s →
    s.platform.isDevice a = true →
    (upcoming e d s = .read a ∧ s.platform.memOK a .read = true) ∨
      (∃ v, upcoming e d s = .write a v ∧ s.platform.memOK a .write = true) →
    exec (streamInstr e d tau) s = .refused (.deviceMemory a)

/-- R105, R416: a byte the host wrote and did not make visible before CMD reads as a free value, also when it
becomes visible during the run; that event never stops the machine, lands every waiting host write outside the
running command's output range, and leaves that range and the waiting writes to it to the command (log 6). -/
def Obligations.InvisibleByteReadsAsAnyValue : Prop :=
  (∀ (e : Engine) (d : Direction) (tau a : Nat) (s : State), s.status.busy = true → StreamRun e d s →
    upcoming e d s = .read a → s.platform.memOK a .read = true → s.platform.isDevice a = false →
    isPosted s.posted a = true ∨ a ∈ s.hid.late →
    exec (streamInstr e d tau) s = .next { s with
      hid := afterRead e d (Config.freeByte s.freeCount) (settle e d s.hid)
      freeCount := s.freeCount + 1 }) ∧
  ∀ (s : State) (rest : List Event), s.inputs = .memVisible :: rest →
    ∃ t, step s = .next t ∧ t.status = s.status ∧
      (s.status.busy = true → s.hid.q.hasBuffers = true →
        (∀ a, s.hid.q.inAd a = true ∨ s.hid.q.inInput a = true → isPosted s.posted a = true →
          isPosted t.posted a = true ∨ a ∈ t.hid.late) ∧
        (∀ a, s.hid.q.inOutput a = true →
          Memory.read t.mem a = Memory.read s.mem a ∧ isPosted t.posted a = isPosted s.posted a)) ∧
      (∀ a, isPosted s.posted a = false → Memory.read t.mem a = Memory.read s.mem a) ∧
      ∀ (older newer : List Posted) (a : Nat) (v : Byte),
        s.posted = older ++ ⟨a, some v⟩ :: newer → isPosted newer a = false →
        ¬(s.status.busy = true ∧ s.hid.q.hasBuffers = true ∧ s.hid.q.inOutput a = true) →
        Memory.wf s.mem = true → Memory.read t.mem a = v ∧ isPosted t.posted a = false

/-- R103, R416, R95, R96, R105: the host's own memory accesses.  While a command runs, a host write to its AD,
input or output range, visible at once or not yet, or a host read of its output range, is a fault (that a write
not visible yet is a breach like any other is log 7's reading).  An access to an address that does not exist is a
fault (log 15), one to device memory is refused (log 3).  Every other access has its effect and changes nothing
else: a read gives the host the byte in memory, or a free value where a write of it is not visible yet (logs 6,
10); a write visible at once stores its byte and overtakes the waiting writes of that byte (log 6); a write not
visible yet waits as the newest. -/
def Obligations.HostMemoryAccessesActOrStop : Prop :=
  ∀ (s : State) (a : Nat) (v : Byte) (rest : List Event),
    (s.status.busy = true → s.hid.q.hasBuffers = true → a < 2 ^ 64 →
      (s.hid.q.inAd a = true ∨ s.hid.q.inInput a = true ∨ s.hid.q.inOutput a = true →
        (s.inputs = .memWrite a v :: rest → step s = .fault (.hostDuty a)) ∧
        (s.inputs = .memPost a v :: rest → step s = .fault (.hostDuty a))) ∧
      (s.hid.q.inOutput a = true → s.inputs = .memRead a :: rest → step s = .fault (.hostDuty a))) ∧
    (2 ^ 64 ≤ a →
      s.inputs = .memRead a :: rest ∨ s.inputs = .memWrite a v :: rest ∨ s.inputs = .memPost a v :: rest →
      step s = .fault (.outsideAddressSpace a)) ∧
    (a < 2 ^ 64 → ¬(s.status.busy = true ∧ s.hid.q.hasBuffers = true ∧ s.hid.q.inOutput a = true) →
      s.inputs = .memRead a :: rest →
      (s.platform.isDevice a = true → step s = .refused (.deviceMemory a)) ∧
      (s.platform.isDevice a = false → isPosted s.posted a = false →
        step s = .next { s with inputs := rest, hostData := 0#24 ++ Memory.read s.mem a }) ∧
      (s.platform.isDevice a = false → isPosted s.posted a = true →
        step s = .next { s with
          inputs := rest
          hostData := 0#24 ++ Config.freeByte s.freeCount
          freeCount := s.freeCount + 1 })) ∧
    (a < 2 ^ 64 →
      ¬(s.status.busy = true ∧ s.hid.q.hasBuffers = true ∧
        (s.hid.q.inAd a = true ∨ s.hid.q.inInput a = true ∨ s.hid.q.inOutput a = true)) →
      (s.platform.isDevice a = true →
        s.inputs = .memWrite a v :: rest ∨ s.inputs = .memPost a v :: rest →
        step s = .refused (.deviceMemory a)) ∧
      (s.platform.isDevice a = false → s.inputs = .memWrite a v :: rest → Memory.wf s.mem = true →
        ∃ t, step s = .next t ∧
          t = { s with inputs := rest, mem := t.mem, posted := s.posted.filter fun c => c.addr ≠ a } ∧
          Memory.read t.mem a = v ∧ (∀ b, b ≠ a → Memory.read t.mem b = Memory.read s.mem b)) ∧
      (s.platform.isDevice a = false → s.inputs = .memPost a v :: rest →
        step s = .next { s with inputs := rest, posted := s.posted ++ [⟨a, some v⟩] }))

/-- R297: when the tag bytes agree, DECRYPT completes with NONE and AUTH_OK = 1, and the output is not written
again. -/
def Obligations.MatchingTagCompletesWithAuthOk : Prop :=
  ∀ (e : Engine) (tau : Nat) (s : State), s.status.busy = true → s.hid.phase = .verify →
    s.hid.q.op = 2 → (∀ j, j < s.hid.q.tau.toNat → byteAt s.hid.t j = byteAt s.hid.e j) →
    exec (streamInstr e .decrypt tau) s =
      .next (reported .noError s.status.lastOp true .noParam 0 s)

/-- R298, R273: when a command completes with AUTH it was a DECRYPT, its whole output range is zero in
memory, AUTH_OK and ERR_INFO are 0 and the hidden state is zeroed. -/
def Obligations.AuthFailureLeavesZeroedOutput : Prop :=
  ∀ (e : Engine) (d : Direction) (s t : State), s.Inv → s.status.busy = true → StreamRun e d s →
    exec (streamInstr e d s.hid.q.tau.toNat) s = .next t → t.status.errCode = .auth →
    d = .decrypt ∧ t.status = ⟨false, .auth, s.status.lastOp, false, .noParam⟩ ∧ t.errInfo = 0 ∧
      t.hid = .zero ∧ ∀ a, s.hid.q.inOutput a = true → Memory.read t.mem a = 0

/-- R298: when the tag bytes differ, T is zeroed and the wipe phase begins with the first output byte; for
an empty message the command completes with AUTH at once.  Where a host write of the byte wiped is not visible
yet, its value becomes open (log 6). -/
def Obligations.DifferingTagWipesBeforeReporting : Prop :=
  ∀ (e : Engine) (s : State), s.status.busy = true → s.hid.phase = .verify →
    (∃ j, j < s.hid.q.tau.toNat ∧ byteAt s.hid.t j ≠ byteAt s.hid.e j) →
    (s.hid.q.msgLen .decrypt = 0 →
      exec (streamInstr e .decrypt s.hid.q.tau.toNat) s =
        .next (reported .auth s.status.lastOp false .noParam 0 s)) ∧
    (0 < s.hid.q.msgLen .decrypt → s.platform.memOK s.hid.q.dst.toNat .write = true →
      s.platform.isDevice s.hid.q.dst.toNat = false →
      exec (streamInstr e .decrypt s.hid.q.tau.toNat) s = .next { s with
        mem := Memory.write s.mem s.hid.q.dst.toNat 0
        posted := openPosted (fun b => b = s.hid.q.dst.toNat) s.posted
        hid := { s.hid with
          t := 0
          phase := if 1 = s.hid.q.msgLen .decrypt then .finish .auth else .wipe 1 } })

/-- R345, R323, R371: every completion, by the core's turn or at acceptance (ILLEGAL, CONTRACT), leaves every byte
of the hidden state zero and DONE up, and IRQ with it when DONE_IE is 1; a command cut short by reset leaves the
hidden state zero too. -/
def Obligations.EveryCompletionZeroesTheHiddenState : Prop :=
  ∀ s t : State, step s = .next t → t.status.busy = false →
    (s.status.busy = true → t.hid = .zero) ∧
    ((s.status.busy = true ∧ (s.inputs = [] ∨ s.inputs.head? = some .core)) ∨
        (s.status.busy = false ∧ s.resetHeld = false ∧
          ∃ w rest, s.inputs = .regWrite 0x018 32 w :: rest) →
      t.hid = .zero ∧ t.intStatus.done = true ∧ (s.ctrl.doneIE = true → t.irq = true))

/-- R46, R47, R53: over all commands and inputs, KEY and NONCE change only by a host write to them, by a
ZEROIZE completion, which makes both zero, or by reset; AESR_OUT only by an AESROUND or ZEROIZE completion
or by reset. -/
def Obligations.SecretsAndResultChangeOnlyAsTheirRulesSay : Prop :=
  ∀ s t : State, step s = .next t →
    (t.key ≠ s.key ∨ t.nonce ≠ s.nonce →
      (∃ off v rest, s.inputs = .regWrite off 32 v :: rest ∧ 0x040 ≤ off ∧ off < 0x080) ∨
      s.inputs.head? = some .resetAssert ∨
      (s.status.busy = true ∧ s.hid.q.op = 4 ∧ t.status.busy = false ∧ t.status.errCode = .noError ∧
        t.key = 0 ∧ t.nonce = 0)) ∧
    (t.aesrOut ≠ s.aesrOut →
      s.inputs.head? = some .resetAssert ∨
      (s.status.busy = true ∧ (s.hid.q.op = 3 ∨ s.hid.q.op = 4) ∧ t.status.busy = false ∧
        t.status.errCode = .noError))

/-! ## Whole runs and the invariant -/

/-- The invariant holds right after reset, on every platform. -/
def Obligations.ResetMeetsTheInvariant : Prop := State.reset.Inv ∧ ∀ p : Platform, (State.resetOn p).Inv

/-- Every step of the machine, whatever the inputs, keeps the invariant, and leaves the platform's parameter MemOK
as it was (R8, R403). -/
def Obligations.EveryStepKeepsTheInvariant : Prop :=
  ∀ s t : State, step s = .next t → (s.Inv → t.Inv) ∧ t.platform = s.platform

/-- R426, R427: from every state of a run, on a platform without device memory, the command completes within
the accesses that its lengths allow and one more step.  It rests on log 16: the platform answers every DMA
access in its step. -/
def Obligations.EveryRunCompletesWithinItsAccesses : Prop :=
  ∀ (e : Engine) (d : Direction) (s : State), s.status.busy = true → StreamRun e d s →
    (∀ a, s.platform.isDevice a = false) →
    ∃ n t, n ≤ s.hid.q.adLen.toNat + 3 * s.hid.q.msgLen d + s.hid.q.tau.toNat + 1 ∧
      execRun (streamInstr e d s.hid.q.tau.toNat) n s = .next t ∧ t.status.busy = false

/-- R240, R243, R426: a whole ENCRYPT on served buffers, from an idle core: after the acceptance and exactly
adlen + 2·msglen + τ + 1 steps it completes with NONE, the output range holds the ciphertext and the tag
the algorithm gives for the key, nonce, associated data and message in the registers and in memory at the
start, and no other byte of memory changed.  It rests on log 16: the platform answers every DMA access. -/
def Obligations.EncryptWritesCiphertextAndTag : Prop :=
  ∀ (e : Engine) (tau : Nat) (s : State), s.Inv → s.status.busy = false →
    contractCheck .encrypt (takeSnapshot 1 e.var (BitVec.ofNat 8 tau) s) = none →
    Served (takeSnapshot 1 e.var (BitVec.ofNat 8 tau) s) s → tau ≤ 255 →
    ∃ t, execRun (streamInstr e .encrypt tau) (1 + (s.adLen.toNat + 2 * s.srcLen.toNat + tau + 1)) s =
        .next t ∧
      t.status = ⟨false, .noError, 1, false, .noParam⟩ ∧ t.errInfo = 0 ∧ t.intStatus.done = true ∧
      t.hid = .zero ∧
      Memory.readBytes t.mem s.dstAddr.toNat (s.srcLen.toNat + tau) =
        encryptBytes e s.key s.nonce tau (Memory.readBytes s.mem s.adAddr.toNat s.adLen.toNat)
          (Memory.readBytes s.mem s.srcAddr.toNat s.srcLen.toNat) ∧
      ∀ a, inRange s.dstAddr.toNat s.dstLen.toNat a = false → Memory.read t.mem a = Memory.read s.mem a

/-- R270, R273, R426: a whole DECRYPT on served buffers, from an idle core: when the algorithm verifies the
tag, after the acceptance and exactly adlen + 2·msglen + τ + 1 steps it completes with NONE and AUTH_OK and
the output range holds the plaintext; when it does not, after msglen steps more it completes with AUTH and
the output range is zero.  No other byte of memory changed.  It rests on log 16: the platform answers every
DMA access. -/
def Obligations.DecryptWritesThePlaintextOrZeros : Prop :=
  ∀ (e : Engine) (tau : Nat) (s : State), s.Inv → s.status.busy = false →
    contractCheck .decrypt (takeSnapshot 2 e.var (BitVec.ofNat 8 tau) s) = none →
    Served (takeSnapshot 2 e.var (BitVec.ofNat 8 tau) s) s → tau ≤ 255 →
    let msgLen := s.srcLen.toNat - tau
    let r := decryptBytes e s.key s.nonce tau (Memory.readBytes s.mem s.adAddr.toNat s.adLen.toNat)
      (Memory.readBytes s.mem s.srcAddr.toNat s.srcLen.toNat)
    ∃ t, execRun (streamInstr e .decrypt tau)
          (1 + (s.adLen.toNat + (if r.2 then 2 else 3) * msgLen + tau + 1)) s = .next t ∧
      t.status = ⟨false, if r.2 then .noError else .auth, 2, r.2, .noParam⟩ ∧ t.errInfo = 0 ∧
      t.intStatus.done = true ∧ t.hid = .zero ∧
      Memory.readBytes t.mem s.dstAddr.toNat msgLen = (if r.2 then r.1 else List.replicate msgLen 0) ∧
      ∀ a, inRange s.dstAddr.toNat s.dstLen.toNat a = false → Memory.read t.mem a = Memory.read s.mem a
end

