-- ==== Sys2Proof/Laws/Bytes.lean ====
section
/-! SUPPORT. Byte strings: what a byte or word of a changed or assembled string is. -/

namespace Sys2Proof.Machine

/-- Bit `i` of byte `j` is bit `8j + i` (00_scope.md R11). -/
@[simp] theorem getLsbD_byteAt {n : Nat} (x : BitVec n) (j i : Nat) :
    (byteAt x j).getLsbD i = (decide (i < 8) && x.getLsbD (8 * j + i)) := by
  simp [byteAt]

@[simp] theorem getLsbD_wordAt {n : Nat} (x : BitVec n) (j i : Nat) :
    (wordAt x j).getLsbD i = (decide (i < 32) && x.getLsbD (32 * j + i)) := by
  simp [wordAt]

/-- Bit `k` of a string with a field replaced. -/
theorem getLsbD_setField {n w : Nat} (x : BitVec n) (i : Nat) (v : BitVec w) (k : Nat) (hk : k < n) :
    (setField x i v).getLsbD k = if i ≤ k ∧ k < i + w then v.getLsbD (k - i) else x.getLsbD k := by
  by_cases hi : k < i
  · have : ¬ i ≤ k := by omega
    simp [setField, hk, hi, this]
  · by_cases hw : k < i + w
    · have h2 : k - i < w := by omega
      have h3 : i ≤ k := by omega
      simp [setField, hk, hi, hw, h2, h3]
    · have h2 : ¬ k - i < w := by omega
      have h3 : v.getLsbD (k - i) = false := BitVec.getLsbD_of_ge _ _ (by omega)
      simp [setField, hk, hi, hw, h2, h3]

/-- The byte just set. -/
theorem byteAt_setByte_same {n : Nat} (x : BitVec n) {j : Nat} (hj : 8 * j + 8 ≤ n) (v : Byte) :
    byteAt (setByte x j v) j = v := by
  ext i hi
  have hk : 8 * j + i < n := by omega
  simp [byteAt, setByte, BitVec.getElem_extractLsb', getLsbD_setField _ _ _ _ hk, hi]

/-- Every other byte. -/
theorem byteAt_setByte_of_ne {n : Nat} (x : BitVec n) {j k : Nat} (hk : 8 * k + 8 ≤ n) (hne : k ≠ j)
    (v : Byte) : byteAt (setByte x j v) k = byteAt x k := by
  ext i hi
  have hk : 8 * k + i < n := by omega
  have : ¬ (8 * j ≤ 8 * k + i ∧ 8 * k + i < 8 * j + 8) := by omega
  simp only [byteAt, setByte, BitVec.getElem_extractLsb', getLsbD_setField _ _ _ _ hk, this, if_false]

/-- The word just set (20_memory.md R92). -/
theorem wordAt_setWord_same {n : Nat} (x : BitVec n) {j : Nat} (hj : 32 * j + 32 ≤ n) (v : Word) :
    wordAt (setWord x j v) j = v := by
  ext i hi
  have hk : 32 * j + i < n := by omega
  simp [wordAt, setWord, BitVec.getElem_extractLsb', getLsbD_setField _ _ _ _ hk, hi]

/-- Every other word. -/
theorem wordAt_setWord_of_ne {n : Nat} (x : BitVec n) {j k : Nat} (hk : 32 * k + 32 ≤ n) (hne : k ≠ j)
    (v : Word) : wordAt (setWord x j v) k = wordAt x k := by
  ext i hi
  have hk : 32 * k + i < n := by omega
  have : ¬ (32 * j ≤ 32 * k + i ∧ 32 * k + i < 32 * j + 32) := by omega
  simp only [wordAt, setWord, BitVec.getElem_extractLsb', getLsbD_setField _ _ _ _ hk, this, if_false]

/-- Bit `k` of an assembled byte string. -/
theorem getLsbD_ofBytes (n : Nat) : ∀ (l : List Byte) (k : Nat), k < n →
    (ofBytes n l).getLsbD k = (l.getD (k / 8) 0).getLsbD (k % 8) := by
  intro l
  induction l with
  | nil => intro k _; simp [ofBytes]
  | cons b rest ih =>
    intro k hk
    by_cases h8 : k < 8
    · have h1 : k / 8 = 0 := by omega
      have h2 : k % 8 = k := by omega
      simp [ofBytes, hk, h8, h1, h2]
    · have h1 : k / 8 = (k - 8) / 8 + 1 := by omega
      have h2 : k % 8 = (k - 8) % 8 := by omega
      have h3 : b.getLsbD k = false := BitVec.getLsbD_of_ge _ _ (by omega)
      have h4 := ih (k - 8) (by omega)
      rw [h1, h2, List.getD_cons_succ, ← h4]
      have h5 : k - 8 < n := by omega
      simp [ofBytes, hk, h8, h3, BitVec.getLsbD_eq_getElem h5]

/-- Byte `j` of an assembled byte string, zero past the list (ZeroPad, 00_scope.md R12). -/
theorem byteAt_ofBytes {n : Nat} (l : List Byte) {j : Nat} (hj : 8 * j + 8 ≤ n) :
    byteAt (ofBytes n l) j = l.getD j 0 := by
  ext i hi
  have hk : 8 * j + i < n := by omega
  have h1 : (8 * j + i) / 8 = j := by omega
  have h2 : (8 * j + i) % 8 = i := by omega
  simp [byteAt, BitVec.getElem_extractLsb', getLsbD_ofBytes n l _ hk, h1, h2, BitVec.getLsbD_eq_getElem hi]

/-- Byte `j` of a block given byte by byte. -/
theorem byteAt_blockOf (f : Nat → Byte) {j : Nat} (hj : j < 16) : byteAt (blockOf f) j = f j := by
  rw [blockOf, byteAt_ofBytes _ (by omega)]
  simp [List.getD, hj]

/-- A byte string is its bytes. -/
theorem eq_of_byteAt_eq {k : Nat} {x y : BitVec (8 * k)} (h : ∀ j, j < k → byteAt x j = byteAt y j) :
    x = y := by
  ext i hi
  have hb := congrArg (fun b : Byte => b.getLsbD (i % 8)) (h (i / 8) (by omega))
  have h8 : i % 8 < 8 := by omega
  have hi' : 8 * (i / 8) + i % 8 = i := by omega
  simp only [getLsbD_byteAt, h8, hi', decide_true, Bool.true_and] at hb
  simpa [BitVec.getLsbD_eq_getElem hi] using hb

@[simp] theorem byteAt_zero (n j : Nat) : byteAt (0#n) j = 0 := by
  ext i hi
  simp [byteAt]

/-- Bytewise XOR (00_scope.md R12). -/
@[simp] theorem byteAt_xor {n : Nat} (x y : BitVec n) (j : Nat) :
    byteAt (x ^^^ y) j = byteAt x j ^^^ byteAt y j := by
  ext i hi
  simp [byteAt, BitVec.getElem_extractLsb']

/-- Byte `j` of a truncated string. -/
theorem byteAt_truncBytes (x : Wide) (r : Nat) {j : Nat} (hj : j < 32) :
    byteAt (truncBytes x r) j = if j < r then byteAt x j else 0 := by
  ext i hi
  have h2 : 8 * j + i < 256 := by omega
  by_cases hr : j < r
  · have h1 : 8 * j + i < 8 * r := by omega
    simp [byteAt, truncBytes, BitVec.getElem_extractLsb', h1, h2, hr]
  · have h1 : ¬ 8 * j + i < 8 * r := by omega
    simp [byteAt, truncBytes, BitVec.getElem_extractLsb', h1, hr]

@[simp] theorem half0_join (a b : Block) : half0 (join a b) = a := by
  ext i hi
  have h : (b ++ a : BitVec (128 + 128)).getLsbD i = a.getLsbD i := by
    rw [BitVec.getLsbD_append, if_pos hi]
  simpa [half0, join, BitVec.getLsbD_eq_getElem hi] using h

@[simp] theorem half1_join (a b : Block) : half1 (join a b) = b := by
  ext i hi
  have h : (b ++ a : BitVec (128 + 128)).getLsbD (128 + i) = b.getLsbD i := by
    rw [BitVec.getLsbD_append, if_neg (by omega), Nat.add_sub_cancel_left]
  simpa [half1, join, BitVec.getLsbD_eq_getElem hi] using h

@[simp] theorem length_toBytes {n : Nat} (k : Nat) (x : BitVec n) : (toBytes k x).length = k := by
  simp [toBytes]

end Sys2Proof.Machine
end

