-- ==== Sys2Proof/Laws/Fields.lean ====
section
/-! SUPPORT. The fields of an assembled command word (30_encoding.md R120). -/

namespace Sys2Proof

@[simp] theorem opField_assembleWord (rsv : BitVec 16) (tag : BitVec 8) (var op : BitVec 4) :
    opField (assembleWord rsv tag var op) = op := by
  ext i hi
  have h : (assembleWord rsv tag var op).getLsbD i = op.getLsbD i := by
    rw [assembleWord, BitVec.getLsbD_append, if_pos hi]
  simpa [opField, BitVec.getLsbD_eq_getElem hi] using h

@[simp] theorem varField_assembleWord (rsv : BitVec 16) (tag : BitVec 8) (var op : BitVec 4) :
    varField (assembleWord rsv tag var op) = var := by
  ext i hi
  have h : (assembleWord rsv tag var op).getLsbD (4 + i) = var.getLsbD i := by
    rw [assembleWord, BitVec.getLsbD_append, if_neg (by omega), BitVec.getLsbD_append,
      Nat.add_sub_cancel_left, if_pos hi]
  simpa [varField, BitVec.getLsbD_eq_getElem hi] using h

@[simp] theorem tagField_assembleWord (rsv : BitVec 16) (tag : BitVec 8) (var op : BitVec 4) :
    tagField (assembleWord rsv tag var op) = tag := by
  ext i hi
  have h4 : 8 + i - 4 - 4 = i := by omega
  have h : (assembleWord rsv tag var op).getLsbD (8 + i) = tag.getLsbD i := by
    rw [assembleWord, BitVec.getLsbD_append, if_neg (by omega), BitVec.getLsbD_append,
      if_neg (by omega), BitVec.getLsbD_append, if_pos (by omega), h4]
  simpa [tagField, BitVec.getLsbD_eq_getElem hi] using h

@[simp] theorem rsvField_assembleWord (rsv : BitVec 16) (tag : BitVec 8) (var op : BitVec 4) :
    rsvField (assembleWord rsv tag var op) = rsv := by
  ext i hi
  have h8 : 16 + i - 4 - 4 - 8 = i := by omega
  have h : (assembleWord rsv tag var op).getLsbD (16 + i) = rsv.getLsbD i := by
    rw [assembleWord, BitVec.getLsbD_append, if_neg (by omega), BitVec.getLsbD_append,
      if_neg (by omega), BitVec.getLsbD_append, if_neg (by omega), h8]
  simpa [rsvField, BitVec.getLsbD_eq_getElem hi] using h

/-- A word is its four fields. -/
theorem assembleWord_fields (w : Word) :
    assembleWord (rsvField w) (tagField w) (varField w) (opField w) = w := by
  apply BitVec.eq_of_getLsbD_eq
  intro i hi
  rw [assembleWord, BitVec.getLsbD_append, BitVec.getLsbD_append, BitVec.getLsbD_append]
  by_cases h1 : i < 4
  · simp [h1, opField]
  · by_cases h2 : i - 4 < 4
    · have : 4 + (i - 4) = i := by omega
      simp [h1, h2, varField, this]
    · by_cases h3 : i - 4 - 4 < 8
      · have : 8 + (i - 4 - 4) = i := by omega
        simp [h1, h2, h3, tagField, this]
      · have : 16 + (i - 4 - 4 - 8) = i := by omega
        have h4 : i - 4 - 4 - 8 < 16 := by omega
        simp [h1, h2, h3, h4, rsvField, this]

/-- Two assembled words agree exactly when their fields do. -/
theorem assembleWord_inj (r r' : BitVec 16) (t t' : BitVec 8) (v v' o o' : BitVec 4) :
    assembleWord r t v o = assembleWord r' t' v' o' ↔ r = r' ∧ t = t' ∧ v = v' ∧ o = o' := by
  refine ⟨fun h => ⟨?_, ?_, ?_, ?_⟩, by rintro ⟨rfl, rfl, rfl, rfl⟩; rfl⟩
  · simpa using congrArg rsvField h
  · simpa using congrArg tagField h
  · simpa using congrArg varField h
  · simpa using congrArg opField h

end Sys2Proof
end

