-- ==== Sys2Proof/Laws/Memory.lean ====
section
/-! SUPPORT. System memory: a read after a write, and every operation keeps the canonical form. -/

namespace Sys2Proof.Machine.Memory

@[simp] theorem read_nil (a : Nat) : read [] a = unlisted := rfl

/-- A byte below every listed address is unlisted. -/
theorem read_below {lo a : Nat} {m : Memory} (h : wfAbove lo m = true) (ha : a < lo) :
    read m a = unlisted := by
  induction m generalizing lo with
  | nil => rfl
  | cons c rest ih =>
    obtain ⟨b, x⟩ := c
    simp only [wfAbove, Bool.and_eq_true, decide_eq_true_eq] at h
    have hne : a ≠ b := by omega
    simp only [read, hne, if_false]
    exact ih h.2 (by omega)

/-- The byte written is the byte read back, whatever the form of the list. -/
theorem read_write_same {lo : Nat} {m : Memory} (h : wfAbove lo m = true) (a : Nat) (v : Byte) :
    read (write m a v) a = v := by
  induction m generalizing lo with
  | nil => by_cases hv : v = unlisted <;> simp [write, hv, read]
  | cons c rest ih =>
    obtain ⟨b, x⟩ := c
    simp only [wfAbove, Bool.and_eq_true, decide_eq_true_eq] at h
    simp only [write]
    by_cases hlt : a < b
    · have hne : a ≠ b := by omega
      by_cases hv : v = unlisted
      · simp only [hlt, hv, if_true, read, hne, if_false]
        exact read_below h.2 (by omega)
      · simp [hlt, hv, read]
    · by_cases heq : a = b
      · subst heq
        by_cases hv : v = unlisted
        · simp only [hlt, hv, if_true, if_false]
          exact read_below h.2 (by omega)
        · simp [hv, read]
      · simp only [hlt, heq, if_false, read]
        exact ih h.2

/-- A write leaves every other byte alone. -/
theorem read_write_of_ne (m : Memory) {a c : Nat} (hne : c ≠ a) (v : Byte) :
    read (write m a v) c = read m c := by
  induction m with
  | nil => by_cases hv : v = unlisted <;> simp [write, hv, read, hne]
  | cons d rest ih =>
    obtain ⟨b, x⟩ := d
    simp only [write]
    by_cases hlt : a < b
    · by_cases hv : v = unlisted <;> simp [hlt, hv, read, hne]
    · by_cases heq : a = b
      · subst heq
        by_cases hv : v = unlisted <;> simp [hv, read, hne]
      · simp only [hlt, heq, if_false, read, ih]

theorem wfAbove_mono {lo lo' : Nat} {m : Memory} (h : wfAbove lo m = true) (hle : lo' ≤ lo) :
    wfAbove lo' m = true := by
  cases m with
  | nil => rfl
  | cons c rest =>
    obtain ⟨b, x⟩ := c
    simp only [wfAbove, Bool.and_eq_true, decide_eq_true_eq] at h ⊢
    exact ⟨⟨by omega, h.1.2⟩, h.2⟩

theorem wfAbove_write {lo : Nat} {m : Memory} (h : wfAbove lo m = true) {a : Nat} (ha : lo ≤ a) (v : Byte) :
    wfAbove lo (write m a v) = true := by
  induction m generalizing lo with
  | nil => by_cases hv : v = unlisted <;> simp [write, hv, wfAbove, ha]
  | cons c rest ih =>
    obtain ⟨b, x⟩ := c
    have h' := h
    simp only [wfAbove, Bool.and_eq_true, decide_eq_true_eq] at h'
    simp only [write]
    by_cases hlt : a < b
    · by_cases hv : v = unlisted
      · simpa [hlt, hv] using h
      · simp only [hlt, hv, if_true, if_false, wfAbove, Bool.and_eq_true, decide_eq_true_eq]
        exact ⟨⟨ha, hv⟩, ⟨by omega, h'.1.2⟩, h'.2⟩
    · by_cases heq : a = b
      · subst heq
        by_cases hv : v = unlisted
        · simp only [hlt, hv, if_true, if_false]
          exact wfAbove_mono h'.2 (by omega)
        · simp only [hlt, hv, if_true, if_false, wfAbove, Bool.and_eq_true, decide_eq_true_eq]
          exact ⟨⟨ha, hv⟩, h'.2⟩
      · simp only [hlt, heq, if_false, wfAbove, Bool.and_eq_true, decide_eq_true_eq]
        exact ⟨⟨h'.1.1, h'.1.2⟩, ih h'.2 (by omega)⟩

/-- A write keeps the canonical form. -/
theorem wf_write {m : Memory} (h : wf m = true) (a : Nat) (v : Byte) : wf (write m a v) = true :=
  wfAbove_write h (Nat.zero_le a) v

/-- Free bytes keep the canonical form. -/
theorem wf_freeRange (n : Nat) : ∀ (a k : Nat) {m : Memory}, wf m = true → wf (freeRange a n k m) = true := by
  induction n with
  | zero => intro a k m h; exact h
  | succ n ih => intro a k m h; exact ih (a + 1) (k + 1) (wf_write h a _)

/-- A byte outside the range keeps its value when the range takes free bytes. -/
theorem read_freeRange_of_not_mem (n : Nat) :
    ∀ (a k : Nat) (m : Memory) {c : Nat}, c < a ∨ a + n ≤ c → read (freeRange a n k m) c = read m c := by
  induction n with
  | zero => intro a k m c _; rfl
  | succ n ih =>
    intro a k m c hc
    simp only [freeRange]
    rw [ih (a + 1) (k + 1) _ (by omega), read_write_of_ne m (by omega)]

/-- A byte of the range reads as its free byte. -/
theorem read_freeRange_of_mem (n : Nat) :
    ∀ (a k : Nat) {m : Memory} {j : Nat}, wf m = true → j < n →
      read (freeRange a n k m) (a + j) = Config.freeByte (k + j) := by
  induction n with
  | zero => intro a k m j _ hj; omega
  | succ n ih =>
    intro a k m j hw hj
    simp only [freeRange]
    cases j with
    | zero =>
      rw [read_freeRange_of_not_mem _ _ _ _ (by omega)]
      simpa using read_write_same (lo := 0) hw a _
    | succ j =>
      have := ih (a + 1) (k + 1) (j := j) (wf_write hw a (Config.freeByte k)) (by omega)
      rw [show a + (j + 1) = a + 1 + j by omega, show k + (j + 1) = k + 1 + j by omega, this]

/-- Host writes that become visible keep the canonical form. -/
theorem wf_land (cells : List Posted) :
    ∀ (k : Nat) {m : Memory}, wf m = true → wf (land cells k m) = true := by
  induction cells with
  | nil => intro k m h; exact h
  | cons c rest ih => intro k m h; exact ih (k + 1) (wf_write h c.addr _)

/-- A byte no host write names keeps its value when they become visible. -/
theorem read_land_of_not_mem (cells : List Posted) :
    ∀ (k : Nat) (m : Memory) {a : Nat}, (∀ c ∈ cells, c.addr ≠ a) → read (land cells k m) a = read m a := by
  induction cells with
  | nil => intro k m a _; rfl
  | cons c rest ih =>
    intro k m a h
    have hc : a ≠ c.addr := fun e => h c (by simp) e.symm
    rw [land, ih _ _ (fun d hd => h d (by simp [hd])), read_write_of_ne m hc]

/-- Host writes become visible oldest first, so the newest one of a byte is what it holds. -/
theorem land_append (cells more : List Posted) :
    ∀ (k : Nat) (m : Memory), land (cells ++ more) k m = land more (k + cells.length) (land cells k m) := by
  induction cells with
  | nil => intro k m; rfl
  | cons c rest ih =>
    intro k m
    rw [List.cons_append, land, land, ih, List.length_cons, show k + 1 + rest.length = k + (rest.length + 1) by omega]

/-- Storing listed bytes keeps the canonical form. -/
theorem wf_writeBytes (bytes : List Byte) :
    ∀ (a : Nat) {m : Memory}, wf m = true → wf (writeBytes a bytes m) = true := by
  induction bytes with
  | nil => intro a m h; exact h
  | cons b rest ih => intro a m h; exact ih (a + 1) (wf_write h a b)

/-- A write lists no address but its own and those listed before. -/
theorem mem_write {m : Memory} {a : Nat} {v : Byte} {c : Host.Cell} (h : c ∈ write m a v) :
    c ∈ m ∨ c.1 = a := by
  induction m with
  | nil => by_cases hv : v = unlisted <;> simp_all [write]
  | cons d rest ih =>
    obtain ⟨b, x⟩ := d
    simp only [write] at h
    by_cases hlt : a < b
    · by_cases hv : v = unlisted
      · left; simpa [hlt, hv] using h
      · simp only [hlt, hv, if_true, if_false, List.mem_cons] at h
        rcases h with rfl | h
        · exact .inr rfl
        · left; simpa using h
    · by_cases heq : a = b
      · subst heq
        by_cases hv : v = unlisted
        · simp only [hlt, hv, if_true, if_false] at h
          left; simp [h]
        · simp only [hlt, hv, if_true, if_false, List.mem_cons] at h
          rcases h with rfl | h
          · exact .inr rfl
          · left; simp [h]
      · simp only [hlt, heq, if_false, List.mem_cons] at h
        rcases h with rfl | h
        · left; simp
        · rcases ih h with h | h
          · left; simp [h]
          · exact .inr h

/-- Free bytes list no address outside their range that was not listed before. -/
theorem mem_freeRange (n : Nat) :
    ∀ (a k : Nat) {m : Memory} {c : Host.Cell}, c ∈ freeRange a n k m → c ∈ m ∨ (a ≤ c.1 ∧ c.1 < a + n) := by
  induction n with
  | zero => intro a k m c h; exact .inl h
  | succ n ih =>
    intro a k m c h
    rcases ih (a + 1) (k + 1) h with h | h
    · rcases mem_write h with h | h
      · exact .inl h
      · exact .inr (by omega)
    · exact .inr (by omega)

/-- Host writes that become visible list only addresses they name or that were listed before. -/
theorem mem_land (cells : List Posted) :
    ∀ (k : Nat) {m : Memory} {c : Host.Cell}, c ∈ land cells k m → c ∈ m ∨ ∃ d ∈ cells, d.addr = c.1 := by
  induction cells with
  | nil => intro k m c h; exact .inl h
  | cons d rest ih =>
    intro k m c h
    rcases ih (k + 1) h with h | ⟨x, hx, e⟩
    · rcases mem_write h with h | h
      · exact .inl h
      · exact .inr ⟨d, by simp, h.symm⟩
    · exact .inr ⟨x, by simp [hx], e⟩

end Sys2Proof.Machine.Memory
end

