-- ==== Sys2Proof/Laws/State.lean ====
section
/-! SUPPORT. One lemma per field per named update of the state, true by definition, so that no proof
unfolds a record update. -/

namespace Sys2Proof.Machine

/-! ## zeroize -/

@[simp] theorem zeroize_ctrl (s : State) : (zeroize s).ctrl = s.ctrl := rfl
@[simp] theorem zeroize_status (s : State) : (zeroize s).status = s.status := rfl
@[simp] theorem zeroize_intStatus (s : State) : (zeroize s).intStatus = s.intStatus := rfl
@[simp] theorem zeroize_errInfo (s : State) : (zeroize s).errInfo = s.errInfo := rfl
@[simp] theorem zeroize_key (s : State) : (zeroize s).key = s.key := rfl
@[simp] theorem zeroize_nonce (s : State) : (zeroize s).nonce = s.nonce := rfl
@[simp] theorem zeroize_srcAddr (s : State) : (zeroize s).srcAddr = s.srcAddr := rfl
@[simp] theorem zeroize_srcLen (s : State) : (zeroize s).srcLen = s.srcLen := rfl
@[simp] theorem zeroize_dstAddr (s : State) : (zeroize s).dstAddr = s.dstAddr := rfl
@[simp] theorem zeroize_dstLen (s : State) : (zeroize s).dstLen = s.dstLen := rfl
@[simp] theorem zeroize_adAddr (s : State) : (zeroize s).adAddr = s.adAddr := rfl
@[simp] theorem zeroize_adLen (s : State) : (zeroize s).adLen = s.adLen := rfl
@[simp] theorem zeroize_aesrIn (s : State) : (zeroize s).aesrIn = s.aesrIn := rfl
@[simp] theorem zeroize_aesrRk (s : State) : (zeroize s).aesrRk = s.aesrRk := rfl
@[simp] theorem zeroize_aesrOut (s : State) : (zeroize s).aesrOut = s.aesrOut := rfl
@[simp] theorem zeroize_hid (s : State) : (zeroize s).hid = .zero := rfl
@[simp] theorem zeroize_mem (s : State) : (zeroize s).mem = s.mem := rfl
@[simp] theorem zeroize_platform (s : State) : (zeroize s).platform = s.platform := rfl
@[simp] theorem zeroize_posted (s : State) : (zeroize s).posted = s.posted := rfl
@[simp] theorem zeroize_inputs (s : State) : (zeroize s).inputs = s.inputs := rfl
@[simp] theorem zeroize_hostData (s : State) : (zeroize s).hostData = s.hostData := rfl
@[simp] theorem zeroize_freeCount (s : State) : (zeroize s).freeCount = s.freeCount := rfl
@[simp] theorem zeroize_resetHeld (s : State) : (zeroize s).resetHeld = s.resetHeld := rfl

/-! ## complete -/

@[simp] theorem complete_ctrl (e : ErrCode) (p : ErrParam) (v : BitVec 64) (s : State) : (complete e p v s).ctrl = s.ctrl := rfl
@[simp] theorem complete_status (e : ErrCode) (p : ErrParam) (v : BitVec 64) (s : State) : (complete e p v s).status = 
    { s.status with
      busy := false, errCode := e, errParam := p,
      authOk := decide (e = .noError ∧ s.hid.q.op = opDecrypt) } := rfl
@[simp] theorem complete_intStatus (e : ErrCode) (p : ErrParam) (v : BitVec 64) (s : State) : (complete e p v s).intStatus = { s.intStatus with done := true } := rfl
@[simp] theorem complete_errInfo (e : ErrCode) (p : ErrParam) (v : BitVec 64) (s : State) : (complete e p v s).errInfo = v := rfl
@[simp] theorem complete_key (e : ErrCode) (p : ErrParam) (v : BitVec 64) (s : State) : (complete e p v s).key = 
    if decide (e = .noError ∧ s.hid.q.op = opZeroize) then 0 else s.key := rfl
@[simp] theorem complete_nonce (e : ErrCode) (p : ErrParam) (v : BitVec 64) (s : State) : (complete e p v s).nonce = 
    if decide (e = .noError ∧ s.hid.q.op = opZeroize) then 0 else s.nonce := rfl
@[simp] theorem complete_srcAddr (e : ErrCode) (p : ErrParam) (v : BitVec 64) (s : State) : (complete e p v s).srcAddr = s.srcAddr := rfl
@[simp] theorem complete_srcLen (e : ErrCode) (p : ErrParam) (v : BitVec 64) (s : State) : (complete e p v s).srcLen = s.srcLen := rfl
@[simp] theorem complete_dstAddr (e : ErrCode) (p : ErrParam) (v : BitVec 64) (s : State) : (complete e p v s).dstAddr = s.dstAddr := rfl
@[simp] theorem complete_dstLen (e : ErrCode) (p : ErrParam) (v : BitVec 64) (s : State) : (complete e p v s).dstLen = s.dstLen := rfl
@[simp] theorem complete_adAddr (e : ErrCode) (p : ErrParam) (v : BitVec 64) (s : State) : (complete e p v s).adAddr = s.adAddr := rfl
@[simp] theorem complete_adLen (e : ErrCode) (p : ErrParam) (v : BitVec 64) (s : State) : (complete e p v s).adLen = s.adLen := rfl
@[simp] theorem complete_aesrIn (e : ErrCode) (p : ErrParam) (v : BitVec 64) (s : State) : (complete e p v s).aesrIn = 
    if decide (e = .noError ∧ s.hid.q.op = opZeroize) then 0 else s.aesrIn := rfl
@[simp] theorem complete_aesrRk (e : ErrCode) (p : ErrParam) (v : BitVec 64) (s : State) : (complete e p v s).aesrRk = 
    if decide (e = .noError ∧ s.hid.q.op = opZeroize) then 0 else s.aesrRk := rfl
@[simp] theorem complete_aesrOut (e : ErrCode) (p : ErrParam) (v : BitVec 64) (s : State) : (complete e p v s).aesrOut = 
    if decide (e = .noError ∧ s.hid.q.op = opAesround) then aesRound s.hid.q.inp s.hid.q.rk
    else if decide (e = .noError ∧ s.hid.q.op = opZeroize) then 0 else s.aesrOut := rfl
@[simp] theorem complete_hid (e : ErrCode) (p : ErrParam) (v : BitVec 64) (s : State) : (complete e p v s).hid = .zero := rfl
@[simp] theorem complete_mem (e : ErrCode) (p : ErrParam) (v : BitVec 64) (s : State) : (complete e p v s).mem = s.mem := rfl
@[simp] theorem complete_platform (e : ErrCode) (p : ErrParam) (v : BitVec 64) (s : State) : (complete e p v s).platform = s.platform := rfl
@[simp] theorem complete_posted (e : ErrCode) (p : ErrParam) (v : BitVec 64) (s : State) : (complete e p v s).posted = s.posted := rfl
@[simp] theorem complete_inputs (e : ErrCode) (p : ErrParam) (v : BitVec 64) (s : State) : (complete e p v s).inputs = s.inputs := rfl
@[simp] theorem complete_hostData (e : ErrCode) (p : ErrParam) (v : BitVec 64) (s : State) : (complete e p v s).hostData = s.hostData := rfl
@[simp] theorem complete_freeCount (e : ErrCode) (p : ErrParam) (v : BitVec 64) (s : State) : (complete e p v s).freeCount = s.freeCount := rfl
@[simp] theorem complete_resetHeld (e : ErrCode) (p : ErrParam) (v : BitVec 64) (s : State) : (complete e p v s).resetHeld = s.resetHeld := rfl

/-! ## clearReport -/

@[simp] theorem clearReport_ctrl (op : BitVec 4) (s : State) : (clearReport op s).ctrl = s.ctrl := rfl
@[simp] theorem clearReport_status (op : BitVec 4) (s : State) : (clearReport op s).status = 
    { s.status with lastOp := op, errCode := .noError, authOk := false, errParam := .noParam } := rfl
@[simp] theorem clearReport_intStatus (op : BitVec 4) (s : State) : (clearReport op s).intStatus = { s.intStatus with done := false } := rfl
@[simp] theorem clearReport_errInfo (op : BitVec 4) (s : State) : (clearReport op s).errInfo = 0 := rfl
@[simp] theorem clearReport_key (op : BitVec 4) (s : State) : (clearReport op s).key = s.key := rfl
@[simp] theorem clearReport_nonce (op : BitVec 4) (s : State) : (clearReport op s).nonce = s.nonce := rfl
@[simp] theorem clearReport_srcAddr (op : BitVec 4) (s : State) : (clearReport op s).srcAddr = s.srcAddr := rfl
@[simp] theorem clearReport_srcLen (op : BitVec 4) (s : State) : (clearReport op s).srcLen = s.srcLen := rfl
@[simp] theorem clearReport_dstAddr (op : BitVec 4) (s : State) : (clearReport op s).dstAddr = s.dstAddr := rfl
@[simp] theorem clearReport_dstLen (op : BitVec 4) (s : State) : (clearReport op s).dstLen = s.dstLen := rfl
@[simp] theorem clearReport_adAddr (op : BitVec 4) (s : State) : (clearReport op s).adAddr = s.adAddr := rfl
@[simp] theorem clearReport_adLen (op : BitVec 4) (s : State) : (clearReport op s).adLen = s.adLen := rfl
@[simp] theorem clearReport_aesrIn (op : BitVec 4) (s : State) : (clearReport op s).aesrIn = s.aesrIn := rfl
@[simp] theorem clearReport_aesrRk (op : BitVec 4) (s : State) : (clearReport op s).aesrRk = s.aesrRk := rfl
@[simp] theorem clearReport_aesrOut (op : BitVec 4) (s : State) : (clearReport op s).aesrOut = s.aesrOut := rfl
@[simp] theorem clearReport_hid (op : BitVec 4) (s : State) : (clearReport op s).hid = s.hid := rfl
@[simp] theorem clearReport_mem (op : BitVec 4) (s : State) : (clearReport op s).mem = s.mem := rfl
@[simp] theorem clearReport_platform (op : BitVec 4) (s : State) : (clearReport op s).platform = s.platform := rfl
@[simp] theorem clearReport_posted (op : BitVec 4) (s : State) : (clearReport op s).posted = s.posted := rfl
@[simp] theorem clearReport_inputs (op : BitVec 4) (s : State) : (clearReport op s).inputs = s.inputs := rfl
@[simp] theorem clearReport_hostData (op : BitVec 4) (s : State) : (clearReport op s).hostData = s.hostData := rfl
@[simp] theorem clearReport_freeCount (op : BitVec 4) (s : State) : (clearReport op s).freeCount = s.freeCount := rfl
@[simp] theorem clearReport_resetHeld (op : BitVec 4) (s : State) : (clearReport op s).resetHeld = s.resetHeld := rfl

/-! ## withSnapshot -/

@[simp] theorem withSnapshot_ctrl (q : Snapshot) (s : State) : (withSnapshot q s).ctrl = s.ctrl := rfl
@[simp] theorem withSnapshot_status (q : Snapshot) (s : State) : (withSnapshot q s).status = s.status := rfl
@[simp] theorem withSnapshot_intStatus (q : Snapshot) (s : State) : (withSnapshot q s).intStatus = s.intStatus := rfl
@[simp] theorem withSnapshot_errInfo (q : Snapshot) (s : State) : (withSnapshot q s).errInfo = s.errInfo := rfl
@[simp] theorem withSnapshot_key (q : Snapshot) (s : State) : (withSnapshot q s).key = s.key := rfl
@[simp] theorem withSnapshot_nonce (q : Snapshot) (s : State) : (withSnapshot q s).nonce = s.nonce := rfl
@[simp] theorem withSnapshot_srcAddr (q : Snapshot) (s : State) : (withSnapshot q s).srcAddr = s.srcAddr := rfl
@[simp] theorem withSnapshot_srcLen (q : Snapshot) (s : State) : (withSnapshot q s).srcLen = s.srcLen := rfl
@[simp] theorem withSnapshot_dstAddr (q : Snapshot) (s : State) : (withSnapshot q s).dstAddr = s.dstAddr := rfl
@[simp] theorem withSnapshot_dstLen (q : Snapshot) (s : State) : (withSnapshot q s).dstLen = s.dstLen := rfl
@[simp] theorem withSnapshot_adAddr (q : Snapshot) (s : State) : (withSnapshot q s).adAddr = s.adAddr := rfl
@[simp] theorem withSnapshot_adLen (q : Snapshot) (s : State) : (withSnapshot q s).adLen = s.adLen := rfl
@[simp] theorem withSnapshot_aesrIn (q : Snapshot) (s : State) : (withSnapshot q s).aesrIn = s.aesrIn := rfl
@[simp] theorem withSnapshot_aesrRk (q : Snapshot) (s : State) : (withSnapshot q s).aesrRk = s.aesrRk := rfl
@[simp] theorem withSnapshot_aesrOut (q : Snapshot) (s : State) : (withSnapshot q s).aesrOut = s.aesrOut := rfl
@[simp] theorem withSnapshot_hid (q : Snapshot) (s : State) : (withSnapshot q s).hid = { s.hid with q := q } := rfl
@[simp] theorem withSnapshot_mem (q : Snapshot) (s : State) : (withSnapshot q s).mem = s.mem := rfl
@[simp] theorem withSnapshot_platform (q : Snapshot) (s : State) : (withSnapshot q s).platform = s.platform := rfl
@[simp] theorem withSnapshot_posted (q : Snapshot) (s : State) : (withSnapshot q s).posted = s.posted := rfl
@[simp] theorem withSnapshot_inputs (q : Snapshot) (s : State) : (withSnapshot q s).inputs = s.inputs := rfl
@[simp] theorem withSnapshot_hostData (q : Snapshot) (s : State) : (withSnapshot q s).hostData = s.hostData := rfl
@[simp] theorem withSnapshot_freeCount (q : Snapshot) (s : State) : (withSnapshot q s).freeCount = s.freeCount := rfl
@[simp] theorem withSnapshot_resetHeld (q : Snapshot) (s : State) : (withSnapshot q s).resetHeld = s.resetHeld := rfl

/-! ## startRun -/

@[simp] theorem startRun_ctrl (s : State) : (startRun s).ctrl = s.ctrl := rfl
@[simp] theorem startRun_status (s : State) : (startRun s).status = { s.status with busy := true } := rfl
@[simp] theorem startRun_intStatus (s : State) : (startRun s).intStatus = s.intStatus := rfl
@[simp] theorem startRun_errInfo (s : State) : (startRun s).errInfo = s.errInfo := rfl
@[simp] theorem startRun_key (s : State) : (startRun s).key = s.key := rfl
@[simp] theorem startRun_nonce (s : State) : (startRun s).nonce = s.nonce := rfl
@[simp] theorem startRun_srcAddr (s : State) : (startRun s).srcAddr = s.srcAddr := rfl
@[simp] theorem startRun_srcLen (s : State) : (startRun s).srcLen = s.srcLen := rfl
@[simp] theorem startRun_dstAddr (s : State) : (startRun s).dstAddr = s.dstAddr := rfl
@[simp] theorem startRun_dstLen (s : State) : (startRun s).dstLen = s.dstLen := rfl
@[simp] theorem startRun_adAddr (s : State) : (startRun s).adAddr = s.adAddr := rfl
@[simp] theorem startRun_adLen (s : State) : (startRun s).adLen = s.adLen := rfl
@[simp] theorem startRun_aesrIn (s : State) : (startRun s).aesrIn = s.aesrIn := rfl
@[simp] theorem startRun_aesrRk (s : State) : (startRun s).aesrRk = s.aesrRk := rfl
@[simp] theorem startRun_aesrOut (s : State) : (startRun s).aesrOut = s.aesrOut := rfl
@[simp] theorem startRun_hid (s : State) : (startRun s).hid = { s.hid with phase := .start } := rfl
@[simp] theorem startRun_mem (s : State) : (startRun s).mem = s.mem := rfl
@[simp] theorem startRun_platform (s : State) : (startRun s).platform = s.platform := rfl
@[simp] theorem startRun_posted (s : State) : (startRun s).posted = s.posted := rfl
@[simp] theorem startRun_inputs (s : State) : (startRun s).inputs = s.inputs := rfl
@[simp] theorem startRun_hostData (s : State) : (startRun s).hostData = s.hostData := rfl
@[simp] theorem startRun_freeCount (s : State) : (startRun s).freeCount = s.freeCount := rfl
@[simp] theorem startRun_resetHeld (s : State) : (startRun s).resetHeld = s.resetHeld := rfl

/-! ## dropCommand -/

@[simp] theorem dropCommand_ctrl (s : State) : (dropCommand s).ctrl = s.ctrl := rfl
@[simp] theorem dropCommand_status (s : State) : (dropCommand s).status = s.status := rfl
@[simp] theorem dropCommand_intStatus (s : State) : (dropCommand s).intStatus = { s.intStatus with ovr := true } := rfl
@[simp] theorem dropCommand_errInfo (s : State) : (dropCommand s).errInfo = s.errInfo := rfl
@[simp] theorem dropCommand_key (s : State) : (dropCommand s).key = s.key := rfl
@[simp] theorem dropCommand_nonce (s : State) : (dropCommand s).nonce = s.nonce := rfl
@[simp] theorem dropCommand_srcAddr (s : State) : (dropCommand s).srcAddr = s.srcAddr := rfl
@[simp] theorem dropCommand_srcLen (s : State) : (dropCommand s).srcLen = s.srcLen := rfl
@[simp] theorem dropCommand_dstAddr (s : State) : (dropCommand s).dstAddr = s.dstAddr := rfl
@[simp] theorem dropCommand_dstLen (s : State) : (dropCommand s).dstLen = s.dstLen := rfl
@[simp] theorem dropCommand_adAddr (s : State) : (dropCommand s).adAddr = s.adAddr := rfl
@[simp] theorem dropCommand_adLen (s : State) : (dropCommand s).adLen = s.adLen := rfl
@[simp] theorem dropCommand_aesrIn (s : State) : (dropCommand s).aesrIn = s.aesrIn := rfl
@[simp] theorem dropCommand_aesrRk (s : State) : (dropCommand s).aesrRk = s.aesrRk := rfl
@[simp] theorem dropCommand_aesrOut (s : State) : (dropCommand s).aesrOut = s.aesrOut := rfl
@[simp] theorem dropCommand_hid (s : State) : (dropCommand s).hid = s.hid := rfl
@[simp] theorem dropCommand_mem (s : State) : (dropCommand s).mem = s.mem := rfl
@[simp] theorem dropCommand_platform (s : State) : (dropCommand s).platform = s.platform := rfl
@[simp] theorem dropCommand_posted (s : State) : (dropCommand s).posted = s.posted := rfl
@[simp] theorem dropCommand_inputs (s : State) : (dropCommand s).inputs = s.inputs := rfl
@[simp] theorem dropCommand_hostData (s : State) : (dropCommand s).hostData = s.hostData := rfl
@[simp] theorem dropCommand_freeCount (s : State) : (dropCommand s).freeCount = s.freeCount := rfl
@[simp] theorem dropCommand_resetHeld (s : State) : (dropCommand s).resetHeld = s.resetHeld := rfl

/-! ## onHidden -/

@[simp] theorem onHidden_ctrl (f : Hidden → Hidden) (s : State) : (s.onHidden f).ctrl = s.ctrl := rfl
@[simp] theorem onHidden_status (f : Hidden → Hidden) (s : State) : (s.onHidden f).status = s.status := rfl
@[simp] theorem onHidden_intStatus (f : Hidden → Hidden) (s : State) : (s.onHidden f).intStatus = s.intStatus := rfl
@[simp] theorem onHidden_errInfo (f : Hidden → Hidden) (s : State) : (s.onHidden f).errInfo = s.errInfo := rfl
@[simp] theorem onHidden_key (f : Hidden → Hidden) (s : State) : (s.onHidden f).key = s.key := rfl
@[simp] theorem onHidden_nonce (f : Hidden → Hidden) (s : State) : (s.onHidden f).nonce = s.nonce := rfl
@[simp] theorem onHidden_srcAddr (f : Hidden → Hidden) (s : State) : (s.onHidden f).srcAddr = s.srcAddr := rfl
@[simp] theorem onHidden_srcLen (f : Hidden → Hidden) (s : State) : (s.onHidden f).srcLen = s.srcLen := rfl
@[simp] theorem onHidden_dstAddr (f : Hidden → Hidden) (s : State) : (s.onHidden f).dstAddr = s.dstAddr := rfl
@[simp] theorem onHidden_dstLen (f : Hidden → Hidden) (s : State) : (s.onHidden f).dstLen = s.dstLen := rfl
@[simp] theorem onHidden_adAddr (f : Hidden → Hidden) (s : State) : (s.onHidden f).adAddr = s.adAddr := rfl
@[simp] theorem onHidden_adLen (f : Hidden → Hidden) (s : State) : (s.onHidden f).adLen = s.adLen := rfl
@[simp] theorem onHidden_aesrIn (f : Hidden → Hidden) (s : State) : (s.onHidden f).aesrIn = s.aesrIn := rfl
@[simp] theorem onHidden_aesrRk (f : Hidden → Hidden) (s : State) : (s.onHidden f).aesrRk = s.aesrRk := rfl
@[simp] theorem onHidden_aesrOut (f : Hidden → Hidden) (s : State) : (s.onHidden f).aesrOut = s.aesrOut := rfl
@[simp] theorem onHidden_hid (f : Hidden → Hidden) (s : State) : (s.onHidden f).hid = f s.hid := rfl
@[simp] theorem onHidden_mem (f : Hidden → Hidden) (s : State) : (s.onHidden f).mem = s.mem := rfl
@[simp] theorem onHidden_platform (f : Hidden → Hidden) (s : State) : (s.onHidden f).platform = s.platform := rfl
@[simp] theorem onHidden_posted (f : Hidden → Hidden) (s : State) : (s.onHidden f).posted = s.posted := rfl
@[simp] theorem onHidden_inputs (f : Hidden → Hidden) (s : State) : (s.onHidden f).inputs = s.inputs := rfl
@[simp] theorem onHidden_hostData (f : Hidden → Hidden) (s : State) : (s.onHidden f).hostData = s.hostData := rfl
@[simp] theorem onHidden_freeCount (f : Hidden → Hidden) (s : State) : (s.onHidden f).freeCount = s.freeCount := rfl
@[simp] theorem onHidden_resetHeld (f : Hidden → Hidden) (s : State) : (s.onHidden f).resetHeld = s.resetHeld := rfl

/-! ## withInputs -/

@[simp] theorem withInputs_ctrl (evs : List Event) (s : State) : (s.withInputs evs).ctrl = s.ctrl := rfl
@[simp] theorem withInputs_status (evs : List Event) (s : State) : (s.withInputs evs).status = s.status := rfl
@[simp] theorem withInputs_intStatus (evs : List Event) (s : State) : (s.withInputs evs).intStatus = s.intStatus := rfl
@[simp] theorem withInputs_errInfo (evs : List Event) (s : State) : (s.withInputs evs).errInfo = s.errInfo := rfl
@[simp] theorem withInputs_key (evs : List Event) (s : State) : (s.withInputs evs).key = s.key := rfl
@[simp] theorem withInputs_nonce (evs : List Event) (s : State) : (s.withInputs evs).nonce = s.nonce := rfl
@[simp] theorem withInputs_srcAddr (evs : List Event) (s : State) : (s.withInputs evs).srcAddr = s.srcAddr := rfl
@[simp] theorem withInputs_srcLen (evs : List Event) (s : State) : (s.withInputs evs).srcLen = s.srcLen := rfl
@[simp] theorem withInputs_dstAddr (evs : List Event) (s : State) : (s.withInputs evs).dstAddr = s.dstAddr := rfl
@[simp] theorem withInputs_dstLen (evs : List Event) (s : State) : (s.withInputs evs).dstLen = s.dstLen := rfl
@[simp] theorem withInputs_adAddr (evs : List Event) (s : State) : (s.withInputs evs).adAddr = s.adAddr := rfl
@[simp] theorem withInputs_adLen (evs : List Event) (s : State) : (s.withInputs evs).adLen = s.adLen := rfl
@[simp] theorem withInputs_aesrIn (evs : List Event) (s : State) : (s.withInputs evs).aesrIn = s.aesrIn := rfl
@[simp] theorem withInputs_aesrRk (evs : List Event) (s : State) : (s.withInputs evs).aesrRk = s.aesrRk := rfl
@[simp] theorem withInputs_aesrOut (evs : List Event) (s : State) : (s.withInputs evs).aesrOut = s.aesrOut := rfl
@[simp] theorem withInputs_hid (evs : List Event) (s : State) : (s.withInputs evs).hid = s.hid := rfl
@[simp] theorem withInputs_mem (evs : List Event) (s : State) : (s.withInputs evs).mem = s.mem := rfl
@[simp] theorem withInputs_platform (evs : List Event) (s : State) : (s.withInputs evs).platform = s.platform := rfl
@[simp] theorem withInputs_posted (evs : List Event) (s : State) : (s.withInputs evs).posted = s.posted := rfl
@[simp] theorem withInputs_inputs (evs : List Event) (s : State) : (s.withInputs evs).inputs = evs := rfl
@[simp] theorem withInputs_hostData (evs : List Event) (s : State) : (s.withInputs evs).hostData = s.hostData := rfl
@[simp] theorem withInputs_freeCount (evs : List Event) (s : State) : (s.withInputs evs).freeCount = s.freeCount := rfl
@[simp] theorem withInputs_resetHeld (evs : List Event) (s : State) : (s.withInputs evs).resetHeld = s.resetHeld := rfl

/-! ## freeOutput -/

@[simp] theorem freeOutput_ctrl (s : State) : (freeOutput s).ctrl = s.ctrl := rfl
@[simp] theorem freeOutput_status (s : State) : (freeOutput s).status = s.status := rfl
@[simp] theorem freeOutput_intStatus (s : State) : (freeOutput s).intStatus = s.intStatus := rfl
@[simp] theorem freeOutput_errInfo (s : State) : (freeOutput s).errInfo = s.errInfo := rfl
@[simp] theorem freeOutput_key (s : State) : (freeOutput s).key = s.key := rfl
@[simp] theorem freeOutput_nonce (s : State) : (freeOutput s).nonce = s.nonce := rfl
@[simp] theorem freeOutput_srcAddr (s : State) : (freeOutput s).srcAddr = s.srcAddr := rfl
@[simp] theorem freeOutput_srcLen (s : State) : (freeOutput s).srcLen = s.srcLen := rfl
@[simp] theorem freeOutput_dstAddr (s : State) : (freeOutput s).dstAddr = s.dstAddr := rfl
@[simp] theorem freeOutput_dstLen (s : State) : (freeOutput s).dstLen = s.dstLen := rfl
@[simp] theorem freeOutput_adAddr (s : State) : (freeOutput s).adAddr = s.adAddr := rfl
@[simp] theorem freeOutput_adLen (s : State) : (freeOutput s).adLen = s.adLen := rfl
@[simp] theorem freeOutput_aesrIn (s : State) : (freeOutput s).aesrIn = s.aesrIn := rfl
@[simp] theorem freeOutput_aesrRk (s : State) : (freeOutput s).aesrRk = s.aesrRk := rfl
@[simp] theorem freeOutput_aesrOut (s : State) : (freeOutput s).aesrOut = s.aesrOut := rfl
@[simp] theorem freeOutput_hid (s : State) : (freeOutput s).hid = s.hid := rfl
@[simp] theorem freeOutput_mem (s : State) : (freeOutput s).mem =
    Memory.freeRange s.hid.q.dst.toNat s.hid.q.dstLen.toNat s.freeCount s.mem := rfl
@[simp] theorem freeOutput_platform (s : State) : (freeOutput s).platform = s.platform := rfl
@[simp] theorem freeOutput_posted (s : State) : (freeOutput s).posted =
    openPosted s.hid.q.inOutput s.posted := rfl
@[simp] theorem freeOutput_inputs (s : State) : (freeOutput s).inputs = s.inputs := rfl
@[simp] theorem freeOutput_hostData (s : State) : (freeOutput s).hostData = s.hostData := rfl
@[simp] theorem freeOutput_freeCount (s : State) : (freeOutput s).freeCount =
    s.freeCount + s.hid.q.dstLen.toNat := rfl
@[simp] theorem freeOutput_resetHeld (s : State) : (freeOutput s).resetHeld = s.resetHeld := rfl

/-! ## The platform of a reset state (00_scope.md R8) -/

@[simp] theorem resetOn_platform (p : Platform) : (State.resetOn p).platform = p := rfl
@[simp] theorem reset_platform : State.reset.platform = Config.platform := rfl
@[simp] theorem assertReset_platform (s : State) : (assertReset s).platform = s.platform := rfl

/-! ## releaseReset -/

@[simp] theorem releaseReset_ctrl (s : State) : (releaseReset s).ctrl = s.ctrl := rfl
@[simp] theorem releaseReset_status (s : State) : (releaseReset s).status = s.status := rfl
@[simp] theorem releaseReset_intStatus (s : State) : (releaseReset s).intStatus = s.intStatus := rfl
@[simp] theorem releaseReset_errInfo (s : State) : (releaseReset s).errInfo = s.errInfo := rfl
@[simp] theorem releaseReset_key (s : State) : (releaseReset s).key = s.key := rfl
@[simp] theorem releaseReset_nonce (s : State) : (releaseReset s).nonce = s.nonce := rfl
@[simp] theorem releaseReset_srcAddr (s : State) : (releaseReset s).srcAddr = s.srcAddr := rfl
@[simp] theorem releaseReset_srcLen (s : State) : (releaseReset s).srcLen = s.srcLen := rfl
@[simp] theorem releaseReset_dstAddr (s : State) : (releaseReset s).dstAddr = s.dstAddr := rfl
@[simp] theorem releaseReset_dstLen (s : State) : (releaseReset s).dstLen = s.dstLen := rfl
@[simp] theorem releaseReset_adAddr (s : State) : (releaseReset s).adAddr = s.adAddr := rfl
@[simp] theorem releaseReset_adLen (s : State) : (releaseReset s).adLen = s.adLen := rfl
@[simp] theorem releaseReset_aesrIn (s : State) : (releaseReset s).aesrIn = s.aesrIn := rfl
@[simp] theorem releaseReset_aesrRk (s : State) : (releaseReset s).aesrRk = s.aesrRk := rfl
@[simp] theorem releaseReset_aesrOut (s : State) : (releaseReset s).aesrOut = s.aesrOut := rfl
@[simp] theorem releaseReset_hid (s : State) : (releaseReset s).hid = s.hid := rfl
@[simp] theorem releaseReset_mem (s : State) : (releaseReset s).mem = s.mem := rfl
@[simp] theorem releaseReset_platform (s : State) : (releaseReset s).platform = s.platform := rfl
@[simp] theorem releaseReset_posted (s : State) : (releaseReset s).posted = s.posted := rfl
@[simp] theorem releaseReset_inputs (s : State) : (releaseReset s).inputs = s.inputs := rfl
@[simp] theorem releaseReset_hostData (s : State) : (releaseReset s).hostData = s.hostData := rfl
@[simp] theorem releaseReset_freeCount (s : State) : (releaseReset s).freeCount = s.freeCount := rfl
@[simp] theorem releaseReset_resetHeld (s : State) : (releaseReset s).resetHeld = false := rfl

/-! ## takeSnapshot reads registers only -/

@[simp] theorem takeSnapshot_clearReport (o op var : BitVec 4) (tau : BitVec 8) (s : State) :
    takeSnapshot op var tau (clearReport o s) = takeSnapshot op var tau s := rfl

@[simp] theorem takeSnapshot_withInputs (evs : List Event) (op var : BitVec 4) (tau : BitVec 8) (s : State) :
    takeSnapshot op var tau (s.withInputs evs) = takeSnapshot op var tau s := rfl

@[simp] theorem takeSnapshot_op (op var : BitVec 4) (tau : BitVec 8) (s : State) :
    (takeSnapshot op var tau s).op = op := rfl

@[simp] theorem takeSnapshot_var (op var : BitVec 4) (tau : BitVec 8) (s : State) :
    (takeSnapshot op var tau s).var = var := rfl

@[simp] theorem takeSnapshot_tau (op var : BitVec 4) (tau : BitVec 8) (s : State) :
    (takeSnapshot op var tau s).tau = tau := rfl

/-! ## Writing a register leaves everything that is not its register -/

@[simp] theorem writeReg_status (r : Reg) (v : Word) (s : State) : (writeReg r v s).status = s.status := by
  cases r <;> rfl

@[simp] theorem writeReg_errInfo (r : Reg) (v : Word) (s : State) : (writeReg r v s).errInfo = s.errInfo := by
  cases r <;> rfl

@[simp] theorem writeReg_aesrOut (r : Reg) (v : Word) (s : State) : (writeReg r v s).aesrOut = s.aesrOut := by
  cases r <;> rfl

@[simp] theorem writeReg_hid (r : Reg) (v : Word) (s : State) : (writeReg r v s).hid = s.hid := by
  cases r <;> rfl

@[simp] theorem writeReg_mem (r : Reg) (v : Word) (s : State) : (writeReg r v s).mem = s.mem := by
  cases r <;> rfl

@[simp] theorem writeReg_platform (r : Reg) (v : Word) (s : State) :
    (writeReg r v s).platform = s.platform := by
  cases r <;> rfl

@[simp] theorem writeReg_posted (r : Reg) (v : Word) (s : State) : (writeReg r v s).posted = s.posted := by
  cases r <;> rfl

@[simp] theorem writeReg_inputs (r : Reg) (v : Word) (s : State) : (writeReg r v s).inputs = s.inputs := by
  cases r <;> rfl

@[simp] theorem writeReg_hostData (r : Reg) (v : Word) (s : State) :
    (writeReg r v s).hostData = s.hostData := by
  cases r <;> rfl

@[simp] theorem writeReg_freeCount (r : Reg) (v : Word) (s : State) :
    (writeReg r v s).freeCount = s.freeCount := by
  cases r <;> rfl

@[simp] theorem writeReg_resetHeld (r : Reg) (v : Word) (s : State) :
    (writeReg r v s).resetHeld = s.resetHeld := by
  cases r <;> rfl

end Sys2Proof.Machine
end

