-- ==== Sys2Proof/Laws/Ops.lean ====
section
/-! SUPPORT. What each shared operation can answer, said once. -/

namespace Sys2Proof.Machine

/-! ## DMA accesses -/

/-- A DMA read that answers a next state was refused by the platform, or read a byte not visible before CMD, or
read memory (20_memory.md R96, R105, R106). -/
theorem dmaRead_next {a : Nat} {s t : State} {k : Byte → State → State} (h : dmaRead a s k = .next t) :
    a < Config.addrSpace ∧
      ((s.platform.memOK a .read = false ∧ t = raiseBus a s) ∨
       (s.platform.memOK a .read = true ∧ s.platform.isDevice a = false ∧
          ((s.unseen a = true ∧
              t = k (Config.freeByte s.freeCount) { s with freeCount := s.freeCount + 1 }) ∨
           (s.unseen a = false ∧ t = k (Memory.read s.mem a) s)))) := by
  unfold dmaRead at h
  split at h
  · cases h
  split at h
  · cases h; exact ⟨by omega, .inl ⟨by simp_all, rfl⟩⟩
  split at h
  · cases h
  split at h
  · cases h; exact ⟨by omega, .inr ⟨by simp_all, by simp_all, .inl ⟨by assumption, rfl⟩⟩⟩
  · cases h; exact ⟨by omega, .inr ⟨by simp_all, by simp_all, .inr ⟨by simp_all, rfl⟩⟩⟩

/-- A DMA write that answers a next state was refused by the platform, or stored its byte. -/
theorem dmaWrite_next {a : Nat} {v : Byte} {s t : State} {k : State → State}
    (h : dmaWrite a v s k = .next t) :
    a < Config.addrSpace ∧
      ((s.platform.memOK a .write = false ∧ t = raiseBus a s) ∨
       (s.platform.memOK a .write = true ∧ s.platform.isDevice a = false ∧
          t = k { s with mem := Memory.write s.mem a v, posted := openPosted (fun b => b = a) s.posted })) := by
  unfold dmaWrite at h
  split at h
  · cases h
  split at h
  · cases h; exact ⟨by omega, .inl ⟨by simp_all, rfl⟩⟩
  split at h
  · cases h
  · cases h; exact ⟨by omega, .inr ⟨by simp_all, by simp_all, rfl⟩⟩

/-- A DMA read of a served, visible byte. -/
theorem dmaRead_served {a : Nat} {s : State} (k : Byte → State → State) (ha : a < Config.addrSpace)
    (hok : s.platform.memOK a .read = true) (hdev : s.platform.isDevice a = false)
    (hvis : s.unseen a = false) : dmaRead a s k = .next (k (Memory.read s.mem a) s) := by
  have : ¬ Config.addrSpace ≤ a := by omega
  simp [dmaRead, this, hok, hdev, hvis]

/-- A DMA write of a served byte. -/
theorem dmaWrite_served {a : Nat} {s : State} (v : Byte) (k : State → State) (ha : a < Config.addrSpace)
    (hok : s.platform.memOK a .write = true) (hdev : s.platform.isDevice a = false) :
    dmaWrite a v s k =
      .next (k { s with mem := Memory.write s.mem a v, posted := openPosted (fun b => b = a) s.posted }) := by
  have : ¬ Config.addrSpace ≤ a := by omega
  simp [dmaWrite, this, hok, hdev]

/-! ## Host writes not yet visible (20_memory.md R105, log 6) -/

/-- Opening the value of a host write leaves it waiting at its address. -/
@[simp] theorem isPosted_openPosted (p : Nat → Bool) (cells : List Posted) (a : Nat) :
    isPosted (openPosted p cells) a = isPosted cells a := by
  induction cells with
  | nil => rfl
  | cons c rest ih =>
    simp only [isPosted, openPosted, List.map_cons, List.any_cons] at ih ⊢
    rw [ih]
    split <;> rfl

/-- A host write that still waits is an older one, whole or, at an address of `p`, with its value open. -/
theorem mem_openPosted {p : Nat → Bool} {cells : List Posted} {c : Posted} (h : c ∈ openPosted p cells) :
    ∃ d ∈ cells, d.addr = c.addr ∧ (c = d ∨ (p d.addr = true ∧ c.value = none)) := by
  simp only [openPosted, List.mem_map] at h
  obtain ⟨d, hd, rfl⟩ := h
  refine ⟨d, hd, ?_⟩
  split
  · next hp => exact ⟨rfl, .inr ⟨hp, rfl⟩⟩
  · exact ⟨rfl, .inl rfl⟩

/-! ## The register window -/

/-- Above the last register every offset is reserved (10_state.md R54). -/
theorem regAt_high {off : Nat} (h : 0x0E0 ≤ off) : regAt off = .reserved := by
  have hn : ∀ k, k < 0x0E0 → off ≠ k := by omega
  have hl : ∀ k, k ≤ 0x0E0 → ¬ off < k := by omega
  simp [regAt, hn, hl]

/-- A property of aligned offsets holds if it holds of the 56 words of the register map and above. -/
theorem forall_offset {P : Nat → Prop} (low : ∀ k, k < 56 → P (4 * k)) (high : ∀ off, 0x0E0 ≤ off → P off)
    {off : Nat} (h : off % 4 = 0) : P off := by
  by_cases hlt : off < 0x0E0
  · have := low (off / 4) (by omega)
    rwa [show 4 * (off / 4) = off by omega] at this
  · exact high off (by omega)

/-- The port takes every aligned 32-bit access inside the window (20_memory.md R90). -/
theorem portAccepts_of {off : Nat} (h4 : off % 4 = 0) (hlt : off < 4096) : portAccepts off 32 = true := by
  simp [portAccepts, Config.regWindow, h4, hlt]

/-! ## Acceptance -/

/-- Acceptance completes with CONTRACT at the check that fails, or starts the run (46_commands.md R321). -/
theorem accept_cases (op var : BitVec 4) (tau : BitVec 8) (check : Snapshot → Option (ErrParam × BitVec 64))
    (s : State) :
    (∃ p v, check (takeSnapshot op var tau s) = some (p, v) ∧
        accept op var tau check s =
          complete .contract p v (withSnapshot (takeSnapshot op var tau s) (clearReport op s))) ∨
      (check (takeSnapshot op var tau s) = none ∧
        accept op var tau check s =
          startRun (withSnapshot (takeSnapshot op var tau s) (clearReport op s))) := by
  unfold accept
  simp only [takeSnapshot_clearReport]
  split
  · next p v h => exact .inl ⟨p, v, h, rfl⟩
  · next h => exact .inr ⟨h, rfl⟩

/-! ## The run -/

/-- One step of the run, by the access it makes (46_commands.md R322). -/
theorem streamStep_next {e : Engine} {d : Direction} {s t : State} (h : streamStep e d s = .next t) :
    (∃ a, upcoming e d s = .read a ∧
        dmaRead a (s.onHidden (settle e d)) (fun b s2 => s2.onHidden (afterRead e d b)) = .next t) ∨
      (∃ a v, upcoming e d s = .write a v ∧
        dmaWrite a v (s.onHidden (settle e d)) (fun s2 => s2.onHidden (afterWrite e d)) = .next t) ∨
      (∃ c, upcoming e d s = .finish c ∧ t = complete c .noParam 0 (s.onHidden (settle e d))) := by
  simp only [streamStep, onHidden_hid] at h
  simp only [upcoming]
  split at h
  · next a ha => exact .inl ⟨a, ha, h⟩
  · next a v ha => exact .inr (.inl ⟨a, v, ha, h⟩)
  · next c hc => cases h; exact .inr (.inr ⟨c, hc, rfl⟩)
  · cases h

/-- The four ENCRYPT and DECRYPT commands are the engine's stream command. -/
theorem exec_streamInstr (e : Engine) (d : Direction) (tau : Nat) (s : State) :
    exec (streamInstr e d tau) s = streamCommand e d tau s := by
  cases e <;> cases d <;> rfl

/-- A BUSY core runs the next step of the command. -/
theorem streamCommand_busy (e : Engine) (d : Direction) (tau : Nat) {s : State}
    (h : s.status.busy = true) : streamCommand e d tau s = streamStep e d s := by
  simp [streamCommand, h]

/-- An idle core accepts the command. -/
theorem streamCommand_idle (e : Engine) (d : Direction) (tau : Nat) {s : State}
    (h : s.status.busy = false) :
    streamCommand e d tau s = .next (accept d.op e.var (BitVec.ofNat 8 tau) (contractCheck d) s) := by
  simp [streamCommand, h]

/-! ## The computation between accesses keeps the snapshot and the late bytes -/

@[simp] theorem atPhase_q (p : Phase) (h : Hidden) : (h.atPhase p).q = h.q := rfl
@[simp] theorem atPhase_p (p : Phase) (h : Hidden) : (h.atPhase p).p = h.p := rfl
@[simp] theorem atPhase_lanes (p : Phase) (h : Hidden) : (h.atPhase p).lanes = h.lanes := rfl
@[simp] theorem atPhase_phase (p : Phase) (h : Hidden) : (h.atPhase p).phase = p := rfl

@[simp] theorem enterTag_q (e : Engine) (d : Direction) (h : Hidden) : (enterTag e d h).q = h.q := rfl

@[simp] theorem enterMsg_q (e : Engine) (d : Direction) (i : Nat) (h : Hidden) :
    (enterMsg e d i h).q = h.q := by
  unfold enterMsg; split <;> rfl

@[simp] theorem enterAd_q (e : Engine) (d : Direction) (i : Nat) (h : Hidden) :
    (enterAd e d i h).q = h.q := by
  unfold enterAd; split
  · rfl
  · exact enterMsg_q e d 0 h

@[simp] theorem absorbChunk_q (e : Engine) (n : Nat) (h : Hidden) : (absorbChunk e n h).q = h.q := by
  unfold absorbChunk; split <;> rfl

@[simp] theorem cryptBlock_q (e : Engine) (d : Direction) (n : Nat) (h : Hidden) :
    (cryptBlock e d n h).q = h.q := by
  cases d <;> simp only [cryptBlock] <;> split <;> rfl

@[simp] theorem verifyTag_q (d : Direction) (h : Hidden) : (verifyTag d h).q = h.q := by
  unfold verifyTag; split
  · rfl
  · split <;> rfl

/-- The computation never changes the snapshot (10_state.md R60). -/
@[simp] theorem settle_q (e : Engine) (d : Direction) (h : Hidden) : (settle e d h).q = h.q := by
  unfold settle
  split <;> simp [initialize128or256]

@[simp] theorem afterRead_q (e : Engine) (d : Direction) (b : Byte) (h : Hidden) :
    (afterRead e d b h).q = h.q := by
  unfold afterRead
  split <;> rfl

@[simp] theorem afterWrite_q (e : Engine) (d : Direction) (h : Hidden) : (afterWrite e d h).q = h.q := by
  unfold afterWrite
  split <;> rfl

@[simp] theorem atPhase_late (p : Phase) (h : Hidden) : (h.atPhase p).late = h.late := rfl

@[simp] theorem enterTag_late (e : Engine) (d : Direction) (h : Hidden) : (enterTag e d h).late = h.late := rfl

@[simp] theorem enterMsg_late (e : Engine) (d : Direction) (i : Nat) (h : Hidden) :
    (enterMsg e d i h).late = h.late := by
  unfold enterMsg; split <;> rfl

@[simp] theorem enterAd_late (e : Engine) (d : Direction) (i : Nat) (h : Hidden) :
    (enterAd e d i h).late = h.late := by
  unfold enterAd; split
  · rfl
  · exact enterMsg_late e d 0 h

@[simp] theorem absorbChunk_late (e : Engine) (n : Nat) (h : Hidden) : (absorbChunk e n h).late = h.late := by
  unfold absorbChunk; split <;> rfl

@[simp] theorem cryptBlock_late (e : Engine) (d : Direction) (n : Nat) (h : Hidden) :
    (cryptBlock e d n h).late = h.late := by
  cases d <;> simp only [cryptBlock] <;> split <;> rfl

@[simp] theorem verifyTag_late (d : Direction) (h : Hidden) : (verifyTag d h).late = h.late := by
  unfold verifyTag; split
  · rfl
  · split <;> rfl

@[simp] theorem settle_late (e : Engine) (d : Direction) (h : Hidden) : (settle e d h).late = h.late := by
  unfold settle
  split <;> simp [initialize128or256]

@[simp] theorem afterRead_late (e : Engine) (d : Direction) (b : Byte) (h : Hidden) :
    (afterRead e d b h).late = h.late := by
  unfold afterRead
  split <;> rfl

@[simp] theorem afterWrite_late (e : Engine) (d : Direction) (h : Hidden) : (afterWrite e d h).late = h.late := by
  unfold afterWrite
  split <;> rfl

/-! ## A running ENCRYPT or DECRYPT -/

/-- The snapshot of an ENCRYPT or DECRYPT decodes to its command. -/
theorem decode_streamWord (e : Engine) (d : Direction) (tau : BitVec 8) :
    decode (assembleWord 0#16 tau e.var d.op) = .command (streamInstr e d tau.toNat) := by
  cases e <;> cases d <;>
    simp [decode, Engine.var, Direction.op, streamInstr, var128, var256, opEncrypt, opDecrypt]

/-- The completion of ENCRYPT or DECRYPT changes no register but the report. -/
theorem complete_stream {d : Direction} {s : State} (ho : s.hid.q.op = d.op) (c : ErrCode) (p : ErrParam)
    (v : BitVec 64) :
    complete c p v s = reported c s.status.lastOp (decide (c = .noError ∧ d = .decrypt)) p v s := by
  have h3 : s.hid.q.op ≠ opAesround := by rw [ho]; cases d <;> decide
  have h4 : s.hid.q.op ≠ opZeroize := by rw [ho]; cases d <;> decide
  have h5 : (s.hid.q.op = opDecrypt) = (d = .decrypt) := by
    rw [ho]; cases d <;> simp [Direction.op, opEncrypt, opDecrypt]
  simp [complete, reported, h3, h4, h5]

/-- A refused access completes with BUS, the output range free (20_memory.md R106). -/
theorem raiseBus_eq (a : Nat) (s : State) :
    raiseBus a s =
      reported .bus s.status.lastOp false .noParam (BitVec.ofNat 64 a) (freeOutput s) := by
  simp [raiseBus, complete, reported]

/-- A step whose access is a read. -/
theorem streamStep_read {e : Engine} {d : Direction} {s : State} {a : Nat} (h : upcoming e d s = .read a) :
    streamStep e d s =
      dmaRead a (s.onHidden (settle e d)) fun b s2 => s2.onHidden (afterRead e d b) := by
  unfold upcoming at h
  simp only [streamStep, onHidden_hid, h]

/-- A step whose access is a write. -/
theorem streamStep_write {e : Engine} {d : Direction} {s : State} {a : Nat} {v : Byte}
    (h : upcoming e d s = .write a v) :
    streamStep e d s = dmaWrite a v (s.onHidden (settle e d)) fun s2 => s2.onHidden (afterWrite e d) := by
  unfold upcoming at h
  simp only [streamStep, onHidden_hid, h]

/-- A step that completes. -/
theorem streamStep_finish {e : Engine} {d : Direction} {s : State} {c : ErrCode}
    (h : upcoming e d s = .finish c) :
    streamStep e d s = .next (complete c .noParam 0 (s.onHidden (settle e d))) := by
  unfold upcoming at h
  simp only [streamStep, onHidden_hid, h]

end Sys2Proof.Machine
end

