-- ==== Sys2Proof/Laws/PerInstr.lean ====
section
/-! SUPPORT. Per-instruction families.  `WordFields`: the four fields of an instruction's command word are
its OP, VAR and TAGLEN, with RSV zero (30_encoding.md R120, R125, R129). -/

namespace Sys2Proof.Laws.WordFields

/-- The fields of the instruction's word. -/
def Statement (i : Instr) : Prop :=
  opField (encode i) = i.op ∧ varField (encode i) = i.var ∧ tagField (encode i) = i.tag ∧
    rsvField (encode i) = 0#16

theorem encrypt128 (tau : Nat) : Statement (.encrypt128 tau) := by simp [Statement, encode]
theorem encrypt256 (tau : Nat) : Statement (.encrypt256 tau) := by simp [Statement, encode]
theorem decrypt128 (tau : Nat) : Statement (.decrypt128 tau) := by simp [Statement, encode]
theorem decrypt256 (tau : Nat) : Statement (.decrypt256 tau) := by simp [Statement, encode]
theorem aesround : Statement .aesround := by simp [Statement, encode]
theorem zeroize : Statement .zeroize := by simp [Statement, encode]

end Sys2Proof.Laws.WordFields
end

