-- ==== Sys2Proof/Laws/Run.lean ====
section
/-! SUPPORT. The sequencer, phase by phase: what the settled computation leaves in each hidden field, and
where an access leaves the sequencer (20_memory.md R102, 46_commands.md R322). -/

namespace Sys2Proof.Machine

/-! ## Where the computation leaves the sequencer -/

theorem enterMsg_phase (e : Engine) (d : Direction) (i : Nat) (h : Hidden) :
    (enterMsg e d i h).phase = if i < h.q.msgLen d then .msgRead i else .tag 0 := by
  unfold enterMsg; split <;> rfl

theorem enterAd_phase (e : Engine) (d : Direction) (i : Nat) (h : Hidden) :
    (enterAd e d i h).phase =
      if i < h.q.adLen.toNat then .adRead i else if 0 < h.q.msgLen d then .msgRead 0 else .tag 0 := by
  unfold enterAd; split
  · rfl
  · exact enterMsg_phase e d 0 h

theorem verifyTag_phase (d : Direction) (h : Hidden) :
    (verifyTag d h).phase =
      if ctEqual h.q.tau.toNat h.t h.e then .finish .noError
      else if 0 < h.q.msgLen d then .wipe 0 else .finish .auth := by
  unfold verifyTag; split
  · rfl
  · split <;> rfl

/-- The sequencer after the computation due, for every phase. -/
theorem settle_phase (e : Engine) (d : Direction) (h : Hidden) :
    (settle e d h).phase =
      match h.phase with
      | .idle => .idle
      | .start =>
        if 0 < h.q.adLen.toNat then .adRead 0 else if 0 < h.q.msgLen d then .msgRead 0 else .tag 0
      | .adRead i => .adRead i
      | .adChunk n =>
        if n < h.q.adLen.toNat then .adRead n else if 0 < h.q.msgLen d then .msgRead 0 else .tag 0
      | .msgRead i => .msgRead i
      | .msgBlock n => .msgWrite (blockStart e n)
      | .msgWrite i => .msgWrite i
      | .msgNext n => if n < h.q.msgLen d then .msgRead n else .tag 0
      | .tag j => .tag j
      | .verify =>
        if ctEqual h.q.tau.toNat h.t h.e then .finish .noError
        else if 0 < h.q.msgLen d then .wipe 0 else .finish .auth
      | .wipe i => .wipe i
      | .finish c => .finish c := by
  cases hp : h.phase <;> simp only [settle, hp]
  · simp [enterAd_phase, initialize128or256]
  · simp [enterAd_phase]
  · rfl
  · simp [enterMsg_phase]
  · simp [verifyTag_phase]

/-! ## The pad buffer is wiped, and Engine-256 keeps its last two lanes -/

@[simp] theorem enterTag_p (e : Engine) (d : Direction) (h : Hidden) : (enterTag e d h).p = h.p := rfl

@[simp] theorem enterMsg_p (e : Engine) (d : Direction) (i : Nat) (h : Hidden) :
    (enterMsg e d i h).p = h.p := by
  unfold enterMsg; split <;> rfl

@[simp] theorem enterAd_p (e : Engine) (d : Direction) (i : Nat) (h : Hidden) :
    (enterAd e d i h).p = h.p := by
  unfold enterAd; split
  · rfl
  · exact enterMsg_p e d 0 h

/-- No step leaves the pad buffer nonzero (42_absorb.md R214). -/
theorem settle_p (e : Engine) (d : Direction) {h : Hidden} (hz : h.p = 0) : (settle e d h).p = 0 := by
  cases hp : h.phase <;> simp only [settle, hp] <;>
    first
    | exact hz
    | (simp only [enterAd_p, enterMsg_p]; first | exact hz | (unfold absorbChunk; split <;> first | exact hz | rfl))
    | (cases d <;> simp only [cryptBlock] <;> split <;> first | exact hz | rfl)
    | (unfold verifyTag; split <;> first | exact hz | (split <;> exact hz))

/-- Lanes 6 and 7 are zero. -/
def Lanes.shortZero (l : Lanes) : Prop := l.s6 = 0 ∧ l.s7 = 0

/-- A function that leaves lanes 6 and 7 zero, repeated. -/
theorem repeatLanes_shortZero (f : Lanes → Lanes) (hf : ∀ l, l.shortZero → (f l).shortZero) (n : Nat) :
    ∀ l : Lanes, l.shortZero → (repeatLanes f n l).shortZero := by
  induction n with
  | zero => intro l h; exact h
  | succ n ih => intro l h; exact ih (f l) (hf l h)

theorem init256_shortZero (k n : Wide) {l : Lanes} (h : l.shortZero) : (init256 k n l).shortZero :=
  repeatLanes_shortZero (initRound256 k n) (fun _ h => h) 4 (seed256 k n l) h

theorem stir256_shortZero (len : Block) {l : Lanes} (h : l.shortZero) : (stir256 len l).shortZero :=
  repeatLanes_shortZero (update256 (l.s3 ^^^ len)) (fun _ h => h) 7 l h

theorem enterMsg256_shortZero (d : Direction) (i : Nat) {h : Hidden} (hl : h.lanes.shortZero) :
    (enterMsg .e256 d i h).lanes.shortZero := by
  unfold enterMsg; split
  · exact hl
  · exact stir256_shortZero _ hl

theorem enterAd256_shortZero (d : Direction) (i : Nat) {h : Hidden} (hl : h.lanes.shortZero) :
    (enterAd .e256 d i h).lanes.shortZero := by
  unfold enterAd; split
  · exact hl
  · exact enterMsg256_shortZero d 0 hl

/-- Engine-256 never makes lanes 6 and 7 nonzero (41_update_init.md R190). -/
theorem settle256_shortZero (d : Direction) {h : Hidden} (hl : h.lanes.shortZero) :
    (settle .e256 d h).lanes.shortZero := by
  cases hp : h.phase <;> simp only [settle, hp] <;> try exact hl
  · exact enterAd256_shortZero d 0 (init256_shortZero _ _ hl)
  · apply enterAd256_shortZero
    unfold absorbChunk; split <;> exact hl
  · cases d <;> simp only [cryptBlock] <;> split <;> exact hl
  · exact enterMsg256_shortZero d _ hl
  · unfold verifyTag; split
    · exact hl
    · split <;> exact hl

/-! ## What an access leaves -/

@[simp] theorem afterRead_p (e : Engine) (d : Direction) (b : Byte) (h : Hidden) :
    (afterRead e d b h).p = h.p := by
  unfold afterRead; split <;> rfl

@[simp] theorem afterRead_lanes (e : Engine) (d : Direction) (b : Byte) (h : Hidden) :
    (afterRead e d b h).lanes = h.lanes := by
  unfold afterRead; split <;> rfl

@[simp] theorem afterRead_t (e : Engine) (d : Direction) (b : Byte) (h : Hidden) :
    (afterRead e d b h).t = h.t := by
  unfold afterRead; split <;> rfl

@[simp] theorem afterWrite_p (e : Engine) (d : Direction) (h : Hidden) : (afterWrite e d h).p = h.p := by
  unfold afterWrite; split <;> rfl

@[simp] theorem afterWrite_lanes (e : Engine) (d : Direction) (h : Hidden) :
    (afterWrite e d h).lanes = h.lanes := by
  unfold afterWrite; split <;> rfl

/-- The sequencer after a read. -/
theorem afterRead_phase (e : Engine) (d : Direction) (b : Byte) (h : Hidden) :
    (afterRead e d b h).phase =
      match h.phase with
      | .adRead i => if endsBlock e i h.q.adLen.toNat then .adChunk (i + 1) else .adRead (i + 1)
      | .msgRead i => if endsBlock e i (h.q.msgLen d) then .msgBlock (i + 1) else .msgRead (i + 1)
      | .tag j => if j + 1 = h.q.tau.toNat then .verify else .tag (j + 1)
      | p => p := by
  cases hp : h.phase <;> simp only [afterRead, hp]

/-- The sequencer after a write. -/
theorem afterWrite_phase (e : Engine) (d : Direction) (h : Hidden) :
    (afterWrite e d h).phase =
      match h.phase with
      | .msgWrite i => if endsBlock e i (h.q.msgLen d) then .msgNext (i + 1) else .msgWrite (i + 1)
      | .tag j => if j + 1 = h.q.tau.toNat then .finish .noError else .tag (j + 1)
      | .wipe i => if i + 1 = h.q.msgLen d then .finish .auth else .wipe (i + 1)
      | p => p := by
  cases hp : h.phase <;> simp only [afterWrite, hp, atPhase_phase]

/-! ## Which access comes next -/

/-- A read comes next exactly in the reading phases, at the address of their byte. -/
theorem nextAccess_read {e : Engine} {d : Direction} {h : Hidden} {a : Nat}
    (hr : nextAccess e d h = .read a) :
    (∃ i, h.phase = .adRead i ∧ a = h.q.ad.toNat + i) ∨
      (∃ i, h.phase = .msgRead i ∧ a = h.q.src.toNat + i) ∨
      (∃ j, h.phase = .tag j ∧ d = .decrypt ∧ a = h.q.src.toNat + h.q.msgLen d + j) := by
  unfold nextAccess at hr
  cases hp : h.phase <;> simp only [hp] at hr
  all_goals first
    | (cases hr; done)
    | (cases hr; exact .inl ⟨_, rfl, rfl⟩)
    | (cases hr; exact .inr (.inl ⟨_, rfl, rfl⟩))
    | (cases d <;> cases hr; exact .inr (.inr ⟨_, rfl, rfl, rfl⟩))

/-- A write comes next exactly in the writing phases, with their address and byte. -/
theorem nextAccess_write {e : Engine} {d : Direction} {h : Hidden} {a : Nat} {v : Byte}
    (hw : nextAccess e d h = .write a v) :
    (∃ i, h.phase = .msgWrite i ∧ a = h.q.dst.toNat + i ∧ v = byteAt h.buf (i % e.rate)) ∨
      (∃ j, h.phase = .tag j ∧ d = .encrypt ∧ a = h.q.dst.toNat + h.q.msgLen d + j ∧ v = byteAt h.t j) ∨
      (∃ i, h.phase = .wipe i ∧ a = h.q.dst.toNat + i ∧ v = 0) := by
  unfold nextAccess at hw
  cases hp : h.phase <;> simp only [hp] at hw
  all_goals first
    | (cases hw; done)
    | (cases hw; exact .inl ⟨_, rfl, rfl, rfl⟩)
    | (cases hw; exact .inr (.inr ⟨_, rfl, rfl, rfl⟩))
    | (cases d <;> cases hw; exact .inr (.inl ⟨_, rfl, rfl, rfl, rfl⟩))

/-- The completion comes next exactly when every access is done. -/
theorem nextAccess_finish {e : Engine} {d : Direction} {h : Hidden} {c : ErrCode}
    (hf : nextAccess e d h = .finish c) : h.phase = .finish c := by
  unfold nextAccess at hf
  cases hp : h.phase <;> simp only [hp] at hf
  all_goals first
    | (cases hf; done)
    | (cases hf; rfl)
    | (cases d <;> cases hf)

/-! ## The places of the access sequence -/

/-- The settled sequencer stands at an access or at the completion, inside the lengths. -/
theorem settle_phaseOk {e : Engine} {d : Direction} {h : Hidden} (ht : 0 < h.q.tau.toNat)
    (ho : phaseOk e d h) :
    phaseOk e d (settle e d h) ∨
      (∃ c, (settle e d h).phase = .finish c ∧ d = .decrypt ∧ (c = .noError ∨ c = .auth)) := by
  have hq := settle_q e d h
  have hp := settle_phase e d h
  unfold phaseOk at ho ⊢
  simp only [hq]
  rw [hp]
  cases hph : h.phase <;> simp only [hph] at ho ⊢
  all_goals first
    | exact ho.elim
    | exact .inl ho
    | (left; split_ifs <;> first | assumption | omega)
    | skip
  · left
    have hr : 0 < e.rate := by cases e <;> decide
    exact Nat.lt_of_lt_of_le (Nat.lt_of_le_of_lt (Nat.div_mul_le_self _ _) (by omega)) ho.2.1
  · subst ho
    split_ifs with h1 h2
    · exact .inr ⟨_, rfl, rfl, .inl rfl⟩
    · exact .inl ⟨rfl, h2⟩
    · exact .inr ⟨_, rfl, rfl, .inr rfl⟩

/-- The wipe phase is entered from the comparison, at its first byte, or was already there. -/
theorem settle_wipe {e : Engine} {d : Direction} {h : Hidden} {i : Nat}
    (hw : (settle e d h).phase = .wipe i) : h.phase = .wipe i ∨ (h.phase = .verify ∧ i = 0) := by
  rw [settle_phase] at hw
  cases hp : h.phase <;> simp only [hp] at hw <;>
    first
    | (left; exact hw)
    | (cases hw; done)
    | (split_ifs at hw; done)
    | (split_ifs at hw; cases hw; exact .inr ⟨rfl, rfl⟩)

end Sys2Proof.Machine
end

