-- ==== Sys2Proof/Laws/Step.lean ====
section
/-! SUPPORT. What one step does, said once: the first waiting input, or the core's turn. -/

namespace Sys2Proof.Machine

/-- A step takes the first waiting input. -/
theorem step_input {s : State} {ev : Event} {rest : List Event} (h : s.inputs = ev :: rest) :
    step s = perform ev (s.withInputs rest) := by
  simp [step, nextStep, h]

/-- With no input waiting, the core takes its turn. -/
theorem step_noInput {s : State} (h : s.inputs = []) : step s = coreTurn s := by
  simp [step, nextStep, h]

/-- A step that answers a next state took the core's turn or the first input. -/
theorem step_next {s t : State} (h : step s = .next t) :
    (s.inputs = [] ∧ coreTurn s = .next t) ∨
      ∃ ev rest, s.inputs = ev :: rest ∧ perform ev (s.withInputs rest) = .next t := by
  cases hi : s.inputs with
  | nil => exact .inl ⟨rfl, step_noInput hi ▸ h⟩
  | cons ev rest => exact .inr ⟨ev, rest, rfl, step_input hi ▸ h⟩

/-- A core's turn that answers a next state: an idle core stutters, a BUSY one runs its command. -/
theorem coreTurn_next {s t : State} (h : coreTurn s = .next t) :
    (s.status.busy = false ∧ t = s) ∨
      ∃ i, s.status.busy = true ∧ decode s.hid.q.word = .command i ∧ exec i s = .next t := by
  unfold coreTurn at h
  split at h
  · next hb =>
    split at h
    · next i hd => exact .inr ⟨i, hb, hd, h⟩
    · cases h
  · next hb => cases h; exact .inl ⟨by simpa using hb, rfl⟩

/-- A register-port write of the right shape to a register other than CMD is `writeReg`. -/
theorem portWrite_reg {off : Nat} {s : State} (v : Word) (hp : portAccepts off 32 = true)
    (hr : s.resetHeld = false) (hc : regAt off ≠ .cmd) :
    portWrite off 32 v s = .next (writeReg (regAt off) v s) := by
  simp [portWrite, hp, hr, hc]

/-- While reset is asserted no register-port write has an effect (70_reset_and_hazards.md R400). -/
theorem portWrite_held {off : Nat} {s : State} (v : Word) (hp : portAccepts off 32 = true)
    (hr : s.resetHeld = true) : portWrite off 32 v s = .next s := by
  simp [portWrite, hp, hr]

/-- A register-port read of the right shape returns `readReg`. -/
theorem portRead_reg {off : Nat} {s : State} (hp : portAccepts off 32 = true) :
    portRead off 32 s = .next { s with hostData := readReg (regAt off) s } := by
  simp [portRead, hp]

/-- A write of `w` to CMD goes to the command controller. -/
theorem portWrite_cmd (w : Word) {s : State} (hr : s.resetHeld = false) :
    portWrite 0x018 32 w s = commandWrite w s := by
  simp [portWrite, portAccepts, Config.regWindow, regAt, hr]

/-- Asserting reset puts every piece of the core's state at its reset value (70_reset_and_hazards.md R400). -/
theorem assertReset_atReset (s : State) : AtReset (assertReset s) := by
  constructor <;> rfl

/-- Outside the core, asserting reset changes memory and waiting host writes only in the output range of a
command it cuts short (70_reset_and_hazards.md R401, R403). -/
theorem cutShort_cases (s : State) :
    (s.status.busy = true ∧ s.hid.q.hasBuffers = true ∧ cutShort s = freeOutput s) ∨
      ((s.status.busy = false ∨ s.hid.q.hasBuffers = false) ∧ cutShort s = s) := by
  unfold cutShort
  cases s.status.busy <;> cases s.hid.q.hasBuffers <;> simp

end Sys2Proof.Machine
end

