-- ==== Sys2Proof/Tests/Slice0.lean ====
section
/-! SUPPORT. Small tests with values taken from the spec, and for every obligation with hypotheses a
concrete state and operands that meet them. -/

namespace Sys2Proof.Tests

open Sys2Proof Sys2Proof.Machine

/-! ## Syntax: what is refused (30_encoding.md R131, R133) -/

theorem test_tag_above_255_is_ill_formed :
    (Instr.encrypt128 256).WellFormed = false ∧ (Instr.encrypt256 256).WellFormed = false ∧
    (Instr.decrypt128 256).WellFormed = false ∧ (Instr.decrypt256 300).WellFormed = false ∧
    (Instr.encrypt128 255).WellFormed = true ∧ Instr.aesround.WellFormed = true ∧
    Instr.zeroize.WellFormed = true := by decide

theorem test_ill_formed_host_lines_are_refused :
    hostLineOk (.wr (.key 8) 0) = false ∧ hostLineOk (.rd (.srcAddr 2)) = false ∧
    hostLineOk (.poll (.aesrOut 4) 0 0) = false ∧ hostLineOk (.ldkey [0x10]) = false ∧
    hostLineOk (.ldnonce (List.replicate 17 0)) = false ∧ hostLineOk (.ldaes [] []) = false ∧
    hostLineOk (.cmd (.encrypt128 256)) = false ∧ hostLineOk (.wr (.key 7) 0) = true ∧
    hostLineOk (.ldkey (List.replicate 32 0)) = true := by decide

/-! ## Decoding, each word written out from the fields of R120: RSV, TAGLEN, VAR, OP -/

theorem test_decode_encrypt128 :
    decode 0b0000000000000000_00010000_0000_0001#32 = .command (.encrypt128 16) := by decide

theorem test_decode_encrypt256 :
    decode 0b0000000000000000_00100000_0001_0001#32 = .command (.encrypt256 32) := by decide

theorem test_decode_decrypt128 :
    decode 0b0000000000000000_11111111_0000_0010#32 = .command (.decrypt128 255) := by decide

theorem test_decode_decrypt256 :
    decode 0b0000000000000000_00100000_0001_0010#32 = .command (.decrypt256 32) := by decide

theorem test_decode_aesround :
    decode 0b0000000000000000_00000000_0000_0011#32 = .command .aesround := by decide

theorem test_decode_zeroize :
    decode 0b0000000000000000_00000000_0000_0100#32 = .command .zeroize := by decide

/-- The further cases of 95_test_vectors.md L2.8. -/
theorem test_decode_illegal_words :
    decode 0x000010F1#32 = .illegal .reservedVar ∧ decode 0x80001001#32 = .illegal .nonzeroRsv ∧
    decode 0x00000104#32 = .illegal .nonzeroField ∧ decode 0x0000000F#32 = .illegal .reservedOp := by
  decide

theorem test_table_word_reads_as_the_decoder_does :
    decodeTableWord 32 0x1001 = some (.encrypt128 16) ∧ decodeTableWord 32 0x3 = some .aesround ∧
    decodeTableWord 32 0x5 = none := by decide

/-! ## Reset -/

theorem reset_memory_wf : Memory.wf State.reset.mem = true := by decide

/-- The reset values of the read-only constants (10_state.md R33–R35). -/
theorem test_reset_reads :
    readReg (regAt 0x000) State.reset = 0x41454753#32 ∧ readReg (regAt 0x004) State.reset = 0x10000#32 ∧
    readReg (regAt 0x008) State.reset = 0x3F#32 ∧ readReg (regAt 0x010) State.reset = 0#32 := by decide

/-! ## The AES round, the update, the keystream and the tag, on the values of 95_test_vectors.md -/

/-- L2.1 row A2. -/
theorem test_aes_round_A2 :
    toBytes 16 (aesRound
      (ofBytes 128 [0x00, 0x01, 0x02, 0x03, 0x04, 0x05, 0x06, 0x07, 0x08, 0x09, 0x0a, 0x0b, 0x0c, 0x0d, 0x0e, 0x0f])
      (ofBytes 128 [0x10, 0x11, 0x12, 0x13, 0x14, 0x15, 0x16, 0x17, 0x18, 0x19, 0x1a, 0x1b, 0x1c, 0x1d, 0x1e, 0x1f])) =
    [0x7a, 0x7b, 0x4e, 0x56, 0x38, 0x78, 0x25, 0x46, 0xa8, 0xc0, 0x47, 0x7a, 0x3b, 0x81, 0x3f, 0x43] := by
  decide +kernel

/-- L2.1: field arithmetic. -/
theorem test_field_arithmetic :
    xtime 0x57 = 0xae ∧ gfMul 0x57 0x83 = 0xc1 ∧ gfInv 0x53 = 0xca ∧ sbox 0x53 = 0xed ∧ sbox 0 = 0x63 := by
  decide +kernel

/-- The start state of L2.2: lane `i` holds 16 copies of byte `i`. -/
def lanesL22 : Lanes :=
  let f (b : Byte) : Block := ofBytes 128 (List.replicate 16 b)
  ⟨f 0, f 1, f 2, f 3, f 4, f 5, f 6, f 7⟩

/-- L2.2, lanes 0, 4 and 7 of Update128. -/
theorem test_update128 :
    let l := update128 0x0f0e0d0c0b0a09080706050403020100#128 0x1f1e1d1c1b1a19181716151413121110#128 lanesL22
    toBytes 4 l.s0 = [0xc5, 0xc4, 0xc7, 0xc6] ∧ toBytes 4 l.s4 = [0x6f, 0x6e, 0x6d, 0x6c] ∧
      toBytes 2 l.s7 = [0x68, 0x68] := by decide +kernel

/-- L2.2, lanes 0, 4 and 5 of Update256. -/
theorem test_update256 :
    let l := update256 0x0f0e0d0c0b0a09080706050403020100#128 lanesL22
    toBytes 4 l.s0 = [0x6b, 0x6a, 0x69, 0x68] ∧ toBytes 2 l.s4 = [0x7f, 0x7f] ∧
      toBytes 2 l.s5 = [0xf7, 0xf7] := by decide +kernel

/-- L2.6: the length block. -/
theorem test_length_block :
    toBytes 16 (lengthBlock 1 14) = [0x08, 0, 0, 0, 0, 0, 0, 0, 0x70, 0, 0, 0, 0, 0, 0, 0] ∧
    toBytes 9 (lengthBlock (2 ^ 61 - 1) 0) = [0xf8, 0xff, 0xff, 0xff, 0xff, 0xff, 0xff, 0xff, 0] := by
  decide +kernel

/-- L2.10: the comparison sees bytes 0 and 15 and no byte above the tag. -/
theorem test_comparison :
    ctEqual 16 0xc2#256 0xc3#256 = false ∧ ctEqual 16 0#256 (1#256 <<< 120) = false ∧
      ctEqual 16 0#256 (1#256 <<< 128) = true := by decide

/-! ## The contract, on rows of L2.12 -/

/-- The base snapshot of L2.12. -/
def contractBase : Snapshot :=
  { Snapshot.zero with op := 1, tau := 16, src := 0x1000, srcLen := 5, dst := 0x2000, dstLen := 21 }

/-- CC6, CC11, CC14 and CC18. -/
theorem test_contract_rows :
    contractCheck .encrypt contractBase = none ∧
    contractCheck .decrypt { contractBase with srcLen := 0x200000000000000F, dstLen := 0x1FFFFFFFFFFFFFFF } =
      some (.overlap, 0) ∧
    contractCheck .encrypt { contractBase with src := 0xFFFFFFFFFFFFFFFB } = none ∧
    contractCheck .encrypt { contractBase with dst := 0x1004 } = some (.overlap, 0) ∧
    contractCheck .decrypt { contractBase with
      tau := 32, srcLen := 40, dst := 0x1000, dstLen := 8, ad := 0x1004, adLen := 4 } = none := by
  decide

/-! ## One step of each command -/

/-- A state with one input waiting. -/
def waiting (ev : Event) (s : State) : State := { s with inputs := [ev] }

/-- The platform of 95_test_vectors.md's programs: MemOK allows every access, no address is a device. -/
def openPlatform : Platform := ⟨[], [], []⟩

/-- Registers set for a one-byte message with one byte of associated data and a 16-byte tag, the source
key and nonce of 95_test_vectors.md, and the core idle. -/
def ready : Direction → State
  | .encrypt =>
    { State.resetOn openPlatform with
      key := 0x0110, nonce := 0x020010, adAddr := 0x1000, adLen := 1
      srcAddr := 0x2000, srcLen := 1, dstAddr := 0x3000, dstLen := 17 }
  | .decrypt =>
    { State.resetOn openPlatform with
      key := 0x0110, nonce := 0x020010, adAddr := 0x1000, adLen := 1
      srcAddr := 0x2000, srcLen := 17, dstAddr := 0x3000, dstLen := 1 }

/-- The state after acceptance. -/
def accepted (e : Engine) (d : Direction) : State := accept d.op e.var 16 (contractCheck d) (ready d)

/-- The sequencer then put at `p`. -/
def runningAt (e : Engine) (d : Direction) (p : Phase) : State :=
  { accepted e d with hid := { (accepted e d).hid with phase := p } }

/-- ENCRYPT.128 with TAGLEN 24 completes with CONTRACT TAG_SIZE 0x30 in its acceptance (L2.12 CC1). -/
theorem test_encrypt128_bad_tag :
    ∃ t, exec (.encrypt128 24) (ready .encrypt) = .next t ∧
      t.status = ⟨false, .contract, 1, false, .tagSize⟩ ∧ t.errInfo = 0x30 := ⟨_, rfl, by decide, by decide⟩

/-- After its last tag byte ENCRYPT.256 completes: STATUS 0x100, DONE, hidden state zero (L2.13 Z1). -/
theorem test_encrypt256_completes :
    ∃ t, exec (.encrypt256 16) (runningAt .e256 .encrypt (.finish .noError)) = .next t ∧
      t.status.word = 0x100 ∧ t.intStatus.done = true ∧ t.hid = .zero :=
  ⟨_, rfl, by decide, by decide, by decide⟩

/-- The first step of a run reads the associated data (20_memory.md R102). -/
theorem test_decrypt128_reads_ad_first :
    upcoming .e128 .decrypt (runningAt .e128 .decrypt .start) = .read 0x1000 := by decide +kernel

/-- The tag is read right after the message bytes of the input (44_decrypt.md R270). -/
theorem test_decrypt256_reads_the_tag_after_the_message :
    upcoming .e256 .decrypt (runningAt .e256 .decrypt (.tag 3)) = .read 0x2004 := by decide

/-- AESROUND on row A6 (95_test_vectors.md P4): AESR_OUT and STATUS 0x300. -/
theorem test_aesround :
    let q := { Snapshot.zero with
      op := 3, inp := 0x0848f8e92a8dc69a2be2f4a0bee33d19#128, rk := 0x05766c2a3939a323b12c548817fefaa0#128 }
    let s := { State.reset with
      status := ⟨true, .noError, 3, false, .noParam⟩, hid := { Hidden.zero with q := q, phase := .start } }
    ∃ t, exec .aesround s = .next t ∧ t.aesrOut = 0x49506a0243ea5b6b2b359f68f27f9ca4#128 ∧
      t.status.word = 0x300 := ⟨_, rfl, by decide +kernel, by decide +kernel⟩

/-- ZEROIZE (95_test_vectors.md P4, L2.13 Z3). -/
theorem test_zeroize :
    let s := { State.reset with
      status := ⟨true, .noError, 4, false, .noParam⟩, key := 0x0110, aesrOut := 1
      hid := { Hidden.zero with q := { Snapshot.zero with op := 4 }, phase := .start } }
    ∃ t, exec .zeroize s = .next t ∧ t.key = 0 ∧ t.aesrOut = 0 ∧ t.status.word = 0x400 :=
  ⟨_, rfl, by decide, by decide, by decide⟩

/-- A write to CMD while AESROUND runs is dropped: STATUS 0x301, INT_STATUS 2, IRQ (95_test_vectors.md P4). -/
theorem test_dropped_command :
    let s := { State.reset with
      ctrl := ⟨true, true⟩, status := ⟨true, .noError, 3, false, .noParam⟩
      hid := { Hidden.zero with q := { Snapshot.zero with op := 3 }, phase := .start } }
    ∃ t, step (waiting (.regWrite 0x018 32 4) s) = .next t ∧ t.status.word = 0x301 ∧
      t.intStatus.word = 2 ∧ t.irq = true := ⟨_, rfl, by decide, by decide, by decide⟩

/-- CMD ← 0x1021 on an idle core: ILLEGAL, STATUS 0x110, ERR_INFO 0x1021 (95_test_vectors.md P4). -/
theorem test_illegal_command :
    ∃ t, step (waiting (.regWrite 0x018 32 0x1021) State.reset) = .next t ∧ t.status.word = 0x110 ∧
      t.errInfo = 0x1021 ∧ t.intStatus.word = 1 := ⟨_, rfl, by decide, by decide, by decide⟩

/-- A refused write at 0x3010: STATUS 0x140 and ERR_INFO the address (95_test_vectors.md P5). -/
theorem test_bus_error :
    let s := { runningAt .e256 .encrypt (.tag 15) with platform := ⟨[], [⟨0x3010, 4⟩], []⟩ }
    ∃ t, exec (.encrypt256 16) s = .next t ∧ t.status.word = 0x140 ∧ t.errInfo = 0x3010 :=
  ⟨_, rfl, by decide, by decide⟩

/-- From reset on a platform that refuses the read of the first AD byte, a command completes with BUS: the platform
is an argument of the machine (00_scope.md R8, 20_memory.md R106). -/
theorem test_reset_on_a_refusing_platform :
    let r := { State.resetOn ⟨[⟨0x1000, 1⟩], [], []⟩ with adAddr := 0x1000, adLen := 1, dstLen := 16 }
    ∃ s t, step (waiting (.regWrite 0x018 32 0x1001) r) = .next s ∧ step s = .next t ∧
      t.status.word = 0x140 ∧ t.errInfo = 0x1000 :=
  ⟨_, _, rfl, rfl, by decide, by decide⟩

/-- The host's placing of a command word: the very next step accepts it. -/
theorem test_withFetchWord_runs_the_word :
    ∃ t, step (State.reset.withFetchWord 32 0x3) = .next t ∧ t.status.word = 0x301 ∧ t.inputs = [] :=
  ⟨_, rfl, by decide, by decide⟩

/-- A poll that does not match gives the core a step and polls again (30_encoding.md R132). -/
theorem test_poll_waits :
    let s := runningAt .e128 .encrypt .start
    ∃ t, step (waiting (.poll 0x010 1 0) s) = .next t ∧ t.inputs = [.core, .poll 0x010 1 0] :=
  ⟨_, rfl, by decide⟩

/-- ldkey of the source key writes the words of 95_test_vectors.md L3. -/
theorem test_ldkey_expansion :
    expandLine (.ldkey [0x10, 0x01, 0, 0, 0, 0, 0, 0, 0, 0, 0, 0, 0, 0, 0, 0]) =
      [.regWrite 0x040 32 0x110, .regWrite 0x044 32 0, .regWrite 0x048 32 0, .regWrite 0x04C 32 0] := by
  decide

/-! ## The invariant and the run predicates on concrete states -/

/-- Right after reset with registers loaded, the invariant holds. -/
theorem ready_inv (d : Direction) : (ready d).Inv := by
  cases d <;>
    exact
      { memWf := by decide
        memBelow := by decide
        postedBelow := by decide
        idle := by decide
        run := fun h => absurd h (by decide)
        clear := fun h => absurd h (by decide)
        param := by decide
        auth := fun h => absurd h (by decide)
        info := by decide
        held := fun h => absurd h (by decide) }

/-- What acceptance leaves, for each of the four commands. -/
theorem accepted_facts (e : Engine) (d : Direction) :
    (accepted e d).hid.q.op = d.op ∧ (accepted e d).hid.q.var = e.var ∧
    contractCheck d (accepted e d).hid.q = none ∧ (accepted e d).hid.p = 0 ∧
    (accepted e d).hid.lanes = .zero ∧ (accepted e d).mem = [] ∧ (accepted e d).posted = [] ∧
    (accepted e d).status = ⟨true, .noError, d.op, false, .noParam⟩ ∧ (accepted e d).errInfo = 0 ∧
    (accepted e d).intStatus.done = false ∧ (accepted e d).platform = ⟨[], [], []⟩ ∧
    (accepted e d).hid.late = [] ∧ (accepted e d).resetHeld = false := by
  cases e <;> cases d <;> decide

/-- The sequencer at any place of the access sequence makes a run: memory is all zero, so whatever the wipe
has passed is zero. -/
theorem running_streamRun (e : Engine) (d : Direction) (p : Phase)
    (hp : phaseOk e d (runningAt e d p).hid) : StreamRun e d (runningAt e d p) := by
  obtain ⟨h1, h2, h3, h4, h5, h6, _⟩ := accepted_facts e d
  have hz : ∀ n, wipedTo (runningAt e d p) n := fun n j _ => by
    show Memory.read (accepted e d).mem _ = 0
    rw [h6]; rfl
  refine ⟨h1, h2, h3, hp, h4, fun _ => ?_, fun i _ => hz i, fun _ => hz _⟩
  show (accepted e d).hid.lanes.s6 = 0 ∧ (accepted e d).hid.lanes.s7 = 0
  rw [h5]; exact ⟨rfl, rfl⟩

theorem running_busy (e : Engine) (d : Direction) (p : Phase) : (runningAt e d p).status.busy = true := by
  cases e <;> cases d <;> rfl

/-- A run in the state above meets the invariant. -/
theorem running_inv (e : Engine) (d : Direction) (p : Phase) (hp : phaseOk e d (runningAt e d p).hid) :
    (runningAt e d p).Inv := by
  obtain ⟨h1, _, _, _, _, h6, h7, h8, h9, h10, _, _, h13⟩ := accepted_facts e d
  have hm : (runningAt e d p).mem = [] := h6
  have hpo : (runningAt e d p).posted = [] := h7
  have hs : (runningAt e d p).status = ⟨true, .noError, d.op, false, .noParam⟩ := h8
  have hq : (runningAt e d p).hid.q.op = d.op := h1
  have hr : (runningAt e d p).resetHeld = false := h13
  refine ⟨by rw [hm]; rfl, by simp [hm], by simp [hpo], by simp [hs],
    fun _ => .inl ⟨e, d, running_streamRun e d p hp⟩, fun _ => ?_, by simp [hs], by simp [hs], fun _ => h9,
    by simp [hr]⟩
  rw [hs, hq]
  exact ⟨rfl, h9, h10, rfl, rfl⟩

/-- A platform that refuses nothing, has no device and has nothing posted or late serves every buffer. -/
theorem served_of_open {q : Snapshot} {s : State} (hp : s.platform = ⟨[], [], []⟩) (h : s.posted = [])
    (hl : s.hid.late = []) : Served q s :=
  ⟨fun _ _ => by simp [Platform.memOK, Platform.isDevice, inSome, State.unseen, isPosted, hp, h, hl],
   fun _ _ => by simp [Platform.memOK, Platform.isDevice, inSome, hp]⟩

/-! ## A witness for every obligation with hypotheses -/

/-- DecodingAnEncodedInstructionGivesItBack, at the largest and the smallest tag size. -/
theorem witness_well_formed :
    (Instr.encrypt128 255).WellFormed = true ∧ (Instr.encrypt256 0).WellFormed = true ∧
    (Instr.decrypt128 0).WellFormed = true ∧ (Instr.decrypt256 255).WellFormed = true ∧
    Instr.aesround.WellFormed = true ∧ Instr.zeroize.WellFormed = true := by decide

/-- EncodingADecodedWordGivesItBack; both sides of each clause of MaskAndMatchSelectTheCommand. -/
theorem witness_decoded_words :
    decode 0x0000FF01#32 = .command (.encrypt128 255) ∧ 0x0000FF01#32 &&& 0xFFFF00FF#32 = 0x00000001#32 ∧
    decode 0x00000011#32 = .command (.encrypt256 0) ∧ 0x00000011#32 &&& 0xFFFF00FF#32 = 0x00000011#32 ∧
    decode 0x0000FF02#32 = .command (.decrypt128 255) ∧ 0x0000FF02#32 &&& 0xFFFF00FF#32 = 0x00000002#32 ∧
    decode 0x00000012#32 = .command (.decrypt256 0) ∧ 0x00000012#32 &&& 0xFFFF00FF#32 = 0x00000012#32 ∧
    decode 0x00000003#32 = .command .aesround ∧ decode 0x00000004#32 = .command .zeroize ∧
    decode 0x00000021#32 = .illegal .reservedVar ∧ 0x00000021#32 &&& 0xFFFF00FF#32 ≠ 0x00000001#32 := by
  decide

/-- EveryRegisterStandsAtItsOffset, at the last word of each group. -/
theorem witness_registers :
    regExists (.errInfo 1) = true ∧ regExists (.key 7) = true ∧ regExists (.nonce 7) = true ∧
    regExists (.srcAddr 1) = true ∧ regExists (.srcLen 1) = true ∧ regExists (.dstAddr 1) = true ∧
    regExists (.dstLen 1) = true ∧ regExists (.adAddr 1) = true ∧ regExists (.adLen 1) = true ∧
    regExists (.aesrIn 3) = true ∧ regExists (.aesrRk 3) = true ∧ regExists (.aesrOut 3) = true := by decide

/-- ResetGivesEveryPieceItsResetValue: reset asserted on an idle core, a CMD write while it is asserted, and its
release. -/
theorem witness_reset_idle :
    let h := assertReset (ready .encrypt)
    ((waiting .resetAssert (ready .encrypt)).inputs = .resetAssert :: [] ∧
      (waiting .resetAssert (ready .encrypt)).status.busy = false) ∧
    (h.resetHeld = true ∧ AtReset (waiting (.regWrite 0x018 32 0x3) h) ∧
      (∃ t, step (waiting (.regWrite 0x018 32 0x3) h) = .next t) ∧
      (waiting (.regWrite 0x018 32 0x3) h).inputs.head? ≠ some .resetRelease) ∧
    (waiting .resetRelease h).inputs = .resetRelease :: [] :=
  ⟨⟨by decide, by decide⟩, ⟨rfl, by constructor <;> rfl, ⟨_, rfl⟩, by decide⟩, rfl⟩

/-- ResetDuringACommandFreesOnlyItsOutput: a reset that cuts a command, the last output byte, and a byte
just past the output range; and a reset of an idle core. -/
theorem witness_reset_running :
    let s := waiting .resetAssert (runningAt .e128 .encrypt .start)
    (s.inputs = .resetAssert :: [] ∧ Memory.wf s.mem = true ∧ s.status.busy = true ∧ s.hid.q.hasBuffers = true ∧
      16 < s.hid.q.dstLen.toNat ∧ s.hid.q.inOutput 0x3011 = false) ∧
    (waiting .resetAssert State.reset).status.busy = false := by decide

/-- BadPortAccessIsAHostFault: a narrow, an unaligned and an outside access. -/
theorem witness_bad_port :
    (waiting (.regRead 0x010 16) State.reset).inputs = .regRead 0x010 16 :: [] ∧ (16 : Nat) ≠ 32 ∧
    (waiting (.regWrite 0x00E 32 1) State.reset).inputs = .regWrite 0x00E 32 1 :: [] ∧ 0x00E % 4 ≠ 0 ∧
    (waiting (.regRead 4096 32) State.reset).inputs = .regRead 4096 32 :: [] ∧ 4096 ≤ 4096 := by decide

/-- ReadsChangeNothingAndShowNoSecret: the last offset of the window, the last words of NONCE and AESR_OUT. -/
theorem witness_reads :
    (waiting (.regRead 0xFFC 32) State.reset).inputs = .regRead 0xFFC 32 :: [] ∧ 0xFFC % 4 = 0 ∧ 0xFFC < 4096 ∧
    (15 < 16 ∧ 0x040 + 4 * 15 = 0x07C ∧ 0x07C % 4 = 0 ∧ 0x07C < 4096) ∧ (3 < 4 ∧ 0x0D0 + 4 * 3 = 0x0DC) := by decide

/-- ReadOnlyRegistersIgnoreWrites: each clause. -/
theorem witness_read_only :
    (waiting (.regRead 0x000 32) State.reset).inputs = .regRead 0x000 32 :: [] ∧
    (waiting (.regRead 0x004 32) State.reset).inputs = .regRead 0x004 32 :: [] ∧
    (waiting (.regWrite 0x0DC 32 5) State.reset).inputs = .regWrite 0x0DC 32 5 :: [] ∧
    0x0DC ∈ [0x000, 0x004, 0x008, 0x010, 0x020, 0x024, 0x0D0, 0x0D4, 0x0D8, 0x0DC] := by decide

/-- ReservedOffsetsReadZeroAndIgnoreWrites: the ends of each hole. -/
theorem witness_reserved :
    (waiting (.regRead 0x028 32) State.reset).inputs = .regRead 0x028 32 :: [] ∧ 0x028 % 4 = 0 ∧
    (waiting (.regWrite 0x0E0 32 7) State.reset).inputs = .regWrite 0x0E0 32 7 :: [] ∧ 0x0E0 % 4 = 0 ∧
    0x01C % 4 = 0 ∧ 0x028 ≤ 0x03C ∧ 0x03C % 4 = 0 ∧ 0x0E0 ≤ 0xFFC ∧ 0xFFC % 4 = 0 := by decide

/-- ControlWriteSetsTheEnables, InterruptBitsClearOnWritingOne: reset released and reset asserted. -/
theorem witness_status_writes :
    ((waiting (.regWrite 0x00C 32 0xFFFFFFFF) State.reset).inputs = .regWrite 0x00C 32 0xFFFFFFFF :: [] ∧
      (waiting (.regWrite 0x014 32 1) State.reset).inputs = .regWrite 0x014 32 1 :: [] ∧
      (waiting (.regWrite 0x014 32 1) State.reset).resetHeld = false) ∧
    ((waiting (.regWrite 0x00C 32 3) (assertReset State.reset)).inputs = .regWrite 0x00C 32 3 :: [] ∧
      (waiting (.regWrite 0x00C 32 3) (assertReset State.reset)).resetHeld = true ∧
      (waiting (.regWrite 0x014 32 1) (assertReset State.reset)).inputs = .regWrite 0x014 32 1 :: [] ∧
      (waiting (.regWrite 0x014 32 1) (assertReset State.reset)).resetHeld = true) := by decide

/-- ByteStringRegistersPackLittleEndian: the last word and byte of each group, and a byte of another
word. -/
theorem witness_packing : (7 < 8 ∧ 31 < 32 ∧ 31 / 4 = 7 ∧ 27 / 4 ≠ 7) ∧ (3 < 4 ∧ 15 < 16 ∧ 15 / 4 = 3) := by
  decide

/-- RegisterWritesDoNotTouchTheRun: a KEY write while a command runs, the last offset, and a write while reset
is asserted. -/
theorem witness_register_write :
    let s := waiting (.regWrite 0x040 32 1) (runningAt .e128 .encrypt .start)
    (s.inputs = .regWrite 0x040 32 1 :: [] ∧ s.resetHeld = false ∧
      0x040 % 4 = 0 ∧ 0x040 < 4096 ∧ 0x040 ≠ 0x018 ∧ 0xFFC % 4 = 0 ∧ 0xFFC < 4096) ∧
    (assertReset s).resetHeld = true := by decide

/-- CommandWriteRunsTheDecodedCommand, and the acceptance statements for an idle core. -/
theorem witness_command_write :
    (waiting (.regWrite 0x018 32 0x1001) (ready .encrypt)).inputs = .regWrite 0x018 32 0x1001 :: [] ∧
      (ready .encrypt).resetHeld = false ∧ (ready .encrypt).status.busy = false ∧ decode 0x1001#32 = .command (.encrypt128 16) ∧
      contractCheck .encrypt (takeSnapshot Direction.encrypt.op Engine.e128.var (BitVec.ofNat 8 16)
        (ready .encrypt)) = none ∧
      contractCheck .decrypt (takeSnapshot Direction.decrypt.op Engine.e256.var (BitVec.ofNat 8 16)
        (ready .decrypt)) = none := by decide

/-- CoreTurnRunsTheRunningCommand: each command, with no input and with the core's turn as the input. -/
theorem witness_core_turn :
    let s := runningAt .e256 .decrypt .start
    let r := { State.reset with status := ⟨true, .noError, 3, false, .noParam⟩,
                                hid := { Hidden.zero with q := { Snapshot.zero with op := opAesround } } }
    let z := { State.reset with status := ⟨true, .noError, 4, false, .noParam⟩,
                                hid := { Hidden.zero with q := { Snapshot.zero with op := opZeroize } } }
    (s.status.busy = true ∧ s.hid.q.op = Direction.decrypt.op ∧ s.hid.q.var = Engine.e256.var ∧
      s.inputs = [] ∧ (waiting .core s).inputs = .core :: []) ∧
    (r.status.busy = true ∧ r.hid.q.op = opAesround ∧ r.hid.q.var = 0 ∧ r.hid.q.tau = 0 ∧ r.inputs = [] ∧
      (waiting .core r).inputs = .core :: []) ∧
    (z.status.busy = true ∧ z.hid.q.op = opZeroize ∧ z.hid.q.var = 0 ∧ z.hid.q.tau = 0 ∧ z.inputs = [] ∧
      (waiting .core z).inputs = .core :: []) := by decide

/-- CommandWriteWhileBusyIsDropped, with the enable up. -/
theorem witness_dropped :
    let s := waiting (.regWrite 0x018 32 4) { runningAt .e128 .encrypt .start with ctrl := ⟨false, true⟩ }
    s.inputs = .regWrite 0x018 32 4 :: [] ∧ s.resetHeld = false ∧ s.status.busy = true ∧ s.ctrl.ovrIE = true := by decide

/-- IllegalWordIsRefusedAtAcceptance: each way to be illegal. -/
theorem witness_illegal :
    (waiting (.regWrite 0x018 32 0x5) State.reset).inputs = .regWrite 0x018 32 0x5 :: [] ∧
    State.reset.resetHeld = false ∧ State.reset.status.busy = false ∧ rsvField 0x80001001#32 ≠ 0 ∧
    (opField 0x5#32 ≠ 1 ∧ opField 0x5#32 ≠ 2 ∧ opField 0x5#32 ≠ 3 ∧ opField 0x5#32 ≠ 4) ∧
    (opField 0x21#32 = 1 ∧ varField 0x21#32 ≠ 0 ∧ varField 0x21#32 ≠ 1) ∧
    (opField 0x13#32 = 3 ∧ varField 0x13#32 ≠ 0) ∧ (opField 0x104#32 = 4 ∧ tagField 0x104#32 ≠ 0) := by
  decide

/-- BadTagSizeIsAContractViolation, next to the two valid sizes and at the ends. -/
theorem witness_bad_tag :
    (ready .encrypt).status.busy = false ∧ (17 ≤ 255 ∧ 17 ≠ 16 ∧ 17 ≠ 32) ∧ (255 ≤ 255 ∧ 255 ≠ 16 ∧ 255 ≠ 32) ∧
      (0 ≤ 255 ∧ 0 ≠ 16 ∧ 0 ≠ 32) := by decide

/-- BadSourceLengthIsAContractViolation, each clause at its boundary. -/
theorem witness_bad_source :
    let s1 := { State.reset with srcLen := 15 }
    let s2 := { State.reset with srcLen := 0x2000000000000000 }
    let s3 := { State.reset with srcLen := 0x2000000000000010 }
    (s1.status.busy = false ∧ s1.srcLen.toNat < 16) ∧ (s2.status.busy = false ∧ 2 ^ 61 - 1 < s2.srcLen.toNat) ∧
      (s3.status.busy = false ∧ 2 ^ 61 - 1 + 16 < s3.srcLen.toNat) := by decide

/-- LongAssociatedDataIsAContractViolation, each clause at its boundary. -/
theorem witness_long_ad :
    let s1 := { State.reset with adLen := 0x2000000000000000, srcLen := 0x1FFFFFFFFFFFFFFF }
    let s2 := { State.reset with adLen := 0x2000000000000000, srcLen := 32 }
    (s1.status.busy = false ∧ 2 ^ 61 - 1 < s1.adLen.toNat ∧ s1.srcLen.toNat ≤ 2 ^ 61 - 1) ∧
      (s2.status.busy = false ∧ 2 ^ 61 - 1 < s2.adLen.toNat ∧ 32 ≤ s2.srcLen.toNat ∧
        s2.srcLen.toNat ≤ 2 ^ 61 - 1 + 32) := by decide

/-- BadOutputLengthIsAContractViolation, each clause one byte off. -/
theorem witness_bad_output :
    let s1 := { State.reset with srcLen := 5, dstLen := 20 }
    let s2 := { State.reset with srcLen := 16, dstLen := 1 }
    (s1.status.busy = false ∧ s1.adLen.toNat ≤ 2 ^ 61 - 1 ∧ s1.srcLen.toNat ≤ 2 ^ 61 - 1 ∧
      s1.dstLen.toNat ≠ s1.srcLen.toNat + 16) ∧
    (s2.status.busy = false ∧ s2.adLen.toNat ≤ 2 ^ 61 - 1 ∧ 16 ≤ s2.srcLen.toNat ∧
      s2.srcLen.toNat ≤ 2 ^ 61 - 1 + 16 ∧ s2.dstLen.toNat ≠ s2.srcLen.toNat - 16) := by decide

/-- BadRangesAndOverlapAreContractViolations: each clause, the first three one byte past the end of the
address space (95_test_vectors.md L2.12 CC10, CC12, CC13, CC14). -/
theorem witness_bad_ranges :
    let b := { State.reset with
      srcAddr := 0x1000, srcLen := 5, dstAddr := 0x2000, dstLen := 21, adAddr := 0, adLen := 2 }
    let s1 := { b with srcAddr := 0xFFFFFFFFFFFFFFFC }
    let s2 := { b with dstAddr := 0xFFFFFFFFFFFFFFEC }
    let s3 := { b with adAddr := 0xFFFFFFFFFFFFFFFF }
    let s4 := { b with dstAddr := 0x1004 }
    b.status.busy = false ∧ b.adLen.toNat ≤ 2 ^ 61 - 1 ∧ b.srcLen.toNat ≤ 2 ^ 61 - 1 ∧
    b.dstLen.toNat = b.srcLen.toNat + 16 ∧
    2 ^ 64 < s1.srcAddr.toNat + s1.srcLen.toNat ∧
    (s2.srcAddr.toNat + s2.srcLen.toNat ≤ 2 ^ 64 ∧ 2 ^ 64 < s2.dstAddr.toNat + s2.dstLen.toNat) ∧
    (s3.srcAddr.toNat + s3.srcLen.toNat ≤ 2 ^ 64 ∧ s3.dstAddr.toNat + s3.dstLen.toNat ≤ 2 ^ 64 ∧
      2 ^ 64 < s3.adAddr.toNat + s3.adLen.toNat) ∧
    (s4.srcAddr.toNat + s4.srcLen.toNat ≤ 2 ^ 64 ∧ s4.dstAddr.toNat + s4.dstLen.toNat ≤ 2 ^ 64 ∧
      s4.adAddr.toNat + s4.adLen.toNat ≤ 2 ^ 64 ∧ s4.srcAddr ≠ s4.dstAddr ∧
      inRange s4.srcAddr.toNat s4.srcLen.toNat 0x1004 = true ∧
      inRange s4.dstAddr.toNat s4.dstLen.toNat 0x1004 = true) := by decide

/-- SboxIsTheAffineImageOfTheInverse, ShiftRowsRotatesEachRow, MixColumnsMultipliesEachColumn: the last
index, and a byte that is not zero. -/
theorem witness_aes_indices : 7 < 8 ∧ 15 < 16 ∧ (0xff : Byte) ≠ 0 ∧ 3 < 4 := by decide

/-- AesroundCompletesWithTheRound and ZeroizeClearsTheHostLoadedSecrets: a running AESROUND and a running
ZEROIZE. -/
theorem witness_register_commands :
    let r := accept opAesround 0 0 (fun _ => none) State.reset
    let z := accept opZeroize 0 0 (fun _ => none) State.reset
    r.status.busy = true ∧ r.hid.q.op = 3 ∧ z.status.busy = true ∧ z.hid.q.op = 4 := by decide

/-- Engine256LeavesLanesSixAndSeven: an Engine-256 command runs in a state that meets the invariant. -/
theorem witness_engine256 :
    let s := runningAt .e256 .encrypt (.adRead 0)
    s.Inv ∧ s.status.busy = true ∧ s.hid.q.hasBuffers = true ∧ s.hid.q.var = 1 :=
  ⟨running_inv _ _ _ (by show (_ : Nat) < _; decide), by decide, by decide, by decide⟩

/-- BlocksKeepBothSidesInStep: three bytes of a block, the rest zero. -/
theorem witness_partial_block :
    let h := { Hidden.zero with buf := 0x030201 }
    3 < Engine.e256.rate ∧ ∀ j, 3 ≤ j → j < 32 → byteAt h.buf j = 0 := by
  refine ⟨by decide, fun j h3 h32 => ?_⟩
  have : ∀ k : Fin 32, 3 ≤ k.val → byteAt (0x030201 : Wide) k.val = 0 := by decide
  exact this ⟨j, h32⟩ h3

/-- LengthBlockTellsLengthsApart: the largest lengths. -/
theorem witness_lengths : 2 ^ 61 - 1 ≤ 2 ^ 61 - 1 ∧ 0 ≤ 2 ^ 61 - 1 ∧
    lengthBlock (2 ^ 61 - 1) 0 = lengthBlock (2 ^ 61 - 1) 0 := by decide

/-- DecryptionRecoversEveryMessage. -/
theorem witness_tag_sizes : (16 = 16 ∨ 16 = 32) ∧ (32 = 16 ∨ 32 = 32) := by decide

/-- AccessesStayInTheCommandsRanges and ServedAccessesTakeEffect: a read, a write and a completion. -/
theorem witness_accesses :
    (StreamRun .e128 .encrypt (runningAt .e128 .encrypt (.adRead 0)) ∧
      Served (runningAt .e128 .encrypt (.adRead 0)).hid.q (runningAt .e128 .encrypt (.adRead 0)) ∧
      upcoming .e128 .encrypt (runningAt .e128 .encrypt (.adRead 0)) = .read 0x1000) ∧
    (StreamRun .e256 .encrypt (runningAt .e256 .encrypt (.tag 15)) ∧
      Served (runningAt .e256 .encrypt (.tag 15)).hid.q (runningAt .e256 .encrypt (.tag 15)) ∧
      upcoming .e256 .encrypt (runningAt .e256 .encrypt (.tag 15)) = .write 0x3010 0) ∧
    (StreamRun .e128 .decrypt (runningAt .e128 .decrypt (.finish .auth)) ∧
      Served (runningAt .e128 .decrypt (.finish .auth)).hid.q (runningAt .e128 .decrypt (.finish .auth)) ∧
      upcoming .e128 .decrypt (runningAt .e128 .decrypt (.finish .auth)) = .finish .auth) :=
  ⟨⟨running_streamRun _ _ _ (by show (_ : Nat) < _; decide), served_of_open rfl rfl rfl, by decide⟩,
   ⟨running_streamRun _ _ _ (by show (_ : Nat) < _; decide), served_of_open rfl rfl rfl, by decide⟩,
   ⟨running_streamRun _ _ _ (.inr ⟨rfl, rfl⟩), served_of_open rfl rfl rfl, by decide⟩⟩

/-- AccessSequenceHasItsPhases: a whole ENCRYPT and a whole DECRYPT about to begin, a comparison that verifies
and one that does not. -/
theorem witness_phases :
    let e := runningAt .e128 .encrypt .start
    let d := runningAt .e256 .decrypt .start
    let v := runningAt .e128 .decrypt .verify
    let n := { v with hid := { v.hid with t := 1 } }
    (StreamRun .e128 .encrypt e ∧ Served e.hid.q e ∧ e.status.busy = true) ∧
    (StreamRun .e256 .decrypt d ∧ Served d.hid.q d ∧ d.status.busy = true) ∧
    (StreamRun .e128 .decrypt v ∧ Served v.hid.q v ∧ v.status.busy = true ∧
      ctEqual v.hid.q.tau.toNat v.hid.t v.hid.e = true) ∧
    (StreamRun .e128 .decrypt n ∧ Served n.hid.q n ∧ n.status.busy = true ∧
      ctEqual n.hid.q.tau.toNat n.hid.t n.hid.e = false) :=
  have h := running_streamRun .e128 .decrypt .verify rfl
  ⟨⟨running_streamRun _ _ _ trivial, served_of_open rfl rfl rfl, rfl⟩,
   ⟨running_streamRun _ _ _ trivial, served_of_open rfl rfl rfl, rfl⟩,
   ⟨h, served_of_open rfl rfl rfl, rfl, by decide⟩,
   ⟨⟨h.op, h.var, h.contract, h.phase, h.pad, h.lanes, h.wiping, h.wiped⟩, served_of_open rfl rfl rfl, rfl,
    by decide⟩⟩

/-- AccessAddressesDependOnPublicValuesOnly: two keys, and a comparison with one outcome. -/
theorem witness_public :
    let h := (runningAt .e128 .decrypt .verify).hid
    let h' := { h with q := { h.q with key := 7 }, t := 1, e := 1 }
    h.phase = h'.phase ∧ h.q.public = h'.q.public ∧
      ctEqual h.q.tau.toNat h.t h.e = ctEqual h'.q.tau.toNat h'.t h'.e := by decide

/-- RunLeavesEveryOtherRegister and RunStoresOnlyWhereItSays: a step of a run that answers a next state,
with a served and a refused write, a served and a refused read. -/
theorem witness_run_steps :
    let w := runningAt .e128 .encrypt (.tag 0)
    let w' := { w with platform := ⟨[], [⟨0x3001, 1⟩], []⟩ }
    let r := runningAt .e128 .encrypt (.adRead 0)
    let r' := { r with platform := ⟨[⟨0x1000, 1⟩], [], []⟩ }
    (w.status.busy = true ∧ w.hid.q.op = Direction.encrypt.op ∧ Memory.wf w.mem = true ∧
      (∃ t, exec (.encrypt128 16) w = .next t) ∧ upcoming .e128 .encrypt w = .write 0x3001 0 ∧
      w.platform.memOK 0x3001 .write = true) ∧
    ((∃ t, exec (.encrypt128 16) w' = .next t) ∧ upcoming .e128 .encrypt w' = .write 0x3001 0 ∧
      w'.platform.memOK 0x3001 .write = false) ∧
    ((∃ t, exec (.encrypt128 16) r = .next t) ∧ upcoming .e128 .encrypt r = .read 0x1000 ∧
      r.platform.memOK 0x1000 .read = true) ∧
    ((∃ t, exec (.encrypt128 16) r' = .next t) ∧ upcoming .e128 .encrypt r' = .read 0x1000 ∧
      r'.platform.memOK 0x1000 .read = false) :=
  ⟨⟨by decide, by decide, by decide, ⟨_, rfl⟩, by decide, by decide⟩, ⟨⟨_, rfl⟩, by decide, by decide⟩,
   ⟨⟨_, rfl⟩, by decide, by decide⟩, ⟨⟨_, rfl⟩, by decide, by decide⟩⟩

/-- The same run on another platform and with other host writes is a run. -/
theorem running_on_platform (e : Engine) (d : Direction) (p : Phase) (pl : Platform)
    (posted : List Posted) (hp : phaseOk e d (runningAt e d p).hid) :
    StreamRun e d { runningAt e d p with platform := pl, posted := posted } :=
  let h := running_streamRun e d p hp
  ⟨h.op, h.var, h.contract, h.phase, h.pad, h.lanes, h.wiping, h.wiped⟩

/-- RefusedAccessCompletesWithBus: a refused read and a refused write. -/
theorem witness_refused :
    let r := { runningAt .e128 .encrypt (.adRead 0) with platform := ⟨[⟨0x1000, 1⟩], [], []⟩, posted := [] }
    let w := { runningAt .e256 .decrypt (.wipe 0) with platform := ⟨[], [⟨0x3000, 1⟩], []⟩, posted := [] }
    (StreamRun .e128 .encrypt r ∧ r.status.busy = true ∧ Memory.wf r.mem = true ∧
      upcoming .e128 .encrypt r = .read 0x1000 ∧ r.platform.memOK 0x1000 .read = false) ∧
    (StreamRun .e256 .decrypt w ∧ w.status.busy = true ∧ Memory.wf w.mem = true ∧
      upcoming .e256 .decrypt w = .write 0x3000 0 ∧ w.platform.memOK 0x3000 .write = false) :=
  ⟨⟨running_on_platform _ _ _ _ _ (by show (_ : Nat) < _; decide), by decide, by decide, by decide, by decide⟩,
   ⟨running_on_platform _ _ _ _ _ ⟨rfl, by decide⟩, by decide, by decide, by decide, by decide⟩⟩

/-- DeviceMemoryIsRefused: a read and a write of device memory. -/
theorem witness_device :
    let r := { runningAt .e128 .encrypt (.adRead 0) with platform := ⟨[], [], [⟨0x1000, 1⟩]⟩, posted := [] }
    let w := { runningAt .e256 .encrypt (.tag 15) with platform := ⟨[], [], [⟨0x3010, 1⟩]⟩, posted := [] }
    (StreamRun .e128 .encrypt r ∧ r.status.busy = true ∧ r.platform.isDevice 0x1000 = true ∧
      upcoming .e128 .encrypt r = .read 0x1000 ∧ r.platform.memOK 0x1000 .read = true) ∧
    (StreamRun .e256 .encrypt w ∧ w.status.busy = true ∧ w.platform.isDevice 0x3010 = true ∧
      upcoming .e256 .encrypt w = .write 0x3010 0 ∧ w.platform.memOK 0x3010 .write = true) :=
  ⟨⟨running_on_platform _ _ _ _ _ (by show (_ : Nat) < _; decide), by decide, by decide, by decide, by decide⟩,
   ⟨running_on_platform _ _ _ _ _ (by show (_ : Nat) < _; decide), by decide, by decide, by decide, by decide⟩⟩

/-- InvisibleByteReadsAsAnyValue: the AD byte was written before CMD and is not visible; it becomes visible during
the run; with it an input byte, an output byte and a byte outside the buffers. -/
theorem witness_invisible :
    let s := { runningAt .e128 .encrypt (.adRead 0) with platform := ⟨[], [], []⟩, posted := [⟨0x1000, some 5⟩] }
    let l := { s with posted := [], hid := { s.hid with late := [0x1000] } }
    let v := { waiting .memVisible s with
      posted := [⟨0x1000, some 5⟩, ⟨0x2000, some 6⟩, ⟨0x3010, some 7⟩, ⟨0x4000, some 8⟩] }
    (StreamRun .e128 .encrypt s ∧ s.status.busy = true ∧ upcoming .e128 .encrypt s = .read 0x1000 ∧
      s.platform.memOK 0x1000 .read = true ∧ s.platform.isDevice 0x1000 = false ∧
      isPosted s.posted 0x1000 = true) ∧
    (StreamRun .e128 .encrypt l ∧ upcoming .e128 .encrypt l = .read 0x1000 ∧ 0x1000 ∈ l.hid.late) ∧
    (v.inputs = .memVisible :: [] ∧ v.status.busy = true ∧ v.hid.q.hasBuffers = true ∧
      v.hid.q.inAd 0x1000 = true ∧ v.hid.q.inInput 0x2000 = true ∧ v.hid.q.inOutput 0x3010 = true ∧
      isPosted v.posted 0x4001 = false ∧ Memory.wf v.mem = true ∧
      v.posted = [⟨0x1000, some 5⟩, ⟨0x2000, some 6⟩, ⟨0x3010, some 7⟩] ++ ⟨0x4000, some 8⟩ :: [] ∧
      isPosted [] 0x4000 = false ∧ v.hid.q.inOutput 0x4000 = false) :=
  have h : StreamRun .e128 .encrypt
      { runningAt .e128 .encrypt (.adRead 0) with platform := ⟨[], [], []⟩, posted := [⟨0x1000, some 5⟩] } :=
    running_on_platform _ _ _ _ _ (by show (_ : Nat) < _; decide)
  ⟨⟨h, by decide, by decide, by decide, by decide, by decide⟩,
   ⟨⟨h.op, h.var, h.contract, h.phase, h.pad, h.lanes, h.wiping, h.wiped⟩, by decide, by decide⟩, by decide⟩

/-- A byte posted before CMD that becomes visible during the run: memory takes it, and the core still reads a
free value there (20_memory.md R105); an output byte stays to come. -/
theorem test_late_byte :
    let s := { runningAt .e128 .encrypt (.adRead 0) with posted := [⟨0x1000, some 5⟩, ⟨0x3000, some 7⟩] }
    ∃ t, step (waiting .memVisible s) = .next t ∧ Memory.read t.mem 0x1000 = 5 ∧ t.unseen 0x1000 = true ∧
      Memory.read t.mem 0x3000 = 0 ∧ t.posted = [⟨0x3000, none⟩] :=
  ⟨_, rfl, by decide, by decide, by decide, by decide⟩

/-- While reset is asserted a command is not accepted; after its release it is (70_reset_and_hazards.md R400,
R402). -/
theorem test_reset_held :
    (∃ t, step (waiting (.regWrite 0x018 32 0x3) (assertReset (ready .encrypt))) = .next t ∧
      t.status.word = 0 ∧ t.key = 0) ∧
    (∃ t, step (waiting (.regWrite 0x018 32 0x3) (releaseReset (assertReset (ready .encrypt)))) = .next t ∧
      t.status.word = 0x301) :=
  ⟨⟨_, rfl, by decide, by decide⟩, ⟨_, rfl, by decide⟩⟩

/-- HostMemoryAccessesActOrStop: a breach at the first AD byte, the first input byte and the last output byte; the
first address that does not exist; on the last that exists, and on the bytes beside the output range while the
command runs, an access that breaches nothing, with and without a waiting write; a device byte. -/
theorem witness_host_memory :
    let s := runningAt .e128 .encrypt .start
    let p := { s with posted := [⟨2 ^ 64 - 1, some 5⟩] }
    let d := { s with platform := ⟨[], [], [⟨0x3011, 1⟩]⟩ }
    (s.status.busy = true ∧ s.hid.q.hasBuffers = true ∧ 0x3010 < 2 ^ 64 ∧ s.hid.q.inAd 0x1000 = true ∧
      s.hid.q.inInput 0x2000 = true ∧ s.hid.q.inOutput 0x3010 = true ∧
      (waiting (.memWrite 0x1000 9) s).inputs = .memWrite 0x1000 9 :: [] ∧
      (waiting (.memPost 0x2000 9) s).inputs = .memPost 0x2000 9 :: [] ∧
      (waiting (.memRead 0x3010) s).inputs = .memRead 0x3010 :: []) ∧
    2 ^ 64 ≤ 2 ^ 64 ∧ (waiting (.memPost (2 ^ 64) 9) s).inputs = .memPost (2 ^ 64) 9 :: [] ∧
    (∀ a ∈ [0x2FFF, 0x3011, 2 ^ 64 - 1], a < 2 ^ 64 ∧ writeBreach s a = false ∧ s.hid.q.inAd a = false ∧
      s.hid.q.inInput a = false ∧ s.hid.q.inOutput a = false ∧ s.platform.isDevice a = false ∧
      isPosted s.posted a = false ∧ (waiting (.memRead a) s).inputs = .memRead a :: [] ∧
      (waiting (.memWrite a 9) s).inputs = .memWrite a 9 :: []) ∧
    Memory.wf s.mem = true ∧
    (p.hid.q.inOutput (2 ^ 64 - 1) = false ∧ p.platform.isDevice (2 ^ 64 - 1) = false ∧
      isPosted p.posted (2 ^ 64 - 1) = true) ∧
    d.platform.isDevice 0x3011 = true ∧ writeBreach d 0x3011 = false := by decide

/-- The byte above a running command's output range: the host reads what it wrote, and a free value while a newer
write of its own waits (20_memory.md R105). -/
theorem test_host_memory :
    let s := runningAt .e128 .encrypt .start
    ∃ t u r, step (waiting (.memWrite 0x3011 9) s) = .next t ∧ step (waiting (.memRead 0x3011) t) = .next u ∧
      u.hostData = 9 ∧
      step (waiting (.memRead 0x3011) { t with posted := [⟨0x3011, some 7⟩] }) = .next r ∧ r.freeCount = 1 :=
  ⟨_, _, _, rfl, rfl, by decide, rfl, by decide⟩

/-- MatchingTagCompletesWithAuthOk: the computed and the expected tag are both zero. -/
theorem witness_matching_tag :
    let s := runningAt .e128 .decrypt .verify
    s.status.busy = true ∧ s.hid.phase = .verify ∧ s.hid.q.op = 2 ∧
      ∀ j, j < s.hid.q.tau.toNat → byteAt s.hid.t j = byteAt s.hid.e j :=
  ⟨by decide, by decide, by decide, fun _ _ => rfl⟩

/-- AuthFailureLeavesZeroedOutput: the wipe is done and the completion comes next. -/
theorem witness_auth_failure :
    let s := runningAt .e128 .decrypt (.finish .auth)
    s.Inv ∧ s.status.busy = true ∧ StreamRun .e128 .decrypt s ∧ s.hid.q.inOutput 0x3000 = true ∧
      ∃ t, exec (streamInstr .e128 .decrypt s.hid.q.tau.toNat) s = .next t ∧ t.status.errCode = .auth :=
  ⟨running_inv _ _ _ (.inr ⟨rfl, rfl⟩), by decide, running_streamRun _ _ _ (.inr ⟨rfl, rfl⟩), by decide,
   ⟨_, rfl, by decide⟩⟩

/-- DifferingTagWipesBeforeReporting: the tags differ in their last byte, with a message and without. -/
theorem witness_differing_tag :
    let s := runningAt .e128 .decrypt .verify
    let d := { s with hid := { s.hid with t := 1#256 <<< 120 } }
    let e := { d with hid := { d.hid with q := { d.hid.q with srcLen := 16 } } }
    (d.status.busy = true ∧ d.hid.phase = .verify ∧ 15 < d.hid.q.tau.toNat ∧
      byteAt d.hid.t 15 ≠ byteAt d.hid.e 15 ∧ 0 < d.hid.q.msgLen .decrypt ∧
      d.platform.memOK d.hid.q.dst.toNat .write = true ∧ d.platform.isDevice d.hid.q.dst.toNat = false) ∧
    (e.status.busy = true ∧ e.hid.phase = .verify ∧ 15 < e.hid.q.tau.toNat ∧
      byteAt e.hid.t 15 ≠ byteAt e.hid.e 15 ∧ e.hid.q.msgLen .decrypt = 0) := by decide

/-- EveryCompletionZeroesTheHiddenState: a completion by the core's turn and one in an acceptance. -/
theorem witness_completion :
    let s := { runningAt .e256 .encrypt (.finish .noError) with ctrl := ⟨true, false⟩ }
    let a := waiting (.regWrite 0x018 32 0x5) State.reset
    (s.status.busy = true ∧ s.inputs = [] ∧ s.ctrl.doneIE = true ∧
      ∃ t, step s = .next t ∧ t.status.busy = false) ∧
    (a.status.busy = false ∧ a.resetHeld = false ∧ a.inputs = .regWrite 0x018 32 0x5 :: [] ∧
      ∃ t, step a = .next t ∧ t.status.busy = false) :=
  ⟨⟨by decide, by decide, by decide, ⟨_, rfl, by decide⟩⟩, ⟨by decide, by decide, by decide, ⟨_, rfl, by decide⟩⟩⟩

/-- SecretsAndResultChangeOnlyAsTheirRulesSay: a KEY write, a ZEROIZE completion and an AESROUND
completion. -/
theorem witness_secret_changes :
    let w := waiting (.regWrite 0x05C 32 1) State.reset
    let z := { accept opZeroize 0 0 (fun _ => none) State.reset with key := 5, aesrOut := 1 }
    let r := accept opAesround 0 0 (fun _ => none) State.reset
    (∃ t, step w = .next t ∧ t.key ≠ w.key) ∧
    (∃ t, step z = .next t ∧ t.key ≠ z.key ∧ t.aesrOut ≠ z.aesrOut) ∧
    (∃ t, step r = .next t ∧ t.aesrOut ≠ r.aesrOut) :=
  ⟨⟨_, rfl, by decide⟩, ⟨_, rfl, by decide, by decide⟩, ⟨_, rfl, by decide +kernel⟩⟩

/-- EveryStepKeepsTheInvariant: a step of a run in a state that meets it. -/
theorem witness_invariant_step :
    let s := runningAt .e128 .decrypt (.msgRead 0)
    s.Inv ∧ ∃ t, step s = .next t := ⟨running_inv _ _ _ (by show (_ : Nat) < _; decide), ⟨_, rfl⟩⟩

/-- EveryRunCompletesWithinItsAccesses. -/
theorem witness_run_without_device :
    let s := runningAt .e256 .decrypt .start
    s.status.busy = true ∧ StreamRun .e256 .decrypt s ∧ ∀ a, s.platform.isDevice a = false :=
  ⟨by decide, running_streamRun _ _ _ trivial, fun _ => rfl⟩

/-- EncryptWritesCiphertextAndTag and DecryptWritesThePlaintextOrZeros: idle cores with served buffers. -/
theorem witness_whole_runs :
    ((ready .encrypt).Inv ∧ (ready .encrypt).status.busy = false ∧
      contractCheck .encrypt (takeSnapshot 1 Engine.e128.var (BitVec.ofNat 8 16) (ready .encrypt)) = none ∧
      Served (takeSnapshot 1 Engine.e128.var (BitVec.ofNat 8 16) (ready .encrypt)) (ready .encrypt) ∧
      16 ≤ 255) ∧
    ((ready .decrypt).Inv ∧ (ready .decrypt).status.busy = false ∧
      contractCheck .decrypt (takeSnapshot 2 Engine.e256.var (BitVec.ofNat 8 16) (ready .decrypt)) = none ∧
      Served (takeSnapshot 2 Engine.e256.var (BitVec.ofNat 8 16) (ready .decrypt)) (ready .decrypt)) :=
  ⟨⟨ready_inv _, by decide, by decide, served_of_open rfl rfl rfl, by decide⟩,
   ⟨ready_inv _, by decide, by decide, served_of_open rfl rfl rfl⟩⟩

/-- An idle core whose input is the tag of the empty message (95_test_vectors.md E1). -/
def readyE1 : State :=
  State.withBytes 0x2000
    [0xc2, 0xb8, 0x79, 0xa6, 0x7d, 0xef, 0x9d, 0x74, 0xe6, 0xc1, 0x4f, 0x70, 0x8b, 0xbc, 0xc9, 0xb4]
    { State.resetOn openPlatform with
      key := 0x0110, nonce := 0x020010, srcAddr := 0x2000, srcLen := 16, dstAddr := 0x3000 }

/-- DecryptWritesThePlaintextOrZeros: the algorithm verifies the tag. -/
theorem witness_verified_run :
    readyE1.Inv ∧ readyE1.status.busy = false ∧
      contractCheck .decrypt (takeSnapshot 2 Engine.e128.var (BitVec.ofNat 8 16) readyE1) = none ∧
      Served (takeSnapshot 2 Engine.e128.var (BitVec.ofNat 8 16) readyE1) readyE1 ∧
      (decryptBytes .e128 readyE1.key readyE1.nonce 16
        (Memory.readBytes readyE1.mem readyE1.adAddr.toNat readyE1.adLen.toNat)
        (Memory.readBytes readyE1.mem readyE1.srcAddr.toNat readyE1.srcLen.toNat)).2 = true :=
  ⟨{ memWf := by decide
     memBelow := by decide
     postedBelow := by decide
     idle := by decide
     run := fun h => absurd h (by decide)
     clear := fun h => absurd h (by decide)
     param := by decide
     auth := fun h => absurd h (by decide)
     info := by decide
     held := fun h => absurd h (by decide) }, by decide, by decide, served_of_open rfl rfl rfl, by decide +kernel⟩

end Sys2Proof.Tests
end

section
/-! SUPPORT. The register port and the events, said once: which register stands where, what each event can
answer, and the frame of a run's step. -/

namespace Sys2Proof.Machine

/-! ## The register map (10_state.md R30) -/

/-- A register found at an aligned offset exists and has that offset. -/
theorem regOffset_regAt {off : Nat} (h4 : off % 4 = 0) (hr : regAt off ≠ .reserved) :
    regOffset (regAt off) = off ∧ regExists (regAt off) = true :=
  forall_offset (P := fun off => regAt off ≠ .reserved → regOffset (regAt off) = off ∧ regExists (regAt off) = true)
    (by decide) (fun _ hhigh hne => absurd (regAt_high hhigh) hne) h4 hr

/-- The register `r` is found at no aligned offset but its own. -/
theorem regAt_eq {off : Nat} {r : Reg} (h4 : off % 4 = 0) (h : regAt off = r) (hr : r ≠ .reserved) :
    off = regOffset r ∧ regExists r = true := by
  subst h
  obtain ⟨ho, he⟩ := regOffset_regAt h4 hr
  exact ⟨ho.symm, he⟩

/-- CMD stands at 0x018 alone. -/
theorem regAt_eq_cmd_iff {off : Nat} (h4 : off % 4 = 0) : regAt off = .cmd ↔ off = 0x018 :=
  ⟨fun h => (regAt_eq h4 h (by decide)).1, by rintro rfl; rfl⟩

/-- A register write changes KEY only at one of its words. -/
theorem writeReg_key_ne {r : Reg} {v : Word} {s : State} (h : (writeReg r v s).key ≠ s.key) :
    ∃ i, r = .key i := by
  cases r
  case key i => exact ⟨i, rfl⟩
  all_goals exact absurd rfl h

/-- A register write changes NONCE only at one of its words. -/
theorem writeReg_nonce_ne {r : Reg} {v : Word} {s : State} (h : (writeReg r v s).nonce ≠ s.nonce) :
    ∃ i, r = .nonce i := by
  cases r
  case nonce i => exact ⟨i, rfl⟩
  all_goals exact absurd rfl h

/-- No register write raises DONE (10_state.md R43). -/
theorem writeReg_done {r : Reg} {v : Word} {s : State} (h : (writeReg r v s).intStatus.done = true) :
    s.intStatus.done = true := by
  cases r
  case intStatus => exact (Bool.and_eq_true_iff.mp h).1
  all_goals exact h

/-! ## What each event can answer -/

theorem portRead_next {off bits : Nat} {s t : State} (h : portRead off bits s = .next t) :
    t = { s with hostData := readReg (regAt off) s } := by
  unfold portRead at h
  split at h
  · cases h; rfl
  · cases h

/-- A register-port write is without effect while reset is asserted, goes to the command controller at CMD, and
is the write of the register elsewhere (20_memory.md R91, 70_reset_and_hazards.md R400). -/
theorem portWrite_next {off bits : Nat} {v : Word} {s t : State} (h : portWrite off bits v s = .next t) :
    bits = 32 ∧ off % 4 = 0 ∧
      ((s.resetHeld = true ∧ t = s) ∨
       (s.resetHeld = false ∧ regAt off = .cmd ∧ commandWrite v s = .next t) ∨
       (s.resetHeld = false ∧ regAt off ≠ .cmd ∧ t = writeReg (regAt off) v s)) := by
  unfold portWrite at h
  split at h
  · next hp =>
    obtain ⟨hbits, h4, -⟩ := of_decide_eq_true hp
    refine ⟨hbits, h4, ?_⟩
    split at h
    · next hr => cases h; exact .inl ⟨hr, rfl⟩
    · next hr =>
      rw [Bool.not_eq_true] at hr
      split at h
      · next hc => exact .inr (.inl ⟨hr, hc, h⟩)
      · next hc => cases h; exact .inr (.inr ⟨hr, hc, rfl⟩)
  · cases h

/-- A CMD write is dropped by a BUSY core; an idle core accepts the word (46_commands.md R320, R324). -/
theorem commandWrite_next {w : Word} {s t : State} (h : commandWrite w s = .next t) :
    (s.status.busy = true ∧ t = dropCommand s) ∨
      (s.status.busy = false ∧
        ((∃ i, decode w = .command i ∧ exec i s = .next t) ∨ t = acceptIllegal w s)) := by
  unfold commandWrite at h
  split at h
  · next hb => cases h; exact .inl ⟨hb, rfl⟩
  · next hb =>
    refine .inr ⟨by simpa using hb, ?_⟩
    split at h
    · next i hd => exact .inl ⟨i, hd, h⟩
    · cases h; exact .inr rfl

/-- A poll round touches the host's side alone. -/
theorem pollReg_next {off : Nat} {mask value : Word} {s t : State} (h : pollReg off mask value s = .next t) :
    ∃ d evs, t = { s with hostData := d, inputs := evs } := by
  simp only [pollReg] at h
  split at h
  · split at h <;> (cases h; exact ⟨_, _, rfl⟩)
  · cases h

/-- A host memory read touches the host's side alone. -/
theorem hostMemRead_next {a : Nat} {s t : State} (h : hostMemRead a s = .next t) :
    ∃ d n, t = { s with hostData := d, freeCount := n } := by
  unfold hostMemRead at h
  split at h
  · cases h
  split at h
  · cases h
  split at h
  · cases h
  split at h <;> (cases h; exact ⟨_, _, rfl⟩)

theorem hostMemWrite_next {a : Nat} {v : Byte} {s t : State} (h : hostMemWrite a v s = .next t) :
    a < Config.addrSpace ∧ writeBreach s a = false ∧
      t = { s with mem := Memory.write s.mem a v, posted := s.posted.filter fun c => c.addr ≠ a } := by
  unfold hostMemWrite at h
  split at h
  · cases h
  split at h
  · cases h
  split at h
  · cases h
  · next ha hb _ => cases h; exact ⟨by omega, by simpa using hb, rfl⟩

theorem hostMemPost_next {a : Nat} {v : Byte} {s t : State} (h : hostMemPost a v s = .next t) :
    a < Config.addrSpace ∧ t = { s with posted := s.posted ++ [⟨a, some v⟩] } := by
  unfold hostMemPost at h
  split at h
  · cases h
  split at h
  · cases h
  split at h
  · cases h
  · next ha _ _ => cases h; exact ⟨by omega, rfl⟩

/-- The host writes that land when they become visible: those outside a running command's output range. -/
def State.landing (s : State) : List Posted := s.posted.filter fun c => !readBreach s c.addr

theorem hostMemVisible_next {s t : State} (h : hostMemVisible s = .next t) :
    t = { s with
      mem := Memory.land s.landing s.freeCount s.mem
      posted := openPosted (fun _ => true) (s.posted.filter fun c => readBreach s c.addr)
      hid := { s.hid with late := s.hid.late ++ (s.landing.map Posted.addr).filter s.inSource }
      freeCount := s.freeCount + s.landing.length } := by
  cases h; rfl

theorem resetAssert_next {s t : State} (h : perform .resetAssert s = .next t) : t = assertReset s := by
  cases h; rfl

theorem resetRelease_next {s t : State} (h : perform .resetRelease s = .next t) : t = releaseReset s := by
  cases h; rfl

/-! ## Commands: acceptance and run -/

/-- Every command is a stream command or one of the two register commands. -/
theorem exec_cases (i : Instr) (s : State) :
    (∃ e d tau, i = streamInstr e d tau ∧ exec i s = streamCommand e d tau s) ∨
      ∃ op, (op = opAesround ∨ op = opZeroize) ∧ exec i s = registerCommand op s := by
  cases i with
  | encrypt128 tau => exact .inl ⟨.e128, .encrypt, tau, rfl, rfl⟩
  | encrypt256 tau => exact .inl ⟨.e256, .encrypt, tau, rfl, rfl⟩
  | decrypt128 tau => exact .inl ⟨.e128, .decrypt, tau, rfl, rfl⟩
  | decrypt256 tau => exact .inl ⟨.e256, .decrypt, tau, rfl, rfl⟩
  | aesround => exact .inr ⟨opAesround, .inl rfl, rfl⟩
  | zeroize => exact .inr ⟨opZeroize, .inr rfl, rfl⟩

/-- The state at acceptance: the report cleared, the snapshot taken (46_commands.md R321). -/
def snapshotTaken (op var : BitVec 4) (tau : BitVec 8) (s : State) : State :=
  withSnapshot (takeSnapshot op var tau s) (clearReport op s)

/-- What the acceptance of a command can leave: a CONTRACT completion, a stream run whose contract holds, or a
register run (46_commands.md R321). -/
inductive Accepted (s : State) : State → Prop where
  | refused (e : Engine) (d : Direction) (tau : BitVec 8) (p : ErrParam) (v : BitVec 64)
      (hc : contractCheck d (takeSnapshot d.op e.var tau s) = some (p, v)) :
      Accepted s (complete .contract p v (snapshotTaken d.op e.var tau s))
  | stream (e : Engine) (d : Direction) (tau : BitVec 8)
      (hc : contractCheck d (takeSnapshot d.op e.var tau s) = none) :
      Accepted s (startRun (snapshotTaken d.op e.var tau s))
  | register (op : BitVec 4) (ho : op = opAesround ∨ op = opZeroize) :
      Accepted s (startRun (snapshotTaken op 0 0 s))

/-- An idle core accepts the command. -/
theorem exec_idle_next {i : Instr} {s t : State} (hb : s.status.busy = false) (h : exec i s = .next t) :
    Accepted s t := by
  obtain ⟨e, d, tau, -, he⟩ | ⟨op, ho, he⟩ := exec_cases i s
  · rw [he, streamCommand_idle e d tau hb] at h
    cases h
    obtain ⟨p, v, hc, ha⟩ | ⟨hc, ha⟩ := accept_cases d.op e.var (BitVec.ofNat 8 tau) (contractCheck d) s
    · rw [ha]; exact .refused e d _ p v hc
    · rw [ha]; exact .stream e d _ hc
  · rw [he, registerCommand, hb] at h
    cases h
    exact .register op ho

/-- A BUSY core's AESROUND or ZEROIZE completes (46_commands.md R322). -/
theorem registerCommand_busy (op : BitVec 4) {s : State} (hb : s.status.busy = true) :
    registerCommand op s = .next (complete .noError .noParam 0 s) := by
  simp [registerCommand, hb]

/-- `s'` is `s` but for the run: the hidden state with its snapshot kept, memory, waiting host writes and free
bytes.  What a run's step does before it completes stays inside this frame. -/
def RunFrame (s s' : State) : Prop :=
  s'.hid.q = s.hid.q ∧
    s' = { s with hid := s'.hid, mem := s'.mem, posted := s'.posted, freeCount := s'.freeCount }

/-- A step of a run stays inside the run's frame, or completes from inside it. -/
def RunStep (s t : State) : Prop :=
  RunFrame s t ∨ ∃ s' c p v, RunFrame s s' ∧ t = complete c p v s'

theorem streamStep_runStep {e : Engine} {d : Direction} {s t : State} (h : streamStep e d s = .next t) :
    RunStep s t := by
  obtain ⟨a, -, hr⟩ | ⟨a, v, -, hw⟩ | ⟨c, -, rfl⟩ := streamStep_next h
  · obtain ⟨-, ⟨-, rfl⟩ | ⟨-, -, ⟨-, rfl⟩ | ⟨-, rfl⟩⟩⟩ := dmaRead_next hr
    · exact .inr ⟨_, _, _, _, ⟨settle_q e d s.hid, rfl⟩, rfl⟩
    · exact .inl ⟨by simp, rfl⟩
    · exact .inl ⟨by simp, rfl⟩
  · obtain ⟨-, ⟨-, rfl⟩ | ⟨-, -, rfl⟩⟩ := dmaWrite_next hw
    · exact .inr ⟨_, _, _, _, ⟨settle_q e d s.hid, rfl⟩, rfl⟩
    · exact .inl ⟨by simp, rfl⟩
  · exact .inr ⟨_, _, _, _, ⟨settle_q e d s.hid, rfl⟩, rfl⟩

/-- A BUSY core's step of any command. -/
theorem exec_busy_next {i : Instr} {s t : State} (hb : s.status.busy = true) (h : exec i s = .next t) :
    RunStep s t := by
  obtain ⟨e, d, tau, -, he⟩ | ⟨op, -, he⟩ := exec_cases i s
  · rw [he, streamCommand_busy e d tau hb] at h
    exact streamStep_runStep h
  · rw [he, registerCommand_busy op hb] at h
    cases h
    exact .inr ⟨s, _, _, _, ⟨rfl, rfl⟩, rfl⟩

end Sys2Proof.Machine
end

section
/-! SUPPORT. The invariant's parts: memory, the reset values, the sequencer's place, the run. -/

namespace Sys2Proof.Machine

/-! ## The memory part of the invariant (20_memory.md R95) -/

/-- Memory is canonical, and it and the waiting host writes name only addresses that exist. -/
structure State.MemInv (s : State) : Prop where
  wf : Memory.wf s.mem = true
  below : ∀ c ∈ s.mem, c.1 < Config.addrSpace
  postedBelow : ∀ c ∈ s.posted, c.addr < Config.addrSpace

theorem State.Inv.memInv {s : State} (h : s.Inv) : s.MemInv := ⟨h.memWf, h.memBelow, h.postedBelow⟩

/-- The memory part speaks of memory and the waiting host writes alone. -/
theorem State.MemInv.congr {s t : State} (h : s.MemInv) (hm : t.mem = s.mem) (hp : t.posted = s.posted) :
    t.MemInv :=
  ⟨hm ▸ h.wf, hm ▸ h.below, hp ▸ h.postedBelow⟩

theorem openPosted_below (p : Nat → Bool) {cells : List Posted} {n : Nat} (h : ∀ c ∈ cells, c.addr < n) :
    ∀ c ∈ openPosted p cells, c.addr < n := by
  intro c hc
  obtain ⟨d, hd, hda, -⟩ := mem_openPosted hc
  exact hda ▸ h d hd

/-- A write to an address that exists keeps the memory part, if the writes that still wait do. -/
theorem State.MemInv.write {s t : State} (h : s.MemInv) {a : Nat} {v : Byte} (ha : a < Config.addrSpace)
    (hm : t.mem = Memory.write s.mem a v) (hp : ∀ c ∈ t.posted, c.addr < Config.addrSpace) : t.MemInv where
  wf := hm ▸ Memory.wf_write h.wf a v
  below c hc := by
    rw [hm] at hc
    obtain hc | hc := Memory.mem_write hc
    · exact h.below c hc
    · exact hc ▸ ha
  postedBelow := hp

/-- Free bytes in an output range that exists keep the memory part. -/
theorem State.MemInv.freeOutput {s : State} (h : s.MemInv)
    (hd : s.hid.q.dst.toNat + s.hid.q.dstLen.toNat ≤ Config.addrSpace) : (freeOutput s).MemInv where
  wf := Memory.wf_freeRange _ _ _ h.wf
  below c hc := by
    obtain hc | ⟨-, hc⟩ := Memory.mem_freeRange _ _ _ hc
    · exact h.below c hc
    · omega
  postedBelow := openPosted_below s.hid.q.inOutput h.postedBelow

/-- Host writes that become visible keep the memory part. -/
theorem State.MemInv.visible {s t : State} (h : s.MemInv) (hs : hostMemVisible s = .next t) : t.MemInv := by
  rw [hostMemVisible_next hs]
  exact {
    wf := Memory.wf_land _ _ h.wf
    below := fun c hc => by
      obtain hc | ⟨d, hd, hda⟩ := Memory.mem_land _ _ hc
      · exact h.below c hc
      · exact hda ▸ h.postedBelow d (List.mem_of_mem_filter hd)
    postedBelow := openPosted_below (fun _ => true) fun c hc =>
      h.postedBelow c (List.mem_of_mem_filter hc) }

/-! ## The reset values (10_state.md R63) -/

/-- `t` is `s` but for what is no piece of the core's state: memory, the host's side, the reset input and the
platform. -/
def SameCore (s t : State) : Prop :=
  t = { s with
    mem := t.mem, posted := t.posted, inputs := t.inputs, hostData := t.hostData, freeCount := t.freeCount
    resetHeld := t.resetHeld, platform := t.platform }

theorem AtReset.congr {s t : State} (h : AtReset s) (hc : SameCore s t) : AtReset t := by
  unfold SameCore at hc
  rw [hc]
  exact { h with }

theorem AtReset.idle {s : State} (h : AtReset s) : s.status.busy = false := by rw [h.status]

theorem AtReset.hid {s : State} (h : AtReset s) : s.hid = .zero := by
  have heta : s.hid = ⟨s.hid.lanes, s.hid.t, s.hid.e, s.hid.p, s.hid.z, s.hid.q, s.hid.buf, s.hid.phase,
    s.hid.late⟩ := rfl
  rw [heta, h.lanes, h.tag, h.expected, h.pad, h.keystream, h.snapshot, h.block, h.sequencer, h.late]
  rfl

/-- Every state with the reset values and sound memory meets the invariant. -/
theorem AtReset.inv {s : State} (h : AtReset s) (hm : s.MemInv) : s.Inv where
  memWf := hm.wf
  memBelow := hm.below
  postedBelow := hm.postedBelow
  idle _ := h.hid
  run hb := absurd h.idle (by simp [hb])
  clear hb := absurd h.idle (by simp [hb])
  param := by simp [h.status]
  auth := by simp [h.status]
  info _ := h.errInfo
  held _ := h

theorem resetOn_atReset (p : Platform) : AtReset (State.resetOn p) := by constructor <;> rfl

theorem resetOn_memInv (p : Platform) : (State.resetOn p).MemInv :=
  ⟨rfl, fun _ hc => absurd hc List.not_mem_nil, fun _ hc => absurd hc List.not_mem_nil⟩

/-! ## The sequencer's place (20_memory.md R102) -/

/-- After the last byte of a block the sequencer stands where a block ends. -/
theorem blockEnd_of_endsBlock {e : Engine} {i len : Nat} (hi : i < len) (h : endsBlock e i len = true) :
    0 < i + 1 ∧ i + 1 ≤ len ∧ ((i + 1) % e.rate = 0 ∨ i + 1 = len) :=
  ⟨Nat.succ_pos i, hi, of_decide_eq_true h⟩

/-- Inside a block there is a next byte. -/
theorem succ_lt_of_not_endsBlock {e : Engine} {i len : Nat} (hi : i < len) (h : ¬ endsBlock e i len = true) :
    i + 1 < len := by
  simp only [endsBlock, decide_eq_true_eq, not_or] at h
  omega

/-- A completed read leaves the sequencer at a place of the access sequence, neither wiping nor done. -/
theorem phaseOk_afterRead {e : Engine} {d : Direction} {h : Hidden} {a : Nat} (b : Byte)
    (ho : phaseOk e d h) (hr : nextAccess e d h = .read a) :
    phaseOk e d (afterRead e d b h) ∧ (∀ i, (afterRead e d b h).phase ≠ .wipe i) ∧
      (afterRead e d b h).phase ≠ .finish .auth := by
  unfold phaseOk at ho ⊢
  rw [afterRead_q, afterRead_phase]
  obtain ⟨i, hp, -⟩ | ⟨i, hp, -⟩ | ⟨j, hp, hd, -⟩ := nextAccess_read hr
  · simp only [hp] at ho ⊢
    split_ifs with he
    · exact ⟨blockEnd_of_endsBlock ho he, by simp⟩
    · exact ⟨succ_lt_of_not_endsBlock ho he, by simp⟩
  · simp only [hp] at ho ⊢
    split_ifs with he
    · exact ⟨blockEnd_of_endsBlock ho he, by simp⟩
    · exact ⟨succ_lt_of_not_endsBlock ho he, by simp⟩
  · simp only [hp] at ho ⊢
    split_ifs with he
    · exact ⟨hd, by simp⟩
    · exact ⟨by dsimp only; omega, by simp⟩

/-- A completed write leaves the sequencer at a place of the access sequence; it is wiping, or has wiped
everything, only after the write of a zero byte in order. -/
theorem phaseOk_afterWrite {e : Engine} {d : Direction} {h : Hidden} {a : Nat} {v : Byte}
    (ho : phaseOk e d h) (hw : nextAccess e d h = .write a v) :
    phaseOk e d (afterWrite e d h) ∧
      ∀ n, ((afterWrite e d h).phase = .wipe n ∨
          ((afterWrite e d h).phase = .finish .auth ∧ n = h.q.msgLen d)) →
        ∃ i, n = i + 1 ∧ h.phase = .wipe i ∧ a = h.q.dst.toNat + i ∧ v = 0 := by
  unfold phaseOk at ho ⊢
  rw [afterWrite_q, afterWrite_phase]
  obtain ⟨i, hp, -⟩ | ⟨j, hp, hd, -⟩ | ⟨i, hp, ha, hv⟩ := nextAccess_write hw
  · simp only [hp] at ho ⊢
    split_ifs with he
    · exact ⟨blockEnd_of_endsBlock ho he, by simp⟩
    · exact ⟨succ_lt_of_not_endsBlock ho he, by simp⟩
  · simp only [hp] at ho ⊢
    split_ifs with he
    · exact ⟨.inl ⟨rfl, hd⟩, by simp⟩
    · exact ⟨by dsimp only; omega, by simp⟩
  · simp only [hp] at ho ⊢
    split_ifs with he
    · refine ⟨.inr ⟨rfl, ho.1⟩, fun n hn => ⟨i, ?_, rfl, ha, hv⟩⟩
      obtain hn | ⟨-, hn⟩ := hn
      · cases hn
      · omega
    · refine ⟨⟨ho.1, by omega⟩, fun n hn => ⟨i, ?_, rfl, ha, hv⟩⟩
      obtain hn | ⟨hn, -⟩ := hn
      · cases hn; rfl
      · cases hn

/-! ## A running ENCRYPT or DECRYPT -/

theorem StreamRun.hasBuffers {e : Engine} {d : Direction} {s : State} (h : StreamRun e d s) :
    s.hid.q.hasBuffers = true := by
  rw [Snapshot.hasBuffers, h.op]
  cases d <;> decide

/-- AESROUND and ZEROIZE have no buffers (20_memory.md R101). -/
theorem RegisterRun.hasBuffers {s : State} (h : RegisterRun s) : s.hid.q.hasBuffers = false := by
  obtain ho | ho := h.op <;> rw [Snapshot.hasBuffers, ho] <;> decide

/-- A check that answers nothing did not fail, and neither did those behind it. -/
theorem ite_some_eq_none_iff {α : Type} {c : Prop} [Decidable c] {x : α} {r : Option α} :
    (if c then some x else r) = none ↔ ¬ c ∧ r = none := by
  split <;> simp [*]

/-- What a check answers names no `a`, if neither it nor those behind it do. -/
theorem forall_mem_ite_some {α β : Type} {c : Prop} [Decidable c] {a : α} {x : α × β} {r : Option (α × β)}
    (hx : x.1 ≠ a) (hr : ∀ y ∈ r, y.1 ≠ a) : ∀ y ∈ (if c then some x else r), y.1 ≠ a := by
  split
  · rintro y ⟨⟩
    exact hx
  · exact hr

/-- What a contract that holds says of the tag size and the output range (46_commands.md R327, R330, R331). -/
theorem contractCheck_none {d : Direction} {q : Snapshot} (h : contractCheck d q = none) :
    (q.tau.toNat = 16 ∨ q.tau.toNat = 32) ∧ q.dst.toNat + q.dstLen.toNat ≤ Config.addrSpace ∧
      q.msgLen d ≤ q.dstLen.toNat := by
  simp only [contractCheck, ite_some_eq_none_iff] at h
  obtain ⟨htau, -, -, -, hlen, -, hdst, -⟩ := h
  cases d
  all_goals
    dsimp only at hlen
    omega

/-- A contract violation names a parameter (10_state.md R42). -/
theorem contractCheck_some {d : Direction} {q : Snapshot} {p : ErrParam} {v : BitVec 64}
    (h : contractCheck d q = some (p, v)) : p ≠ .noParam := by
  suffices hall : ∀ y ∈ contractCheck d q, y.1 ≠ .noParam from hall _ h
  unfold contractCheck
  iterate 9 refine forall_mem_ite_some (fun hne => by cases hne) ?_
  exact fun y hy => absurd hy (Option.not_mem_none y)

end Sys2Proof.Machine
end

section
/-! SUPPORT. One step, said once: the effect of the event it takes. -/

namespace Sys2Proof.Machine

/-- A step performs the first waiting input, or the core's turn when none waits. -/
theorem step_perform (s : State) :
    step s = perform (s.inputs.headD .core) (s.withInputs s.inputs.tail) := by
  cases hi : s.inputs with
  | nil =>
    have hs : s.withInputs [] = s := by rw [← hi]; rfl
    rw [step_noInput hi, List.headD_nil, List.tail_nil, hs]
    rfl
  | cons ev rest => exact step_input hi

/-- An input that a step takes was waiting. -/
theorem inputs_of_headD {s : State} {ev : Event} (hc : ev ≠ .core) (h : s.inputs.headD .core = ev) :
    s.inputs = ev :: s.inputs.tail := by
  cases hi : s.inputs with
  | nil => rw [hi] at h; exact absurd h.symm hc
  | cons _ _ => rw [hi] at h; subst h; rfl

/-- What the host's side can do: no register and nothing of the run changes but the late bytes, and the output
range of a running command keeps its bytes (20_memory.md R103, R105). -/
structure HostEffect (s t : State) : Prop where
  core : t = { s with
    hid := { s.hid with late := t.hid.late }, mem := t.mem, posted := t.posted, inputs := t.inputs
    hostData := t.hostData, freeCount := t.freeCount }
  late : s.status.busy = false → t.hid.late = s.hid.late
  output : ∀ a, readBreach s a = true → Memory.read t.mem a = Memory.read s.mem a
  memInv : s.MemInv → t.MemInv

theorem HostEffect.hid {s t : State} (h : HostEffect s t) : t.hid = { s.hid with late := t.hid.late } := by
  conv_lhs => rw [h.core]

/-- While the core is idle the host's side leaves the core as it is. -/
theorem HostEffect.sameCore {s t : State} (h : HostEffect s t) (hb : s.status.busy = false) :
    SameCore s t := by
  have hr : t.resetHeld = s.resetHeld := by rw [h.core]
  have hp : t.platform = s.platform := by rw [h.core]
  have hc := h.core
  rw [h.late hb] at hc
  rw [SameCore, hr, hp]
  exact hc

theorem hostEffect_hostSide (s : State) (d : Word) (evs : List Event) (n : Nat) :
    HostEffect s { s with hostData := d, inputs := evs, freeCount := n } where
  core := rfl
  late _ := rfl
  output _ _ := rfl
  memInv h := h.congr rfl rfl

/-- An address a host may write lies in no output range of a running command. -/
theorem readBreach_of_writeBreach {s : State} {a : Nat} (h : writeBreach s a = false) :
    readBreach s a = false := by
  simp only [writeBreach, readBreach, Bool.and_eq_false_iff, Bool.or_eq_false_iff] at h ⊢
  tauto

theorem hostEffect_memWrite {a : Nat} {v : Byte} {s t : State} (h : hostMemWrite a v s = .next t) :
    HostEffect s t := by
  obtain ⟨ha, hb, rfl⟩ := hostMemWrite_next h
  exact {
    core := rfl
    late := fun _ => rfl
    output := fun c hc => Memory.read_write_of_ne _
      (fun hca => by rw [hca, readBreach_of_writeBreach hb] at hc; cases hc) v
    memInv := fun hm => hm.write ha rfl fun c hc => hm.postedBelow c (List.mem_of_mem_filter hc) }

theorem hostEffect_memPost {a : Nat} {v : Byte} {s t : State} (h : hostMemPost a v s = .next t) :
    HostEffect s t := by
  obtain ⟨ha, rfl⟩ := hostMemPost_next h
  exact {
    core := rfl
    late := fun _ => rfl
    output := fun _ _ => rfl
    memInv := fun hm => ⟨hm.wf, hm.below, fun c hc => by
      obtain hc | hc := List.mem_append.mp hc
      · exact hm.postedBelow c hc
      · rw [List.mem_singleton.mp hc]; exact ha⟩ }

theorem hostEffect_memVisible {s t : State} (h : hostMemVisible s = .next t) : HostEffect s t where
  core := by rw [hostMemVisible_next h]
  late hb := by
    have hsrc : ∀ a, s.inSource a = false := fun a => by simp [State.inSource, hb]
    rw [hostMemVisible_next h]
    simp [hsrc]
  output a ha := by
    rw [hostMemVisible_next h]
    refine Memory.read_land_of_not_mem _ _ _ fun c hc hca => ?_
    have hnb := (List.mem_filter.mp hc).2
    rw [hca, ha] at hnb
    cases hnb
  memInv hm := hm.visible h

/-- What the event `ev` can leave of `s`. -/
inductive Effect (s : State) : Event → State → Prop where
  /-- The host's side moves, or an idle core stutters. -/
  | host {ev t} (h : HostEffect s t) : Effect s ev t
  | register {off v} (h4 : off % 4 = 0) (hr : s.resetHeld = false) (hc : regAt off ≠ .cmd) :
    Effect s (.regWrite off 32 v) (writeReg (regAt off) v s)
  | drop {ev} (hr : s.resetHeld = false) (hb : s.status.busy = true) : Effect s ev (dropCommand s)
  | illegal {ev} (w : Word) (hr : s.resetHeld = false) (hb : s.status.busy = false) :
    Effect s ev (acceptIllegal w s)
  | accept {ev t} (hr : s.resetHeld = false) (hb : s.status.busy = false) (h : Accepted s t) : Effect s ev t
  | run {ev t} (i : Instr) (hb : s.status.busy = true) (hd : decode s.hid.q.word = .command i)
      (h : exec i s = .next t) : Effect s ev t
  | assert : Effect s .resetAssert (assertReset s)
  | release : Effect s .resetRelease (releaseReset s)

theorem coreTurn_effect {s t : State} {ev : Event} (h : coreTurn s = .next t) : Effect s ev t := by
  obtain ⟨-, rfl⟩ | ⟨i, hb, hd, he⟩ := coreTurn_next h
  · exact .host (hostEffect_hostSide t t.hostData t.inputs t.freeCount)
  · exact .run i hb hd he

theorem portWrite_effect {off bits : Nat} {v : Word} {s t : State} (h : portWrite off bits v s = .next t) :
    Effect s (.regWrite off bits v) t := by
  obtain ⟨rfl, h4, ⟨-, rfl⟩ | ⟨hr, -, hw⟩ | ⟨hr, hc, rfl⟩⟩ := portWrite_next h
  · exact .host (hostEffect_hostSide t t.hostData t.inputs t.freeCount)
  · obtain ⟨hb, rfl⟩ | ⟨hb, ⟨i, -, he⟩ | rfl⟩ := commandWrite_next hw
    · exact .drop hr hb
    · exact .accept hr hb (exec_idle_next hb he)
    · exact .illegal v hr hb
  · exact .register h4 hr hc

/-- An event that answers a next state has one of the effects. -/
theorem perform_effect {ev : Event} {s t : State} (h : perform ev s = .next t) : Effect s ev t := by
  cases ev with
  | core => exact coreTurn_effect h
  | regRead off bits =>
    rw [portRead_next h]
    exact .host (hostEffect_hostSide s _ s.inputs s.freeCount)
  | regWrite off bits v => exact portWrite_effect h
  | poll off mask value =>
    obtain ⟨d, evs, rfl⟩ := pollReg_next h
    exact .host (hostEffect_hostSide s d evs s.freeCount)
  | memRead a =>
    obtain ⟨d, n, rfl⟩ := hostMemRead_next h
    exact .host (hostEffect_hostSide s d s.inputs n)
  | memWrite a v => exact .host (hostEffect_memWrite h)
  | memPost a v => exact .host (hostEffect_memPost h)
  | memVisible => exact .host (hostEffect_memVisible h)
  | resetAssert => rw [resetAssert_next h]; exact .assert
  | resetRelease => rw [resetRelease_next h]; exact .release

/-- The effect of a step, from the state whose first input has been taken. -/
theorem step_effect {s t : State} (h : step s = .next t) :
    Effect (s.withInputs s.inputs.tail) (s.inputs.headD .core) t :=
  perform_effect (step_perform s ▸ h)

/-! ## What every effect keeps -/

/-- The core moves neither the platform nor the reset input (00_scope.md R8, 70_reset_and_hazards.md R400). -/
theorem RunStep.platform_resetHeld {s t : State} (h : RunStep s t) :
    t.platform = s.platform ∧ t.resetHeld = s.resetHeld := by
  obtain ⟨-, h⟩ | ⟨s', c, p, v, ⟨-, h⟩, rfl⟩ := h
  · rw [h]; exact ⟨rfl, rfl⟩
  · rw [complete_platform, complete_resetHeld, h]; exact ⟨rfl, rfl⟩

theorem Accepted.platform_resetHeld {s t : State} (h : Accepted s t) :
    t.platform = s.platform ∧ t.resetHeld = s.resetHeld := by
  cases h <;> exact ⟨rfl, rfl⟩

theorem Effect.platform {s t : State} {ev : Event} (h : Effect s ev t) : t.platform = s.platform := by
  cases h with
  | host h => rw [h.core]
  | register => exact writeReg_platform _ _ _
  | drop => rfl
  | illegal => rfl
  | accept _ _ h => exact h.platform_resetHeld.1
  | run i hb _ h => exact (exec_busy_next hb h).platform_resetHeld.1
  | assert => rfl
  | release => rfl

/-- Reset is asserted only where it was, or by the event that asserts it. -/
theorem Effect.resetHeld {s t : State} {ev : Event} (h : Effect s ev t) (ht : t.resetHeld = true) :
    s.resetHeld = true ∨ t = assertReset s := by
  cases h with
  | host h => left; rwa [h.core] at ht
  | register => left; rwa [writeReg_resetHeld] at ht
  | drop => exact .inl ht
  | illegal => exact .inl ht
  | accept _ _ h => left; rwa [h.platform_resetHeld.2] at ht
  | run i hb _ h => left; rwa [(exec_busy_next hb h).platform_resetHeld.2] at ht
  | assert => exact .inr rfl
  | release => cases ht

/-- While reset is asserted every event keeps the reset values, and only its release ends it
(70_reset_and_hazards.md R400). -/
theorem Effect.atReset {s t : State} {ev : Event} (h : Effect s ev t) (hr : s.resetHeld = true)
    (ha : AtReset s) : AtReset t ∧ (ev ≠ .resetRelease → t.resetHeld = true) := by
  cases h with
  | host h => exact ⟨ha.congr (h.sameCore ha.idle), fun _ => by rw [h.core]; exact hr⟩
  | register _ hr' => rw [hr'] at hr; cases hr
  | drop hr' => rw [hr'] at hr; cases hr
  | illegal _ hr' => rw [hr'] at hr; cases hr
  | accept hr' => rw [hr'] at hr; cases hr
  | run i hb => rw [ha.idle] at hb; cases hb
  | assert => exact ⟨assertReset_atReset s, fun _ => rfl⟩
  | release => exact ⟨ha.congr rfl, fun hne => absurd rfl hne⟩

/-- If asserted reset means the reset values before a step, it does after it. -/
theorem Effect.held {s t : State} {ev : Event} (h : Effect s ev t) (hs : s.resetHeld = true → AtReset s)
    (ht : t.resetHeld = true) : AtReset t := by
  obtain hr | rfl := h.resetHeld ht
  · exact (h.atReset hr (hs hr)).1
  · exact assertReset_atReset s

end Sys2Proof.Machine
end

section
/-! SUPPORT. The invariant: kept by the host's side, by acceptance, by a completion and by every step of a run. -/

namespace Sys2Proof.Machine

/-! ## What the fields of the invariant need of a step -/

/-- The report of the last or running command is as it was. -/
structure SameReport (s t : State) : Prop where
  status : t.status = s.status
  errInfo : t.errInfo = s.errInfo
  done : t.intStatus.done = true → s.intStatus.done = true

/-- A state with the same report meets the invariant when its memory, its hidden state and its reset values do. -/
theorem State.Inv.of_sameReport {s t : State} (h : s.Inv) (hrep : SameReport s t) (hm : t.MemInv)
    (hq : t.hid.q = s.hid.q) (hidle : s.status.busy = false → t.hid = .zero)
    (hrun : s.status.busy = true → (∃ e d, StreamRun e d t) ∨ RegisterRun t)
    (hheld : t.resetHeld = true → AtReset t) : t.Inv := by
  obtain ⟨hst, hei, hdone⟩ := hrep
  exact {
    memWf := hm.wf
    memBelow := hm.below
    postedBelow := hm.postedBelow
    idle := fun hb => hidle (hst ▸ hb)
    run := fun hb => hrun (hst ▸ hb)
    clear := fun hb => by
      obtain ⟨hc, hi, hd, ha, ho⟩ := h.clear (hst ▸ hb)
      rw [hst, hei, hq]
      exact ⟨hc, hi, Bool.eq_false_iff.mpr fun hd' => by simp [hdone hd'] at hd, ha, ho⟩
    param := hst ▸ h.param
    auth := hst ▸ h.auth
    info := by rw [hst, hei]; exact h.info
    held := hheld }

/-- Reset is released while a command runs (70_reset_and_hazards.md R400). -/
theorem State.Inv.released {s : State} (h : s.Inv) (hb : s.status.busy = true) : s.resetHeld = false :=
  Bool.eq_false_iff.mpr fun hr => by simp [(h.held hr).idle] at hb

/-- A completion meets the invariant, whatever the hidden state held (46_commands.md R323). -/
theorem complete_inv {c : ErrCode} {p : ErrParam} {v : BitVec 64} {s : State} (hm : s.MemInv)
    (hr : s.resetHeld = false) (hp : p ≠ .noParam ↔ c = .contract) (hv : c = .noError ∨ c = .auth → v = 0)
    (ho : c = .noError → s.status.lastOp = s.hid.q.op) : (complete c p v s).Inv where
  memWf := hm.wf
  memBelow := hm.below
  postedBelow := hm.postedBelow
  idle _ := rfl
  run hb := by simp at hb
  clear hb := by simp at hb
  param := hp
  auth hok := by
    obtain ⟨hc, hop⟩ := of_decide_eq_true (complete_status c p v s ▸ hok)
    exact ⟨hc, (ho hc).trans hop⟩
  info := hv
  held ht := by rw [complete_resetHeld, hr] at ht; cases ht

/-! ## A running ENCRYPT or DECRYPT -/

theorem StreamRun.tau_pos {e : Engine} {d : Direction} {s : State} (h : StreamRun e d s) :
    0 < s.hid.q.tau.toNat := by
  obtain ⟨htau, -⟩ := contractCheck_none h.contract
  omega

/-- A place in the wipe is a place in the output range. -/
theorem StreamRun.inOutput {e : Engine} {d : Direction} {s : State} (h : StreamRun e d s) {j : Nat}
    (hj : j < s.hid.q.msgLen d) : s.hid.q.inOutput (s.hid.q.dst.toNat + j) = true := by
  obtain ⟨-, -, hlen⟩ := contractCheck_none h.contract
  rw [Snapshot.inOutput, inRange, decide_eq_true_eq]
  omega

/-- The wipe stands inside the message. -/
theorem StreamRun.wipe_lt {e : Engine} {d : Direction} {s : State} (h : StreamRun e d s) {i : Nat}
    (hi : s.hid.phase = .wipe i) : i < s.hid.q.msgLen d := by
  have hplace := h.phase
  unfold phaseOk at hplace
  rw [hi] at hplace
  exact hplace.2

/-- The run goes on where only late bytes and bytes outside the output range have changed. -/
theorem StreamRun.frame {e : Engine} {d : Direction} {s t : State} (h : StreamRun e d s)
    (hh : t.hid = { s.hid with late := t.hid.late })
    (hm : ∀ a, s.hid.q.inOutput a = true → Memory.read t.mem a = Memory.read s.mem a) : StreamRun e d t := by
  have hwiped : ∀ n, n ≤ s.hid.q.msgLen d → wipedTo s n → wipedTo t n := fun n hn hw j hj => by
    rw [hh, hm _ (h.inOutput (by omega))]
    exact hw j hj
  have hq : t.hid.q = s.hid.q := by rw [hh]
  have hp : t.hid.phase = s.hid.phase := by rw [hh]
  exact {
    op := hq ▸ h.op
    var := hq ▸ h.var
    contract := hq ▸ h.contract
    phase := by rw [hh]; exact h.phase
    pad := by rw [hh]; exact h.pad
    lanes := by rw [hh]; exact h.lanes
    wiping := fun i hi => by
      rw [hp] at hi
      exact hwiped i (h.wipe_lt hi).le (h.wiping i hi)
    wiped := fun hf => by
      rw [hp] at hf
      rw [hq]
      exact hwiped _ le_rfl (h.wiped hf) }

theorem upcoming_finish {e : Engine} {d : Direction} {s : State} {c : ErrCode}
    (h : (settle e d s.hid).phase = .finish c) : upcoming e d s = .finish c := by
  simp [upcoming, nextAccess, h]

/-- The computation before an access keeps the run (46_commands.md R322). -/
theorem StreamRun.of_settle {e : Engine} {d : Direction} {s : State} (h : StreamRun e d s)
    (hnf : ∀ c, upcoming e d s ≠ .finish c) :
    StreamRun e d (s.onHidden (settle e d)) where
  op := by simpa using h.op
  var := by simpa using h.var
  contract := by simpa using h.contract
  phase := by
    obtain ho | ⟨c, hc, -⟩ := settle_phaseOk h.tau_pos h.phase
    · exact ho
    · exact absurd (upcoming_finish hc) (hnf c)
  pad := settle_p e d h.pad
  lanes he := by subst he; exact settle256_shortZero d (h.lanes rfl)
  wiping i hi := by
    obtain hw | ⟨-, rfl⟩ := settle_wipe hi
    · intro j hj
      simpa using h.wiping i hw j hj
    · exact fun j hj => absurd hj (Nat.not_lt_zero j)
  wiped hf := absurd (upcoming_finish hf) (hnf .auth)

/-- A completed read keeps the run. -/
theorem StreamRun.of_afterRead {e : Engine} {d : Direction} {s t : State} {a : Nat} {b : Byte}
    (h : StreamRun e d s) (hr : nextAccess e d s.hid = .read a)
    (hh : t.hid = afterRead e d b s.hid) : StreamRun e d t := by
  obtain ⟨hplace, hnw, hnf⟩ := phaseOk_afterRead b h.phase hr
  exact {
    op := by simpa [hh] using h.op
    var := by simpa [hh] using h.var
    contract := by simpa [hh] using h.contract
    phase := hh ▸ hplace
    pad := by simpa [hh] using h.pad
    lanes := by simpa [hh] using h.lanes
    wiping := fun i hi => absurd (hh ▸ hi) (hnw i)
    wiped := fun hf => absurd (hh ▸ hf) hnf }

/-- A completed write keeps the run; in the wipe one byte more is zero (45_finalize_verify.md R298). -/
theorem StreamRun.of_afterWrite {e : Engine} {d : Direction} {s t : State} {a : Nat} {v : Byte}
    (h : StreamRun e d s) (hwf : Memory.wf s.mem = true) (hw : nextAccess e d s.hid = .write a v)
    (hh : t.hid = afterWrite e d s.hid) (hm : t.mem = Memory.write s.mem a v) : StreamRun e d t := by
  obtain ⟨hplace, hwipe⟩ := phaseOk_afterWrite h.phase hw
  have hq : t.hid.q = s.hid.q := by rw [hh, afterWrite_q]
  have hwiped : ∀ n i, n = i + 1 → s.hid.phase = .wipe i → a = s.hid.q.dst.toNat + i → v = 0 →
      wipedTo t n := by
    rintro n i rfl hp rfl rfl j hj
    rw [hq, hm]
    by_cases hji : j = i
    · rw [hji, Memory.read_write_same (lo := 0) hwf]
    · rw [Memory.read_write_of_ne _ (by omega)]
      exact h.wiping i hp j (by omega)
  exact {
    op := hq ▸ h.op
    var := hq ▸ h.var
    contract := hq ▸ h.contract
    phase := hh ▸ hplace
    pad := by simpa [hh] using h.pad
    lanes := by simpa [hh] using h.lanes
    wiping := fun n hn => by
      obtain ⟨i, hni, hp, ha, hv⟩ := hwipe n (.inl (hh ▸ hn))
      exact hwiped n i hni hp ha hv
    wiped := fun hf => by
      obtain ⟨i, hni, hp, ha, hv⟩ := hwipe _ (.inr ⟨hh ▸ hf, rfl⟩)
      rw [hq]
      exact hwiped _ i hni hp ha hv }

/-- A run that loses no access to the platform reports NONE or AUTH (44_decrypt.md R270). -/
theorem StreamRun.finish {e : Engine} {d : Direction} {s : State} {c : ErrCode} (h : StreamRun e d s)
    (hf : (settle e d s.hid).phase = .finish c) : c = .noError ∨ c = .auth := by
  obtain ho | ⟨c', hc', -, hor⟩ := settle_phaseOk h.tau_pos h.phase
  · unfold phaseOk at ho
    rw [hf] at ho
    exact ho.imp And.left And.left
  · rw [hf] at hc'
    cases hc'
    exact hor

/-! ## Every effect keeps the invariant -/

theorem HostEffect.sameReport {s t : State} (h : HostEffect s t) : SameReport s t := by
  rw [h.core]
  exact ⟨rfl, rfl, id⟩

/-- The invariant holds where the report and the run are as they were but for late bytes, and the output range
of a running command has kept its bytes. -/
theorem State.Inv.of_sameRun {s t : State} (h : s.Inv) (hrep : SameReport s t) (hm : t.MemInv)
    (hh : t.hid = { s.hid with late := t.hid.late })
    (hlate : s.status.busy = false → t.hid.late = s.hid.late)
    (hout : ∀ a, readBreach s a = true → Memory.read t.mem a = Memory.read s.mem a)
    (hheld : t.resetHeld = true → AtReset t) : t.Inv := by
  have hq : t.hid.q = s.hid.q := by rw [hh]
  have hp : t.hid.phase = s.hid.phase := by rw [hh]
  have hidle : s.status.busy = false → t.hid = .zero := fun hb => by
    rw [hh, hlate hb]
    exact h.idle hb
  refine h.of_sameReport hrep hm hq hidle (fun hb => ?_) hheld
  obtain ⟨e, d, hrun⟩ | hrun := h.run hb
  · refine .inl ⟨e, d, hrun.frame hh fun a ha => hout a ?_⟩
    simp [readBreach, hb, ha, hrun.hasBuffers]
  · exact .inr ⟨hq ▸ hrun.op, hq ▸ hrun.var, hq ▸ hrun.tau, hp ▸ hrun.phase⟩

theorem State.Inv.of_hostEffect {s t : State} (h : s.Inv) (he : HostEffect s t)
    (hheld : t.resetHeld = true → AtReset t) : t.Inv :=
  h.of_sameRun he.sameReport (he.memInv h.memInv) he.hid he.late he.output hheld

/-- A step that leaves the hidden state, memory and waiting writes alone and moves no report keeps the
invariant. -/
theorem State.Inv.of_sameHidden {s t : State} (h : s.Inv) (hrep : SameReport s t) (hh : t.hid = s.hid)
    (hm : t.mem = s.mem) (hp : t.posted = s.posted) (hheld : t.resetHeld = true → AtReset t) : t.Inv :=
  h.of_sameRun hrep (h.memInv.congr hm hp) (hh ▸ rfl) (fun _ => hh ▸ rfl) (fun _ _ => hm ▸ rfl) hheld

/-- The start of a run meets the invariant if the run it starts is one (46_commands.md R321). -/
theorem startRun_inv {op var : BitVec 4} {tau : BitVec 8} {s : State} (h : s.Inv)
    (hr : s.resetHeld = false)
    (hrun : (∃ e d, StreamRun e d (startRun (snapshotTaken op var tau s))) ∨
      RegisterRun (startRun (snapshotTaken op var tau s))) :
    (startRun (snapshotTaken op var tau s)).Inv where
  memWf := h.memWf
  memBelow := h.memBelow
  postedBelow := h.postedBelow
  idle hb := by simp at hb
  run _ := hrun
  clear _ := ⟨rfl, rfl, rfl, rfl, rfl⟩
  param := by simp [snapshotTaken]
  auth hok := by simp [snapshotTaken] at hok
  info _ := rfl
  held ht := by simp [snapshotTaken, hr] at ht

theorem State.Inv.of_accepted {s t : State} (h : s.Inv) (hr : s.resetHeld = false)
    (hb : s.status.busy = false) (ha : Accepted s t) : t.Inv := by
  cases ha with
  | refused e d tau p v hc =>
    exact complete_inv (h.memInv.congr rfl rfl) hr (by simpa using contractCheck_some hc) (by simp) (by simp)
  | stream e d tau hc =>
    have hz : (startRun (snapshotTaken d.op e.var tau s)).hid =
        { Hidden.zero with q := takeSnapshot d.op e.var tau s, phase := .start } := by
      simp [snapshotTaken, h.idle hb]
    refine startRun_inv h hr (.inl ⟨e, d, ?_⟩)
    exact {
      op := rfl
      var := rfl
      contract := hc
      phase := trivial
      pad := by rw [hz]; rfl
      lanes := fun _ => by rw [hz]; exact ⟨rfl, rfl⟩
      wiping := fun i hi => by simp at hi
      wiped := fun hf => by simp at hf }
  | register op ho => exact startRun_inv h hr (.inr ⟨ho, rfl, rfl, rfl⟩)

/-- A refused access completes with BUS and keeps the invariant (20_memory.md R106). -/
theorem raiseBus_inv {d : Direction} {s : State} (hm : s.MemInv) (hr : s.resetHeld = false)
    (hc : contractCheck d s.hid.q = none) (a : Nat) : (raiseBus a s).Inv := by
  obtain ⟨-, hdst, -⟩ := contractCheck_none hc
  exact complete_inv (hm.freeOutput hdst) hr (by simp) (by simp) (by simp)

/-- The invariant holds where a run goes on. -/
theorem State.Inv.runGoesOn {e : Engine} {d : Direction} {s t : State} (h : s.Inv)
    (hb : s.status.busy = true) (hrep : SameReport s t) (hheld : t.resetHeld = s.resetHeld) (hm : t.MemInv)
    (hq : t.hid.q = s.hid.q) (hrun : StreamRun e d t) : t.Inv := by
  refine h.of_sameReport hrep hm hq (fun hb' => ?_) (fun _ => .inl ⟨e, d, hrun⟩) (fun ht => ?_)
  · rw [hb] at hb'; cases hb'
  · rw [hheld, h.released hb] at ht; cases ht

/-- A step of the run of ENCRYPT or DECRYPT keeps the invariant. -/
theorem State.Inv.of_streamStep {e : Engine} {d : Direction} {s t : State} (h : s.Inv)
    (hb : s.status.busy = true) (hrun : StreamRun e d s) (hs : streamStep e d s = .next t) : t.Inv := by
  have hr := h.released hb
  have hcontract : contractCheck d (s.onHidden (settle e d)).hid.q = none := by simpa using hrun.contract
  have hmem : (s.onHidden (settle e d)).MemInv := h.memInv.congr rfl rfl
  obtain ⟨a, hacc, hread⟩ | ⟨a, v, hacc, hwrite⟩ | ⟨c, hacc, rfl⟩ := streamStep_next hs
  · have hset := hrun.of_settle (by simp [hacc])
    obtain ⟨-, ⟨-, rfl⟩ | ⟨-, -, ⟨-, rfl⟩ | ⟨-, rfl⟩⟩⟩ := dmaRead_next hread
    · exact raiseBus_inv hmem hr hcontract a
    · exact h.runGoesOn hb ⟨rfl, rfl, id⟩ rfl (hmem.congr rfl rfl) (by simp) (hset.of_afterRead hacc rfl)
    · exact h.runGoesOn hb ⟨rfl, rfl, id⟩ rfl (hmem.congr rfl rfl) (by simp) (hset.of_afterRead hacc rfl)
  · have hset := hrun.of_settle (by simp [hacc])
    obtain ⟨ha, ⟨-, rfl⟩ | ⟨-, -, rfl⟩⟩ := dmaWrite_next hwrite
    · exact raiseBus_inv hmem hr hcontract a
    · exact h.runGoesOn hb ⟨rfl, rfl, id⟩ rfl
        (hmem.write ha rfl (openPosted_below (fun b => b = a) h.postedBelow)) (by simp)
        (hset.of_afterWrite h.memWf hacc rfl rfl)
  · obtain ⟨-, -, -, -, hop⟩ := h.clear hb
    refine complete_inv hmem hr ?_ (fun _ => rfl) (fun _ => by simpa using hop)
    obtain rfl | rfl := hrun.finish (nextAccess_finish hacc) <;> simp

/-- The command a running snapshot names is the one that runs. -/
theorem StreamRun.decoded {e : Engine} {d : Direction} {s : State} (h : StreamRun e d s) :
    decode s.hid.q.word = .command (streamInstr e d s.hid.q.tau.toNat) := by
  rw [Snapshot.word, h.op, h.var]
  exact decode_streamWord e d s.hid.q.tau

theorem RegisterRun.decoded {s : State} (h : RegisterRun s) :
    decode s.hid.q.word = .command .aesround ∨ decode s.hid.q.word = .command .zeroize := by
  rw [Snapshot.word, h.var, h.tau]
  obtain ho | ho := h.op
  · rw [ho]; exact .inl (by decide)
  · rw [ho]; exact .inr (by decide)

/-- A step of the command that runs keeps the invariant. -/
theorem State.Inv.of_exec {s t : State} {i : Instr} (h : s.Inv) (hb : s.status.busy = true)
    (hd : decode s.hid.q.word = .command i) (he : exec i s = .next t) : t.Inv := by
  obtain ⟨e, d, hrun⟩ | hrun := h.run hb
  · obtain rfl : streamInstr e d s.hid.q.tau.toNat = i := by
      simpa using hrun.decoded.symm.trans hd
    rw [exec_streamInstr, streamCommand_busy e d _ hb] at he
    exact h.of_streamStep hb hrun he
  · obtain ⟨-, -, -, -, hop⟩ := h.clear hb
    have hdone : exec i s = .next (complete .noError .noParam 0 s) := by
      obtain hi | hi := hrun.decoded
      · cases hi.symm.trans hd
        exact registerCommand_busy opAesround hb
      · cases hi.symm.trans hd
        exact registerCommand_busy opZeroize hb
    cases hdone.symm.trans he
    exact complete_inv h.memInv (h.released hb) (by simp) (fun _ => rfl) fun _ => hop

/-- Reset meets the invariant, also when it cuts a command short (70_reset_and_hazards.md R400, R401). -/
theorem State.Inv.of_assertReset {s : State} (h : s.Inv) : (assertReset s).Inv := by
  refine (assertReset_atReset s).inv ?_
  suffices hm : (cutShort s).MemInv from hm.congr rfl rfl
  obtain ⟨hb, hbuf, hcut⟩ | ⟨-, hcut⟩ := cutShort_cases s
  · obtain ⟨e, d, hrun⟩ | hrun := h.run hb
    · obtain ⟨-, hdst, -⟩ := contractCheck_none hrun.contract
      rw [hcut]
      exact h.memInv.freeOutput hdst
    · rw [hrun.hasBuffers] at hbuf
      cases hbuf
  · rw [hcut]
    exact h.memInv

/-- The invariant holds after every effect. -/
theorem State.Inv.of_effect {s t : State} {ev : Event} (h : s.Inv) (he : Effect s ev t) : t.Inv := by
  have hheld : t.resetHeld = true → AtReset t := he.held h.held
  cases he with
  | host he => exact h.of_hostEffect he hheld
  | register =>
    exact h.of_sameHidden ⟨writeReg_status _ _ _, writeReg_errInfo _ _ _, writeReg_done⟩ (writeReg_hid _ _ _)
      (writeReg_mem _ _ _) (writeReg_posted _ _ _) hheld
  | drop => exact h.of_sameHidden ⟨rfl, rfl, id⟩ rfl rfl rfl hheld
  | illegal w hr => exact complete_inv (h.memInv.congr rfl rfl) hr (by simp) (by simp) (by simp)
  | accept hr hb ha => exact h.of_accepted hr hb ha
  | run i hb hd he => exact h.of_exec hb hd he
  | assert => exact h.of_assertReset
  | release => exact h.of_sameHidden ⟨rfl, rfl, id⟩ rfl rfl rfl hheld

/-- Taking the first input keeps the invariant. -/
theorem State.Inv.of_withInputs {s : State} (h : s.Inv) (evs : List Event) : (s.withInputs evs).Inv :=
  h.of_hostEffect (hostEffect_hostSide s s.hostData evs s.freeCount) fun hr => (h.held hr).congr rfl

/-- Settles O57: each effect of an event keeps the invariant, and none touches the platform. -/
theorem everyStepKeepsTheInvariant : Obligations.EveryStepKeepsTheInvariant := by
  intro s t hs
  have he := step_effect hs
  exact ⟨fun h => (h.of_withInputs _).of_effect he, he.platform⟩

/-- Settles O56: a reset state holds every reset value and lists no byte. -/
theorem resetMeetsTheInvariant : Obligations.ResetMeetsTheInvariant :=
  have hall : ∀ p : Platform, (State.resetOn p).Inv := fun p => (resetOn_atReset p).inv (resetOn_memInv p)
  ⟨hall Config.platform, hall⟩

end Sys2Proof.Machine
end

section
/-! SUPPORT. The statements on registers, reset and the secrets. -/

namespace Sys2Proof.Machine

/-! ## Register accesses as steps -/

/-- A read step answers the register's value to the host (20_memory.md R91). -/
theorem step_regRead {s : State} {off : Nat} {rest : List Event} (hp : portAccepts off 32 = true)
    (h : s.inputs = .regRead off 32 :: rest) :
    step s = .next { s with inputs := rest, hostData := readReg (regAt off) s } := by
  rw [step_input h]
  exact portRead_reg hp

/-- A write step is the write of the register that stands there, unless that is CMD. -/
theorem step_regWrite {s : State} {off : Nat} {v : Word} {rest : List Event} (hp : portAccepts off 32 = true)
    (h : s.inputs = .regWrite off 32 v :: rest) (hr : s.resetHeld = false) (hc : regAt off ≠ .cmd) :
    step s = .next (writeReg (regAt off) v { s with inputs := rest }) := by
  rw [step_input h]
  exact portWrite_reg v hp hr hc

/-- While reset is asserted a write step takes the input and does nothing else (70_reset_and_hazards.md R400). -/
theorem step_regWrite_held {s : State} {off : Nat} {v : Word} {rest : List Event}
    (hp : portAccepts off 32 = true) (h : s.inputs = .regWrite off 32 v :: rest) (hr : s.resetHeld = true) :
    step s = .next { s with inputs := rest } := by
  rw [step_input h]
  exact portWrite_held v hp hr

/-- A register whose write changes nothing: a write step there takes the input and does nothing else, reset
asserted or released. -/
theorem step_regWrite_ignored {s : State} {off : Nat} {v : Word} {rest : List Event}
    (hp : portAccepts off 32 = true) (h : s.inputs = .regWrite off 32 v :: rest) (hc : regAt off ≠ .cmd)
    (hw : ∀ u : State, writeReg (regAt off) v u = u) : step s = .next { s with inputs := rest } := by
  by_cases hr : s.resetHeld = true
  · exact step_regWrite_held hp h hr
  · rw [step_regWrite hp h (by simpa using hr) hc, hw]

/-- Settles O17: a write step is `writeReg`, which touches neither the run nor what stands outside the core. -/
theorem registerWritesDoNotTouchTheRun : Obligations.RegisterWritesDoNotTouchTheRun := by
  intro s off v rest h4 hlt hin
  have hp := portAccepts_of h4 hlt
  refine ⟨fun hr hc => ?_, step_regWrite_held hp hin⟩
  have hcmd : regAt off ≠ .cmd := fun hcmd => hc ((regAt_eq_cmd_iff h4).mp hcmd)
  refine ⟨_, step_regWrite hp hin hr hcmd, rfl, ?_⟩
  simp [hr]

/-! ## The secrets and the result (10_state.md R46, R47, R53) -/

/-- Acceptance changes neither KEY, NONCE nor AESR_OUT. -/
theorem Accepted.secrets {s t : State} (h : Accepted s t) :
    t.key = s.key ∧ t.nonce = s.nonce ∧ t.aesrOut = s.aesrOut := by
  cases h <;> simp [snapshotTaken]

/-- A run's step that changes KEY or NONCE is the NONE completion of ZEROIZE. -/
theorem RunStep.secrets {s t : State} (h : RunStep s t) (hne : t.key ≠ s.key ∨ t.nonce ≠ s.nonce) :
    s.hid.q.op = opZeroize ∧ t.status.busy = false ∧ t.status.errCode = .noError ∧ t.key = 0 ∧ t.nonce = 0 := by
  obtain ⟨-, hf⟩ | ⟨s', c, p, v, ⟨hq, hf⟩, rfl⟩ := h
  · rw [hf] at hne
    simp at hne
  · have hk : s'.key = s.key := by rw [hf]
    have hn : s'.nonce = s.nonce := by rw [hf]
    by_cases hz : c = .noError ∧ s.hid.q.op = opZeroize
    · simp [hq, hz]
    · simp [hq, hz, hk, hn] at hne

/-- A run's step that changes AESR_OUT is the NONE completion of AESROUND or ZEROIZE. -/
theorem RunStep.result {s t : State} (h : RunStep s t) (hne : t.aesrOut ≠ s.aesrOut) :
    (s.hid.q.op = opAesround ∨ s.hid.q.op = opZeroize) ∧ t.status.busy = false ∧
      t.status.errCode = .noError := by
  obtain ⟨-, hf⟩ | ⟨s', c, p, v, ⟨hq, hf⟩, rfl⟩ := h
  · rw [hf] at hne
    simp at hne
  · have ho : s'.aesrOut = s.aesrOut := by rw [hf]
    by_cases ha : c = .noError ∧ s.hid.q.op = opAesround
    · simp [ha]
    · by_cases hz : c = .noError ∧ s.hid.q.op = opZeroize
      · simp [hz]
      · simp [hq, ha, hz, ho] at hne

/-- A register write that changes KEY or NONCE is at one of their words. -/
theorem writeReg_secrets {off : Nat} {v : Word} {s : State} (h4 : off % 4 = 0)
    (hne : (writeReg (regAt off) v s).key ≠ s.key ∨ (writeReg (regAt off) v s).nonce ≠ s.nonce) :
    0x040 ≤ off ∧ off < 0x080 := by
  obtain hk | hn := hne
  · obtain ⟨i, hi⟩ := writeReg_key_ne hk
    obtain ⟨ho, he⟩ := regAt_eq h4 hi (by simp)
    simp only [regOffset, regExists, decide_eq_true_eq] at ho he
    omega
  · obtain ⟨i, hi⟩ := writeReg_nonce_ne hn
    obtain ⟨ho, he⟩ := regAt_eq h4 hi (by simp)
    simp only [regOffset, regExists, decide_eq_true_eq] at ho he
    omega

/-- What changes KEY or NONCE. -/
theorem Effect.secrets {s t : State} {ev : Event} (h : Effect s ev t)
    (hne : t.key ≠ s.key ∨ t.nonce ≠ s.nonce) :
    (∃ off v, ev = .regWrite off 32 v ∧ 0x040 ≤ off ∧ off < 0x080) ∨ ev = .resetAssert ∨
      (s.status.busy = true ∧ s.hid.q.op = opZeroize ∧ t.status.busy = false ∧ t.status.errCode = .noError ∧
        t.key = 0 ∧ t.nonce = 0) := by
  cases h with
  | host h => rw [h.core] at hne; simp at hne
  | @register off v h4 _ _ => exact .inl ⟨off, v, rfl, writeReg_secrets h4 hne⟩
  | drop => simp at hne
  | illegal => simp [acceptIllegal] at hne
  | accept _ _ h =>
    obtain ⟨hk, hn, -⟩ := h.secrets
    simp [hk, hn] at hne
  | run i hb _ h => exact .inr (.inr ⟨hb, (exec_busy_next hb h).secrets hne⟩)
  | assert => exact .inr (.inl rfl)
  | release => simp at hne

/-- What changes AESR_OUT. -/
theorem Effect.result {s t : State} {ev : Event} (h : Effect s ev t) (hne : t.aesrOut ≠ s.aesrOut) :
    ev = .resetAssert ∨
      (s.status.busy = true ∧ (s.hid.q.op = opAesround ∨ s.hid.q.op = opZeroize) ∧ t.status.busy = false ∧
        t.status.errCode = .noError) := by
  cases h with
  | host h => rw [h.core] at hne; simp at hne
  | register => simp at hne
  | drop => simp at hne
  | illegal => simp [acceptIllegal] at hne
  | accept _ _ h => exact absurd h.secrets.2.2 hne
  | run i hb _ h => exact .inr ⟨hb, (exec_busy_next hb h).result hne⟩
  | assert => exact .inl rfl
  | release => simp at hne

/-- A reset that a step takes stood first among the inputs. -/
theorem head_resetAssert {s : State} (h : s.inputs.headD .core = .resetAssert) :
    s.inputs.head? = some .resetAssert := by
  rw [inputs_of_headD (by simp) h]
  rfl

/-- Settles O55: the effect of the step's event says what changes the secrets and the result. -/
theorem secretsAndResultChangeOnlyAsTheirRulesSay : Obligations.SecretsAndResultChangeOnlyAsTheirRulesSay := by
  intro s t hs
  have he := step_effect hs
  refine ⟨fun hne => ?_, fun hne => ?_⟩
  · obtain ⟨off, v, hev, hoff⟩ | hev | hz := he.secrets hne
    · exact .inl ⟨off, v, _, inputs_of_headD (by simp) hev, hoff⟩
    · exact .inr (.inl (head_resetAssert hev))
    · exact .inr (.inr hz)
  · obtain hev | hz := he.result hne
    · exact .inl (head_resetAssert hev)
    · exact .inr hz

/-! ## Reset (10_state.md R63) -/

/-- Reset of an idle core leaves memory (70_reset_and_hazards.md R401). -/
theorem assertReset_mem_of_idle {s : State} (hb : s.status.busy = false) : (assertReset s).mem = s.mem := by
  simp [assertReset, cutShort, hb]

/-- Settles O6: `Effect.atReset` for the steps while reset is asserted. -/
theorem resetGivesEveryPieceItsResetValue : Obligations.ResetGivesEveryPieceItsResetValue := by
  refine ⟨resetOn_atReset _, fun p => ⟨resetOn_atReset p, rfl⟩, fun s rest hin => ?_, fun s t hr ha hs => ?_,
    fun s rest hin => step_input hin⟩
  · exact ⟨_, step_input hin, assertReset_atReset _, rfl,
      assertReset_mem_of_idle (s := s.withInputs rest), rfl⟩
  · obtain ⟨hat, hheld⟩ := (step_effect hs).atReset hr (ha.congr rfl)
    refine ⟨hat, fun hne => hheld fun hrel => hne ?_⟩
    rw [inputs_of_headD (by simp) hrel]
    rfl

/-! ## The register map and its words (10_state.md R30–R55) -/

/-- Settles O5: group by group, the index inside its bound. -/
theorem everyRegisterStandsAtItsOffset : Obligations.EveryRegisterStandsAtItsOffset := by
  intro r hr
  cases r
  case errInfo i | key i | nonce i | srcAddr i | srcLen i | dstAddr i | dstLen i | adAddr i | adLen i |
      aesrIn i | aesrRk i | aesrOut i =>
    rw [regExists, decide_eq_true_eq] at hr
    revert i
    decide
  all_goals exact ⟨rfl, rfl⟩

/-- Settles O10: each read-only offset ignores its write. -/
theorem readOnlyRegistersIgnoreWrites : Obligations.ReadOnlyRegistersIgnoreWrites := by
  intro s off v rest
  refine ⟨step_regRead rfl, step_regRead rfl, fun hoff hin => ?_⟩
  simp only [List.mem_cons, List.not_mem_nil, or_false] at hoff
  rcases hoff with rfl | rfl | rfl | rfl | rfl | rfl | rfl | rfl | rfl | rfl
  all_goals exact step_regWrite_ignored rfl hin (by decide) fun _ => rfl

/-- The offsets between the registers and above them are reserved (R54). -/
theorem regAt_reserved {off : Nat} (h4 : off % 4 = 0)
    (h : off = 0x01C ∨ (0x028 ≤ off ∧ off ≤ 0x03C) ∨ (0x0E0 ≤ off ∧ off ≤ 0xFFC)) : regAt off = .reserved := by
  revert h
  exact forall_offset (P := fun off => off = 0x01C ∨ (0x028 ≤ off ∧ off ≤ 0x03C) ∨ (0x0E0 ≤ off ∧ off ≤ 0xFFC) →
    regAt off = .reserved) (by decide) (fun _ hhigh _ => regAt_high hhigh) h4

/-- Settles O11: `reserved` reads 0 and ignores its write. -/
theorem reservedOffsetsReadZeroAndIgnoreWrites : Obligations.ReservedOffsetsReadZeroAndIgnoreWrites := by
  intro s off v rest h4 hoff
  have hp : portAccepts off 32 = true := portAccepts_of h4 (by omega)
  have hreg := regAt_reserved h4 hoff
  refine ⟨fun hin => ?_, fun hin => ?_⟩
  · rw [step_regRead hp hin, hreg]
    rfl
  · exact step_regWrite_ignored hp hin (by rw [hreg]; decide) fun _ => by rw [hreg]; rfl

/-! ## CTRL and INT_STATUS (R36, R43) -/

/-- CTRL and INT_STATUS are words of two flags, every other bit zero. -/
theorem getLsbD_flagWord (b1 b0 : Bool) (i : Nat) :
    (0#30 ++ bit b1 ++ bit b0 : Word).getLsbD i = if i = 0 then b0 else if i = 1 then b1 else false := by
  rw [BitVec.getLsbD_append, BitVec.getLsbD_append]
  by_cases h0 : i = 0
  · simp [h0, bit]
  · by_cases h1 : i = 1
    · simp [h1, bit]
    · have hi0 : ¬ i < 1 := by omega
      have hi1 : ¬ i - 1 < 1 := by omega
      simp [h0, h1, hi0, hi1]

/-- CTRL keeps bits 0 and 1 of the word written (R36). -/
theorem ctrl_word_ofWord (v : Word) : (Ctrl.ofWord v).word = v &&& 3#32 := by
  apply BitVec.eq_of_getLsbD_eq
  intro i _
  rw [BitVec.getLsbD_and, show 3#32 = (0#30 ++ bit true ++ bit true : Word) from rfl, Ctrl.word,
    getLsbD_flagWord, getLsbD_flagWord]
  by_cases h0 : i = 0
  · simp [h0, Ctrl.ofWord]
  · by_cases h1 : i = 1
    · simp [h1, Ctrl.ofWord]
    · simp [h0, h1]

/-- INT_STATUS loses the bits written as 1 (R43). -/
theorem intStatus_word_clear (f : IntStatus) (v : Word) : (f.clear v).word = f.word &&& ~~~v := by
  apply BitVec.eq_of_getLsbD_eq
  intro i hi
  rw [BitVec.getLsbD_and, BitVec.getLsbD_not, IntStatus.word, IntStatus.word, getLsbD_flagWord,
    getLsbD_flagWord]
  by_cases h0 : i = 0
  · simp [h0, IntStatus.clear]
  · by_cases h1 : i = 1
    · simp [h1, IntStatus.clear]
    · simp [h0, h1]

/-- Settles O12: the write is `Ctrl.ofWord`, and IRQ is computed from the new enables. -/
theorem controlWriteSetsTheEnables : Obligations.ControlWriteSetsTheEnables := by
  refine ⟨by decide, fun s v rest hin => ⟨step_regWrite_held rfl hin, fun hr => ?_⟩⟩
  exact ⟨_, step_regWrite rfl hin hr (by decide), rfl, ctrl_word_ofWord v, rfl⟩

/-! ## Fields of a word put together -/

/-- A field that lies above the low part of a word. -/
theorem extract_above {v w start len : Nat} {hi : BitVec v} {lo : BitVec w} {f : BitVec len} (h : w ≤ start)
    (hf : hi.extractLsb' (start - w) len = f) : (hi ++ lo).extractLsb' start len = f :=
  (BitVec.extractLsb'_append_eq_of_le h).trans hf

/-- Settles O13: the two flags at their bits, and the write is `IntStatus.clear`. -/
theorem interruptBitsClearOnWritingOne : Obligations.InterruptBitsClearOnWritingOne := by
  refine ⟨fun s => ⟨?_, ?_, ?_⟩, fun s v rest hin => ⟨step_regWrite_held rfl hin, fun hr => ?_⟩⟩
  · exact BitVec.extractLsb'_append_eq_right
  · exact extract_above (by decide) BitVec.extractLsb'_append_eq_right
  · exact extract_above (by decide) (extract_above (by decide) BitVec.extractLsb'_eq_self)
  · exact ⟨_, step_regWrite rfl hin hr (by decide), rfl, intStatus_word_clear s.intStatus v⟩

/-- Settles O14: field by field, skipping the fields below it. -/
theorem statusWordHasItsFields : Obligations.StatusWordHasItsFields := by
  intro s
  refine ⟨?busy, ?low, ?code, ?lastOp, ?authOk, ?mid, ?param, ?high⟩
  case busy => exact BitVec.extractLsb'_append_eq_right
  case low => exact extract_above (by decide) BitVec.extractLsb'_append_eq_right
  all_goals refine extract_above (by decide) (extract_above (by decide) ?_)
  case code =>
    refine BitVec.extractLsb'_append_eq_right.trans ?_
    cases s.status.errCode <;> rfl
  all_goals refine extract_above (by decide) ?_
  case lastOp => exact BitVec.extractLsb'_append_eq_right
  all_goals refine extract_above (by decide) ?_
  case authOk => exact BitVec.extractLsb'_append_eq_right
  all_goals refine extract_above (by decide) ?_
  case mid => exact BitVec.extractLsb'_append_eq_right
  all_goals refine extract_above (by decide) ?_
  case param =>
    refine BitVec.extractLsb'_append_eq_right.trans ?_
    cases s.status.errParam <;> rfl
  case high => exact extract_above (by decide) BitVec.extractLsb'_eq_self

/-! ## The halves of an address or length (R48–R50) -/

/-- A write of the LO word keeps the high half (20_memory.md R93). -/
theorem setWord_lo (x : BitVec 64) (v : Word) : setWord x 0 v = x.extractLsb' 32 32 ++ v := by
  apply BitVec.eq_of_getLsbD_eq
  intro k hk
  rw [setWord, getLsbD_setField _ _ _ _ hk, BitVec.getLsbD_append]
  by_cases h : k < 32
  · simp [h]
  · have h1 : k - 32 < 32 := by omega
    have h2 : 32 + (k - 32) = k := by omega
    simp [h, h1, h2]

/-- A write of the HI word keeps the low half (20_memory.md R93). -/
theorem setWord_hi (x : BitVec 64) (v : Word) : setWord x 1 v = v ++ x.extractLsb' 0 32 := by
  apply BitVec.eq_of_getLsbD_eq
  intro k hk
  rw [setWord, getLsbD_setField _ _ _ _ hk, BitVec.getLsbD_append]
  by_cases h : k < 32
  · simp [h]
  · have h1 : 32 ≤ k := by omega
    simp [h, h1, hk]

/-- Both halves written. -/
theorem setWord_hi_lo (x : BitVec 64) (lo hi : Word) : setWord (setWord x 0 lo) 1 hi = hi ++ lo := by
  rw [setWord_hi, setWord_lo, BitVec.extractLsb'_append_eq_right]

/-- Settles O15: each pair is two words of one 64-bit register. -/
theorem addressAndLengthPairsJoinTheirHalves : Obligations.AddressAndLengthPairsJoinTheirHalves := by
  refine ⟨fun s v => ?_, fun s lo hi => ?_⟩
  · simp [regAt, writeReg, setWord_lo, setWord_hi]
  · simp [regAt, writeReg, setWord_hi_lo]

end Sys2Proof.Machine
end

section
/-! SUPPORT. What register words show and change, byte by byte (20_memory.md R91–R93). -/

namespace Sys2Proof.Machine

/-! ## Bytes of words, halves of pairs -/

/-- Byte `j` of word `i` is byte `4i + j` of the string (20_memory.md R92). -/
theorem byteAt_wordAt {n : Nat} (x : BitVec n) (i : Nat) {j : Nat} (hj : j < 4) :
    byteAt (wordAt x i) j = byteAt x (4 * i + j) := by
  apply BitVec.eq_of_getLsbD_eq
  intro k hk
  have h32 : 8 * j + k < 32 := by omega
  have hbit : 32 * i + (8 * j + k) = 8 * (4 * i + j) + k := by omega
  rw [getLsbD_byteAt, getLsbD_byteAt, getLsbD_wordAt, hbit]
  simp [h32]

/-- A byte is found in the word its index names. -/
theorem byteAt_eq_byteAt_wordAt {n : Nat} (x : BitVec n) (k : Nat) :
    byteAt x k = byteAt (wordAt x (k / 4)) (k % 4) := by
  rw [byteAt_wordAt x _ (Nat.mod_lt k (by decide)), Nat.div_add_mod]

/-- Writing word `i` sets bytes `4i` to `4i + 3` and no other (20_memory.md R92). -/
theorem byteAt_setWord {n : Nat} (x : BitVec n) (i : Nat) (v : Word) {k : Nat}
    (hk : 32 * (k / 4) + 32 ≤ n) :
    byteAt (setWord x i v) k = if k / 4 = i then byteAt v (k % 4) else byteAt x k := by
  rw [byteAt_eq_byteAt_wordAt (setWord x i v)]
  split
  · next h => subst h; rw [wordAt_setWord_same x hk]
  · next h => rw [wordAt_setWord_of_ne x hk h, ← byteAt_eq_byteAt_wordAt]

/-- The halves of a pair join to its value (20_memory.md R93). -/
theorem wordAt_hi_append_lo (x : BitVec 64) : wordAt x 1 ++ wordAt x 0 = x := by
  apply BitVec.eq_of_getLsbD_eq
  intro k hk
  rw [BitVec.getLsbD_append, getLsbD_wordAt, getLsbD_wordAt]
  by_cases h : k < 32
  · simp [h]
  · have h32 : k - 32 < 32 := by omega
    have hbit : 32 + (k - 32) = k := by omega
    simp [h, h32, hbit]

/-! ## The register groups (10_state.md R46, R47, R51–R53) -/

theorem regAt_key {i : Nat} (h : i < 8) : regAt (0x040 + 4 * i) = .key i :=
  (everyRegisterStandsAtItsOffset (.key i) (decide_eq_true h)).1

theorem regAt_nonce {i : Nat} (h : i < 8) : regAt (0x060 + 4 * i) = .nonce i :=
  (everyRegisterStandsAtItsOffset (.nonce i) (decide_eq_true h)).1

theorem regAt_aesrIn {i : Nat} (h : i < 4) : regAt (0x0B0 + 4 * i) = .aesrIn i :=
  (everyRegisterStandsAtItsOffset (.aesrIn i) (decide_eq_true h)).1

theorem regAt_aesrRk {i : Nat} (h : i < 4) : regAt (0x0C0 + 4 * i) = .aesrRk i :=
  (everyRegisterStandsAtItsOffset (.aesrRk i) (decide_eq_true h)).1

theorem regAt_aesrOut {i : Nat} (h : i < 4) : regAt (0x0D0 + 4 * i) = .aesrOut i :=
  (everyRegisterStandsAtItsOffset (.aesrOut i) (decide_eq_true h)).1

/-- No read tells states apart that differ in KEY, NONCE and the hidden state alone (10_state.md R46, R47, R58). -/
theorem readReg_secrets (r : Reg) (s : State) (key nonce : Wide) (hid : Hidden) :
    readReg r { s with key := key, nonce := nonce, hid := hid } = readReg r s := by
  cases r <;> rfl

/-- KEY and NONCE read 0 (10_state.md R46, R47). -/
theorem readReg_keyNonce (s : State) {i : Nat} (hi : i < 16) : readReg (regAt (0x040 + 4 * i)) s = 0 := by
  by_cases h : i < 8
  · rw [regAt_key h]
    rfl
  · rw [show 0x040 + 4 * i = 0x060 + 4 * (i - 8) by omega, regAt_nonce (by omega)]
    rfl

/-- Settles O9: a read step is `readReg`, which shows constants, zero, and the words of registers that are no
secret. -/
theorem readsChangeNothingAndShowNoSecret : Obligations.ReadsChangeNothingAndShowNoSecret := by
  refine ⟨fun s off rest h4 hlt hin => step_regRead (portAccepts_of h4 hlt) hin,
    fun s off key nonce hid _ _ => readReg_secrets (regAt off) s key nonce hid, fun s => ?_⟩
  refine ⟨rfl, rfl, rfl, rfl, fun i => readReg_keyNonce s, wordAt_hi_append_lo s.errInfo,
    wordAt_hi_append_lo s.srcAddr, wordAt_hi_append_lo s.srcLen, wordAt_hi_append_lo s.dstAddr,
    wordAt_hi_append_lo s.dstLen, wordAt_hi_append_lo s.adAddr, wordAt_hi_append_lo s.adLen,
    fun i j hi hj => ?_⟩
  rw [regAt_aesrIn hi, regAt_aesrRk hi, regAt_aesrOut hi]
  exact ⟨byteAt_wordAt s.aesrIn i hj, byteAt_wordAt s.aesrRk i hj, byteAt_wordAt s.aesrOut i hj⟩

/-- Settles O16: each group is a byte string of which the write replaces word `i`. -/
theorem byteStringRegistersPackLittleEndian : Obligations.ByteStringRegistersPackLittleEndian := by
  refine fun s i v => ⟨fun hi => ?_, fun hi => ?_⟩
  · rw [regAt_key hi, regAt_nonce hi]
    exact ⟨⟨_, rfl, fun k hk => byteAt_setWord s.key i v (by omega)⟩,
      ⟨_, rfl, fun k hk => byteAt_setWord s.nonce i v (by omega)⟩⟩
  · rw [regAt_aesrIn hi, regAt_aesrRk hi]
    exact ⟨⟨_, rfl, fun k hk => byteAt_setWord s.aesrIn i v (by omega)⟩,
      ⟨_, rfl, fun k hk => byteAt_setWord s.aesrRk i v (by omega)⟩⟩

end Sys2Proof.Machine
end

section
/-! SUPPORT. The accesses of a running ENCRYPT or DECRYPT: where they go, what the platform makes of them, and
what decides the next one (20_memory.md R95, R96, R101, R102, R105, R106, R113). -/

namespace Sys2Proof.Machine

/-! ## What the contract says of the ranges (46_commands.md R328–R331) -/

/-- The lengths and ranges of a snapshot that passed the contract check. -/
structure RangesFit (d : Direction) (q : Snapshot) : Prop where
  ad : q.ad.toNat + q.adLen.toNat ≤ Config.addrSpace
  src : q.src.toNat + q.srcLen.toNat ≤ Config.addrSpace
  dst : q.dst.toNat + q.dstLen.toNat ≤ Config.addrSpace
  srcLen : match d with
    | .encrypt => q.srcLen.toNat = q.msgLen d
    | .decrypt => q.srcLen.toNat = q.msgLen d + q.tau.toNat
  dstLen : match d with
    | .encrypt => q.dstLen.toNat = q.msgLen d + q.tau.toNat
    | .decrypt => q.dstLen.toNat = q.msgLen d

theorem rangesFit_of_contract {d : Direction} {q : Snapshot} (h : contractCheck d q = none) :
    RangesFit d q := by
  simp only [contractCheck, ite_some_eq_none_iff, ne_eq, not_and, not_lt, not_not] at h
  obtain ⟨-, htag, -, -, hdstLen, hsrc, hdst, had, -⟩ := h
  refine ⟨had, hsrc, hdst, ?_, by cases d <;> exact hdstLen⟩
  cases d
  · rfl
  · exact (Nat.sub_add_cancel (htag rfl)).symm

theorem inRange_iff {base len a : Nat} : inRange base len a = true ↔ base ≤ a ∧ a < base + len :=
  decide_eq_true_iff

/-- An address of a range of the command exists (46_commands.md R331). -/
theorem RangesFit.lt_addrSpace {d : Direction} {q : Snapshot} (h : RangesFit d q) {a : Nat}
    (ha : q.inAd a = true ∨ q.inInput a = true ∨ q.inOutput a = true) : a < Config.addrSpace := by
  obtain ha | ha | ha := ha
  · exact (inRange_iff.mp ha).2.trans_le h.ad
  · exact (inRange_iff.mp ha).2.trans_le h.src
  · exact (inRange_iff.mp ha).2.trans_le h.dst

/-! ## Where the accesses go (R113) -/

/-- A read of a place of the access sequence is in the AD or the input range. -/
theorem nextAccess_read_inRange {e : Engine} {d : Direction} {h : Hidden} {a : Nat} (hfit : RangesFit d h.q)
    (ho : phaseOk e d h) (hr : nextAccess e d h = .read a) : h.q.inAd a = true ∨ h.q.inInput a = true := by
  have hsrcLen := hfit.srcLen
  unfold phaseOk at ho
  obtain ⟨i, hp, rfl⟩ | ⟨i, hp, rfl⟩ | ⟨j, hp, rfl, rfl⟩ := nextAccess_read hr
  · simp only [hp] at ho
    exact .inl (inRange_iff.mpr (by omega))
  · simp only [hp] at ho
    refine .inr (inRange_iff.mpr ?_)
    cases d <;> dsimp only at hsrcLen <;> omega
  · simp only [hp] at ho hsrcLen
    exact .inr (inRange_iff.mpr (by omega))

/-- A write of a place of the access sequence is in the output range. -/
theorem nextAccess_write_inRange {e : Engine} {d : Direction} {h : Hidden} {a : Nat} {v : Byte}
    (hfit : RangesFit d h.q) (ho : phaseOk e d h) (hw : nextAccess e d h = .write a v) : h.q.inOutput a = true := by
  have hdstLen := hfit.dstLen
  unfold phaseOk at ho
  refine inRange_iff.mpr ?_
  obtain ⟨i, hp, rfl, -⟩ | ⟨j, hp, rfl, rfl, -⟩ | ⟨i, hp, rfl, -⟩ := nextAccess_write hw
  · simp only [hp] at ho
    cases d <;> dsimp only at hdstLen <;> omega
  · simp only [hp] at ho hdstLen
    omega
  · simp only [hp] at ho hdstLen
    obtain ⟨rfl, hi⟩ := ho
    dsimp only at hdstLen
    omega

/-- The phases in which an access or the completion comes next, no computation before it. -/
def Phase.settled : Phase → Bool
  | .adRead _ => true
  | .msgRead _ => true
  | .msgWrite _ => true
  | .tag _ => true
  | .wipe _ => true
  | .finish _ => true
  | .idle => false
  | .start => false
  | .adChunk _ => false
  | .msgBlock _ => false
  | .msgNext _ => false
  | .verify => false

/-- The computation due leaves an access or the completion to come (46_commands.md R322). -/
theorem settle_settled {e : Engine} {d : Direction} {h : Hidden} (hp : h.phase ≠ .idle) :
    (settle e d h).phase.settled = true := by
  rw [settle_phase]
  cases hh : h.phase
  case idle => exact absurd hh hp
  case start | adChunk | msgNext | verify =>
    dsimp only
    split_ifs <;> rfl
  all_goals rfl

theorem nextAccess_ne_nothing {e : Engine} {d : Direction} {h : Hidden} (hs : h.phase.settled = true) :
    nextAccess e d h ≠ .nothing := by
  unfold nextAccess
  cases hh : h.phase <;> simp only [hh, Phase.settled, Bool.false_eq_true] at hs
  case tag => cases d <;> simp
  all_goals simp

section
variable {e : Engine} {d : Direction} {s : State}

theorem StreamRun.fit (h : StreamRun e d s) : RangesFit d s.hid.q := rangesFit_of_contract h.contract

theorem StreamRun.read_inRange (h : StreamRun e d s) {a : Nat} (hr : upcoming e d s = .read a) :
    s.hid.q.inAd a = true ∨ s.hid.q.inInput a = true := by
  have hset := h.of_settle (by simp [hr])
  simpa using nextAccess_read_inRange hset.fit hset.phase hr

theorem StreamRun.write_inRange (h : StreamRun e d s) {a : Nat} {v : Byte}
    (hw : upcoming e d s = .write a v) : s.hid.q.inOutput a = true := by
  have hset := h.of_settle (by simp [hw])
  simpa using nextAccess_write_inRange hset.fit hset.phase hw

theorem StreamRun.upcoming_ne_nothing (h : StreamRun e d s) : upcoming e d s ≠ .nothing := by
  refine nextAccess_ne_nothing (settle_settled fun hp => ?_)
  have ho := h.phase
  unfold phaseOk at ho
  simp only [hp] at ho

/-- Every access of a run is to an address that exists (46_commands.md R331). -/
theorem StreamRun.read_lt (h : StreamRun e d s) {a : Nat} (hr : upcoming e d s = .read a) :
    a < Config.addrSpace :=
  h.fit.lt_addrSpace ((h.read_inRange hr).imp_right .inl)

theorem StreamRun.write_lt (h : StreamRun e d s) {a : Nat} {v : Byte} (hw : upcoming e d s = .write a v) :
    a < Config.addrSpace :=
  h.fit.lt_addrSpace (.inr (.inr (h.write_inRange hw)))

end

/-- Settles O41: the settled sequencer stands at a place of the access sequence, whose range is known. -/
theorem accessesStayInTheCommandsRanges : Obligations.AccessesStayInTheCommandsRanges :=
  fun _ _ _ hrun => ⟨fun _ => hrun.read_inRange, fun _ _ => hrun.write_inRange, hrun.upcoming_ne_nothing⟩

/-! ## What the platform makes of an access (20_memory.md R96, R105, R106) -/

section
variable {a : Nat} {v : Byte} {s : State} (ha : a < Config.addrSpace)
include ha

theorem dmaRead_refused (k : Byte → State → State) (hok : s.platform.memOK a .read = false) :
    dmaRead a s k = .next (raiseBus a s) := by
  simp [dmaRead, ha.not_ge, hok]

theorem dmaWrite_refused (k : State → State) (hok : s.platform.memOK a .write = false) :
    dmaWrite a v s k = .next (raiseBus a s) := by
  simp [dmaWrite, ha.not_ge, hok]

theorem dmaRead_device (k : Byte → State → State) (hok : s.platform.memOK a .read = true)
    (hdev : s.platform.isDevice a = true) : dmaRead a s k = .refused (.deviceMemory a) := by
  simp [dmaRead, ha.not_ge, hok, hdev]

theorem dmaWrite_device (k : State → State) (hok : s.platform.memOK a .write = true)
    (hdev : s.platform.isDevice a = true) : dmaWrite a v s k = .refused (.deviceMemory a) := by
  simp [dmaWrite, ha.not_ge, hok, hdev]

/-- A byte not visible before CMD reads as a free value (20_memory.md R105). -/
theorem dmaRead_unseen (k : Byte → State → State) (hok : s.platform.memOK a .read = true)
    (hdev : s.platform.isDevice a = false) (hun : s.unseen a = true) :
    dmaRead a s k =
      .next (k (Config.freeByte s.freeCount) { s with freeCount := s.freeCount + 1 }) := by
  simp [dmaRead, ha.not_ge, hok, hdev, hun]

end

@[simp] theorem unseen_onHidden_settle (e : Engine) (d : Direction) (s : State) (a : Nat) :
    (s.onHidden (settle e d)).unseen a = s.unseen a := by
  simp [State.unseen]

/-- A BUSY core's ENCRYPT or DECRYPT makes the next step of its run. -/
theorem exec_streamInstr_busy (e : Engine) (d : Direction) (tau : Nat) {s : State}
    (hb : s.status.busy = true) : exec (streamInstr e d tau) s = streamStep e d s :=
  (exec_streamInstr e d tau s).trans (streamCommand_busy e d tau hb)

/-- Settles O48: MemOK allows the access, and device memory refuses it. -/
theorem deviceMemoryIsRefused : Obligations.DeviceMemoryIsRefused := by
  intro e d tau a s hb hrun hdev hacc
  rw [exec_streamInstr_busy e d tau hb]
  obtain ⟨hr, hok⟩ | ⟨v, hw, hok⟩ := hacc
  · exact (streamStep_read hr).trans (dmaRead_device (hrun.read_lt hr) _ hok hdev)
  · exact (streamStep_write hw).trans (dmaWrite_device (hrun.write_lt hw) _ hok hdev)

/-- A refused access completes the command with BUS (20_memory.md R106, log 22). -/
theorem StreamRun.streamStep_refused {e : Engine} {d : Direction} {s : State} {a : Nat} (h : StreamRun e d s)
    (hacc : (upcoming e d s = .read a ∧ s.platform.memOK a .read = false) ∨
      ∃ v, upcoming e d s = .write a v ∧ s.platform.memOK a .write = false) :
    a < Config.addrSpace ∧ streamStep e d s = .next (raiseBus a (s.onHidden (settle e d))) := by
  obtain ⟨hr, hok⟩ | ⟨v, hw, hok⟩ := hacc
  · exact ⟨h.read_lt hr, (streamStep_read hr).trans (dmaRead_refused (h.read_lt hr) _ hok)⟩
  · exact ⟨h.write_lt hw, (streamStep_write hw).trans (dmaWrite_refused (h.write_lt hw) _ hok)⟩

/-- BUS changes no byte outside the output range of the command (20_memory.md R106). -/
theorem read_raiseBus_of_not_inOutput {s : State} {b : Nat} (hb : s.hid.q.inOutput b = false) (a : Nat) :
    Memory.read (raiseBus a s).mem b = Memory.read s.mem b := by
  have hout : ¬ (s.hid.q.dst.toNat ≤ b ∧ b < s.hid.q.dst.toNat + s.hid.q.dstLen.toNat) :=
    of_decide_eq_false hb
  exact Memory.read_freeRange_of_not_mem _ _ _ _ (by omega)

/-- After BUS each byte of the output range holds a free value (20_memory.md R106). -/
theorem read_raiseBus_output {s : State} {j : Nat} (hwf : Memory.wf s.mem = true)
    (hj : j < s.hid.q.dstLen.toNat) (a : Nat) :
    Memory.read (raiseBus a s).mem (s.hid.q.dst.toNat + j) = Config.freeByte (s.freeCount + j) :=
  Memory.read_freeRange_of_mem _ _ _ hwf hj

/-- Settles O47: the step is `raiseBus` of the settled state. -/
theorem refusedAccessCompletesWithBus : Obligations.RefusedAccessCompletesWithBus := by
  intro e d tau a s hb hrun hwf hacc
  obtain ⟨ha, hstep⟩ := hrun.streamStep_refused hacc
  refine ⟨_, (exec_streamInstr_busy e d tau hb).trans hstep, by rw [raiseBus_eq]; rfl, ?_, rfl, rfl,
    fun j hj => ?_, fun b hout => ?_⟩
  · exact (BitVec.toNat_ofNat a 64).trans (Nat.mod_eq_of_lt ha)
  · have hread := read_raiseBus_output (s := s.onHidden (settle e d)) (j := j) hwf (by simpa using hj) a
    simpa using hread
  · exact read_raiseBus_of_not_inOutput (s := s.onHidden (settle e d)) (by simpa using hout) a

/-- What a step of the run does to memory, by its access. -/
theorem streamStep_mem {e : Engine} {d : Direction} {s t : State} (h : streamStep e d s = .next t) :
    (∃ a, upcoming e d s = .read a ∧
        ((s.platform.memOK a .read = true ∧ t.mem = s.mem) ∨
          (s.platform.memOK a .read = false ∧ t = raiseBus a (s.onHidden (settle e d))))) ∨
      (∃ a v, upcoming e d s = .write a v ∧
        ((s.platform.memOK a .write = true ∧ t.mem = Memory.write s.mem a v) ∨
          (s.platform.memOK a .write = false ∧ t = raiseBus a (s.onHidden (settle e d))))) ∨
      ∃ c, upcoming e d s = .finish c ∧ t.mem = s.mem := by
  obtain ⟨a, hr, hread⟩ | ⟨a, v, hw, hwrite⟩ | ⟨c, hf, rfl⟩ := streamStep_next h
  · refine .inl ⟨a, hr, ?_⟩
    obtain ⟨-, ⟨hok, rfl⟩ | ⟨hok, -, ⟨-, rfl⟩ | ⟨-, rfl⟩⟩⟩ := dmaRead_next hread
    · exact .inr ⟨hok, rfl⟩
    · exact .inl ⟨hok, rfl⟩
    · exact .inl ⟨hok, rfl⟩
  · refine .inr (.inl ⟨a, v, hw, ?_⟩)
    obtain ⟨-, ⟨hok, rfl⟩ | ⟨hok, -, rfl⟩⟩ := dmaWrite_next hwrite
    · exact .inr ⟨hok, rfl⟩
    · exact .inl ⟨hok, rfl⟩
  · exact .inr (.inr ⟨c, hf, rfl⟩)

/-- Settles O46: the step's access decides what it stores. -/
theorem runStoresOnlyWhereItSays : Obligations.RunStoresOnlyWhereItSays := by
  intro e d tau s t hb hwf hexec
  rw [exec_streamInstr_busy e d tau hb] at hexec
  have hbus : ∀ a b, s.hid.q.inOutput b = false →
      Memory.read (raiseBus a (s.onHidden (settle e d))).mem b = Memory.read s.mem b := fun a b hout =>
    read_raiseBus_of_not_inOutput (s := s.onHidden (settle e d)) (by simpa using hout) a
  obtain ⟨a, hacc, ⟨hok, hmem⟩ | ⟨hok, rfl⟩⟩ | ⟨a, v, hacc, ⟨hok, hmem⟩ | ⟨hok, rfl⟩⟩ | ⟨c, hacc, hmem⟩ :=
    streamStep_mem hexec
  · simp [hacc, hmem]
  · simpa [hacc, hok] using hbus a
  · have hne : ∀ b, b ≠ a → Memory.read (Memory.write s.mem a v) b = Memory.read s.mem b := fun b hne =>
      Memory.read_write_of_ne s.mem hne v
    simpa [hacc, hok, hmem, Memory.read_write_same (lo := 0) hwf] using hne
  · simpa [hacc, hok] using hbus a
  · simp [hacc, hmem]

/-! ## What decides the next access (20_memory.md R101, 70_reset_and_hazards.md R425) -/

/-- What the bus sees of the access at a settled phase; the snapshot gives the addresses. -/
def Phase.shape (d : Direction) (q : Snapshot) : Phase → AccessShape
  | .adRead i => .read (q.ad.toNat + i)
  | .msgRead i => .read (q.src.toNat + i)
  | .msgWrite i => .write (q.dst.toNat + i)
  | .tag j =>
    match d with
    | .encrypt => .write (q.dst.toNat + q.msgLen d + j)
    | .decrypt => .read (q.src.toNat + q.msgLen d + j)
  | .wipe i => .write (q.dst.toNat + i)
  | .finish c => .finish c
  | .idle => .nothing
  | .start => .nothing
  | .adChunk _ => .nothing
  | .msgBlock _ => .nothing
  | .msgNext _ => .nothing
  | .verify => .nothing

theorem nextAccess_shape (e : Engine) (d : Direction) (h : Hidden) :
    (nextAccess e d h).shape = h.phase.shape d h.q := by
  unfold nextAccess
  cases h.phase
  case tag j => cases d <;> rfl
  all_goals rfl

/-- Snapshots with the same public part have the same addresses and lengths. -/
structure SameRanges (q q' : Snapshot) : Prop where
  tau : q.tau = q'.tau
  src : q.src = q'.src
  srcLen : q.srcLen = q'.srcLen
  dst : q.dst = q'.dst
  ad : q.ad = q'.ad
  adLen : q.adLen = q'.adLen

theorem sameRanges_of_public {q q' : Snapshot} (h : q.public = q'.public) : SameRanges q q' := by
  simp only [Snapshot.public, Snapshot.mk.injEq] at h
  exact ⟨by tauto, by tauto, by tauto, by tauto, by tauto, by tauto⟩

theorem SameRanges.msgLen {q q' : Snapshot} (h : SameRanges q q') (d : Direction) :
    q.msgLen d = q'.msgLen d := by
  cases d <;> simp [Snapshot.msgLen, h.srcLen, h.tau]

theorem SameRanges.shape {q q' : Snapshot} (h : SameRanges q q') (d : Direction) (p : Phase) :
    p.shape d q = p.shape d q' := by
  cases p <;> simp [Phase.shape, h.src, h.dst, h.ad, h.msgLen]

/-- The place of the settled sequencer depends on the place before, the ranges, and at the comparison on its
outcome. -/
theorem SameRanges.settle_phase {h h' : Hidden} (hq : SameRanges h.q h'.q) (e : Engine) (d : Direction)
    (hp : h.phase = h'.phase)
    (hv : h.phase = .verify → ctEqual h.q.tau.toNat h.t h.e = ctEqual h'.q.tau.toNat h'.t h'.e) :
    (settle e d h).phase = (settle e d h').phase := by
  rw [Machine.settle_phase, Machine.settle_phase, ← hp, hq.adLen, hq.msgLen]
  cases hh : h.phase
  case verify => simp only [hv hh]
  all_goals rfl

/-- Settles O43: the settled places agree, and place and ranges give the access and the place after it. -/
theorem accessAddressesDependOnPublicValuesOnly : Obligations.AccessAddressesDependOnPublicValuesOnly := by
  intro e d h h' hp hpub hv
  have hq := sameRanges_of_public hpub
  have hs := hq.settle_phase e d hp hv
  refine ⟨?_, fun b b' => ⟨?_, by simp⟩, ?_, by simp⟩
  · rw [nextAccess_shape, nextAccess_shape, hs, settle_q, settle_q, hq.shape]
  · rw [afterRead_phase, afterRead_phase, hs, settle_q, settle_q, hq.msgLen, hq.adLen, hq.tau]
  · rw [afterWrite_phase, afterWrite_phase, hs, settle_q, settle_q, hq.msgLen, hq.tau]

end Sys2Proof.Machine
end

section
/-! SUPPORT. The host's memory accesses, by what decides them: the address space, the host duty, device memory,
and whether a host write of the byte waits (20_memory.md R95, R96, R103, R105). -/

namespace Sys2Proof.Machine

/-! ## The host duty (20_memory.md R103) -/

theorem readBreach_iff {s : State} {a : Nat} :
    readBreach s a = true ↔ s.status.busy = true ∧ s.hid.q.hasBuffers = true ∧ s.hid.q.inOutput a = true := by
  simp [readBreach, and_assoc]

theorem writeBreach_iff {s : State} {a : Nat} :
    writeBreach s a = true ↔ s.status.busy = true ∧ s.hid.q.hasBuffers = true ∧
      (s.hid.q.inAd a = true ∨ s.hid.q.inInput a = true ∨ s.hid.q.inOutput a = true) := by
  simp [writeBreach, and_assoc, or_assoc]

/-! ## Stops -/

/-- No host access finds a byte at or above 2^64 (20_memory.md R95). -/
theorem hostMem_outside {a : Nat} (v : Byte) (s : State) (ha : Config.addrSpace ≤ a) :
    hostMemRead a s = .fault (.outsideAddressSpace a) ∧
      hostMemWrite a v s = .fault (.outsideAddressSpace a) ∧
      hostMemPost a v s = .fault (.outsideAddressSpace a) :=
  ⟨if_pos ha, if_pos ha, if_pos ha⟩

theorem hostMemRead_breach {a : Nat} {s : State} (ha : a < Config.addrSpace) (hb : readBreach s a = true) :
    hostMemRead a s = .fault (.hostDuty a) :=
  (if_neg ha.not_ge).trans (if_pos hb)

/-- A write breaches the duty whether it is visible at once or not (log 7). -/
theorem hostMemWrite_breach {a : Nat} (v : Byte) {s : State} (ha : a < Config.addrSpace)
    (hb : writeBreach s a = true) :
    hostMemWrite a v s = .fault (.hostDuty a) ∧ hostMemPost a v s = .fault (.hostDuty a) :=
  ⟨(if_neg ha.not_ge).trans (if_pos hb), (if_neg ha.not_ge).trans (if_pos hb)⟩

/-! ## Accesses that breach nothing -/

theorem hostMemRead_allowed {a : Nat} {s : State} (ha : a < Config.addrSpace) (hb : readBreach s a = false) :
    (s.platform.isDevice a = true → hostMemRead a s = .refused (.deviceMemory a)) ∧
      (s.platform.isDevice a = false → isPosted s.posted a = false →
        hostMemRead a s = .next { s with hostData := 0#24 ++ Memory.read s.mem a }) ∧
      (s.platform.isDevice a = false → isPosted s.posted a = true →
        hostMemRead a s = .next { s with
          hostData := 0#24 ++ Config.freeByte s.freeCount, freeCount := s.freeCount + 1 }) := by
  have hzero : ∀ x : Byte, (0#24 ++ x : Word) = x.setWidth 32 := fun _ =>
    (BitVec.setWidth_eq_append (by decide)).symm
  simp only [hzero]
  refine ⟨fun hd => ?_, fun hd hp => ?_, fun hd hp => ?_⟩
  · simp [hostMemRead, ha.not_ge, hb, hd]
  · simp [hostMemRead, ha.not_ge, hb, hd, hp]
  · simp [hostMemRead, ha.not_ge, hb, hd, hp]

theorem hostMemWrite_allowed {a : Nat} (v : Byte) {s : State} (ha : a < Config.addrSpace)
    (hb : writeBreach s a = false) :
    (s.platform.isDevice a = true →
        hostMemWrite a v s = .refused (.deviceMemory a) ∧ hostMemPost a v s = .refused (.deviceMemory a)) ∧
      (s.platform.isDevice a = false →
        hostMemWrite a v s = .next { s with
            mem := Memory.write s.mem a v, posted := s.posted.filter fun c => c.addr ≠ a } ∧
          hostMemPost a v s = .next { s with posted := s.posted ++ [⟨a, some v⟩] }) := by
  refine ⟨fun hd => ?_, fun hd => ?_⟩
  · simp [hostMemWrite, hostMemPost, ha.not_ge, hb, hd]
  · simp [hostMemWrite, hostMemPost, ha.not_ge, hb, hd]

/-- Settles O50: each clause is the access of the state whose first input has been taken. -/
theorem hostMemoryAccessesActOrStop : Obligations.HostMemoryAccessesActOrStop := by
  intro s a v rest
  refine ⟨fun hbusy hbuf ha => ⟨fun hrange => ?_, fun hout hin => ?_⟩, fun ha hin => ?_,
    fun ha hduty hin => ?_, fun ha hduty => ?_⟩
  · have hb : writeBreach (s.withInputs rest) a = true := writeBreach_iff.mpr ⟨hbusy, hbuf, hrange⟩
    obtain ⟨hwrite, hpost⟩ := hostMemWrite_breach v ha hb
    exact ⟨fun hin => (step_input hin).trans hwrite, fun hin => (step_input hin).trans hpost⟩
  · exact (step_input hin).trans (hostMemRead_breach ha (readBreach_iff.mpr ⟨hbusy, hbuf, hout⟩))
  · obtain ⟨hread, hwrite, hpost⟩ := hostMem_outside v (s.withInputs rest) ha
    obtain hin | hin | hin := hin
    · exact (step_input hin).trans hread
    · exact (step_input hin).trans hwrite
    · exact (step_input hin).trans hpost
  · rw [step_input hin]
    exact hostMemRead_allowed (s := s.withInputs rest) ha
      (Bool.eq_false_iff.mpr fun hb => hduty (readBreach_iff.mp hb))
  · have hb : writeBreach (s.withInputs rest) a = false :=
      Bool.eq_false_iff.mpr fun hb => hduty (writeBreach_iff.mp hb)
    obtain ⟨hdevice, hacts⟩ := hostMemWrite_allowed v ha hb
    refine ⟨fun hd hin => ?_, fun hd hin hwf => ?_, fun hd hin => ?_⟩
    · obtain ⟨hwrite, hpost⟩ := hdevice hd
      obtain hin | hin := hin
      · exact (step_input hin).trans hwrite
      · exact (step_input hin).trans hpost
    · exact ⟨_, (step_input hin).trans (hacts hd).1, rfl, Memory.read_write_same (lo := 0) hwf a v,
        fun b hne => Memory.read_write_of_ne s.mem hne v⟩
    · exact (step_input hin).trans (hacts hd).2

/-! ## Host writes that become visible (20_memory.md R105, log 6) -/

theorem isPosted_eq_true_iff {cells : List Posted} {a : Nat} :
    isPosted cells a = true ↔ ∃ c ∈ cells, c.addr = a := by
  simp [isPosted]

theorem isPosted_eq_false_iff {cells : List Posted} {a : Nat} :
    isPosted cells a = false ↔ ∀ c ∈ cells, c.addr ≠ a := by
  simp [isPosted]

/-- Whether a host write of a byte waits among those the filter `p` of addresses keeps. -/
theorem isPosted_filter (p : Nat → Bool) (cells : List Posted) (a : Nat) :
    isPosted (cells.filter fun c => p c.addr) a = (isPosted cells a && p a) := by
  rw [Bool.eq_iff_iff, Bool.and_eq_true, isPosted_eq_true_iff, isPosted_eq_true_iff]
  simp only [List.mem_filter]
  constructor
  · rintro ⟨c, ⟨hc, hp⟩, rfl⟩
    exact ⟨⟨c, hc, rfl⟩, hp⟩
  · rintro ⟨⟨c, hc, rfl⟩, hp⟩
    exact ⟨c, ⟨hc, hp⟩, rfl⟩

/-- The newest host write of a byte is what the byte holds once they are visible. -/
theorem Memory.read_land_newest {older newer : List Posted} {a : Nat} {v : Byte} {m : Memory} (k : Nat)
    (hwf : Memory.wf m = true) (hnew : isPosted newer a = false) :
    Memory.read (Memory.land (older ++ ⟨a, some v⟩ :: newer) k m) a = v := by
  rw [Memory.land_append, Memory.land,
    Memory.read_land_of_not_mem _ _ _ (isPosted_eq_false_iff.mp hnew)]
  exact Memory.read_write_same (lo := 0) (Memory.wf_land older k hwf) a v

/-- The state once the waiting host writes have become visible, as far as the run allows. -/
def State.visible (s : State) : State :=
  { s with
    mem := Memory.land s.landing s.freeCount s.mem
    posted := openPosted (fun _ => true) (s.posted.filter fun c => readBreach s c.addr)
    hid := { s.hid with late := s.hid.late ++ (s.landing.map Posted.addr).filter s.inSource }
    freeCount := s.freeCount + s.landing.length }

theorem hostMemVisible_eq (s : State) : hostMemVisible s = .next s.visible := rfl

/-- A host write waits on exactly where it is one of the running command's output range. -/
theorem isPosted_visible (s : State) (a : Nat) :
    isPosted s.visible.posted a = (isPosted s.posted a && readBreach s a) :=
  (isPosted_openPosted (fun _ => true) _ a).trans (isPosted_filter (readBreach s) s.posted a)

theorem isPosted_landing (s : State) (a : Nat) :
    isPosted s.landing a = (isPosted s.posted a && !readBreach s a) :=
  isPosted_filter (fun b => !readBreach s b) s.posted a

/-- A byte with no host write that lands keeps its value. -/
theorem read_visible_of_not_landing {s : State} {a : Nat} (h : isPosted s.landing a = false) :
    Memory.read s.visible.mem a = Memory.read s.mem a :=
  Memory.read_land_of_not_mem _ _ _ (isPosted_eq_false_iff.mp h)

/-- A byte of the AD or input range whose host write lands is remembered (93_implementation_defined.md U4). -/
theorem mem_late_visible {s : State} {a : Nat} (hsrc : s.inSource a = true) (h : isPosted s.landing a = true) :
    a ∈ s.visible.hid.late := by
  obtain ⟨c, hc, rfl⟩ := isPosted_eq_true_iff.mp h
  exact List.mem_append_right _ (List.mem_filter.mpr ⟨List.mem_map_of_mem hc, hsrc⟩)

/-- The newest host write of a byte lands unless the byte is one of the running command's output range. -/
theorem read_visible_newest {s : State} {older newer : List Posted} {a : Nat} {v : Byte}
    (hs : s.posted = older ++ ⟨a, some v⟩ :: newer) (hnew : isPosted newer a = false)
    (hout : readBreach s a = false) (hwf : Memory.wf s.mem = true) : Memory.read s.visible.mem a = v := by
  have hlanding : s.landing = older.filter (fun c => !readBreach s c.addr) ++
      ⟨a, some v⟩ :: newer.filter fun c => !readBreach s c.addr := by
    simp [State.landing, hs, hout]
  have hnew' : isPosted (newer.filter fun c => !readBreach s c.addr) a = false := by
    simp [isPosted_filter (fun b => !readBreach s b), hnew]
  have hread := Memory.read_land_newest (older := older.filter fun c => !readBreach s c.addr) s.freeCount hwf hnew'
    (v := v)
  rwa [← hlanding] at hread

/-- The core's next read is of a byte that was not visible before CMD (20_memory.md R105). -/
theorem StreamRun.streamStep_unseen {e : Engine} {d : Direction} {s : State} {a : Nat} (h : StreamRun e d s)
    (hr : upcoming e d s = .read a) (hok : s.platform.memOK a .read = true)
    (hdev : s.platform.isDevice a = false) (hun : s.unseen a = true) :
    streamStep e d s = .next { s with
      hid := afterRead e d (Config.freeByte s.freeCount) (settle e d s.hid)
      freeCount := s.freeCount + 1 } :=
  (streamStep_read hr).trans (dmaRead_unseen (h.read_lt hr) _ hok hdev (by simpa using hun))

/-- Settles O49: the read is that of an unseen byte, and what becomes visible is `State.visible`. -/
theorem invisibleByteReadsAsAnyValue : Obligations.InvisibleByteReadsAsAnyValue := by
  refine ⟨fun e d tau a s hb hrun hr hok hdev hun => ?_, fun s rest hin => ?_⟩
  · rw [exec_streamInstr_busy e d tau hb]
    exact hrun.streamStep_unseen hr hok hdev (by simpa [State.unseen] using hun)
  have hposted := isPosted_visible (s.withInputs rest)
  have hlanding := isPosted_landing (s.withInputs rest)
  simp only [withInputs_posted] at hposted hlanding
  refine ⟨_, (step_input hin).trans (hostMemVisible_eq _), rfl,
    fun hbusy hbuf => ⟨fun a hsrc hp => ?_, fun a hout => ?_⟩, fun a hp => ?_,
    fun older newer a v hs hnew hduty hwf => ?_⟩
  · have hinSource : (s.withInputs rest).inSource a = true := by simp [State.inSource, hbusy, hbuf, hsrc]
    by_cases hb : readBreach (s.withInputs rest) a = true
    · exact .inl (by simp [hposted, hp, hb])
    · exact .inr (mem_late_visible hinSource (by simp [hlanding, hp, hb]))
  · have hb : readBreach (s.withInputs rest) a = true := readBreach_iff.mpr ⟨hbusy, hbuf, hout⟩
    exact ⟨read_visible_of_not_landing (by simp [hlanding, hb]), by simp [hposted, hb]⟩
  · exact read_visible_of_not_landing (by simp [hlanding, hp])
  · have hb : readBreach (s.withInputs rest) a = false :=
      Bool.eq_false_iff.mpr fun hb => hduty (readBreach_iff.mp hb)
    exact ⟨read_visible_newest hs hnew hb hwf, by simp [hposted, hb]⟩

end Sys2Proof.Machine
end

section
/-! SUPPORT. The access sequence of a whole run on served buffers, phase by phase (20_memory.md R102). -/

namespace Sys2Proof.Machine

/-! ## Runs and what the bus sees of them -/

/-- A BUSY core goes from one state to another by steps of the run, making the accesses of the list. -/
inductive Accesses (e : Engine) (d : Direction) : State → List AccessShape → State → Prop where
  | nil (s : State) : Accesses e d s [] s
  | cons {s t u : State} {l : List AccessShape} (hb : s.status.busy = true)
      (hs : streamStep e d s = .next t) (h : Accesses e d t l u) :
      Accesses e d s ((upcoming e d s).shape :: l) u

section
variable {e : Engine} {d : Direction} {s t u : State} {l l' : List AccessShape}

theorem Accesses.append (h : Accesses e d s l t) (h' : Accesses e d t l' u) : Accesses e d s (l ++ l') u := by
  induction h with
  | nil => exact h'
  | cons hb hs _ ih => exact .cons hb hs (ih h')

/-- The command makes one step per access. -/
theorem Accesses.execRun (h : Accesses e d s l t) (tau : Nat) :
    execRun (streamInstr e d tau) l.length s = .next t := by
  induction h with
  | nil => rfl
  | cons hb hs _ ih => simp only [List.length_cons, Machine.execRun, exec_streamInstr_busy e d tau hb, hs, ih]

/-- The trace of a longer run begins with the accesses made so far. -/
theorem Accesses.accessTrace (h : Accesses e d s l t) (m : Nat) :
    accessTrace e d (l.length + m) s = l ++ accessTrace e d m t := by
  induction h with
  | nil => rw [List.length_nil, Nat.zero_add, List.nil_append]
  | @cons s t u l hb hs _ ih =>
    rw [List.length_cons, Nat.add_right_comm]
    simp only [Machine.accessTrace, hs, ih, List.cons_append]

theorem accessTrace_one (e : Engine) (d : Direction) (s : State) :
    Machine.accessTrace e d 1 s = [(upcoming e d s).shape] := by
  unfold Machine.accessTrace
  cases streamStep e d s <;> rfl

/-- The trace of a run up to its completion. -/
theorem Accesses.accessTrace_finish (h : Accesses e d s l t) {c : ErrCode} {n : Nat} (hn : n = l.length)
    (hf : (settle e d t.hid).phase = .finish c) : Machine.accessTrace e d (n + 1) s = l ++ [.finish c] := by
  rw [hn, h.accessTrace, accessTrace_one, upcoming_finish hf]
  rfl

/-- A loop of the sequencer: if each round takes `P i` to `P (i + 1)`, the rounds make their accesses in order. -/
theorem accesses_flatMap_range {P : Nat → State → Prop} {f : Nat → List AccessShape} {n : Nat}
    (hround : ∀ i s, i < n → P i s → ∃ t, Accesses e d s (f i) t ∧ P (i + 1) t) (h0 : P 0 s) :
    ∃ t, Accesses e d s ((List.range n).flatMap f) t ∧ P n t := by
  induction n with
  | zero => exact ⟨s, .nil s, h0⟩
  | succ n ih =>
    obtain ⟨t, hst, ht⟩ := ih fun i s hi => hround i s (by omega)
    obtain ⟨u, htu, hu⟩ := hround n t n.lt_succ_self ht
    refine ⟨u, ?_, hu⟩
    rw [List.range_succ, List.flatMap_append, List.flatMap_singleton]
    exact hst.append htu

/-- A loop of single accesses. -/
theorem accesses_map_range {P : Nat → State → Prop} {f : Nat → AccessShape} {n : Nat}
    (hround : ∀ i s, i < n → P i s → ∃ t, Accesses e d s [f i] t ∧ P (i + 1) t) (h0 : P 0 s) :
    ∃ t, Accesses e d s ((List.range n).map f) t ∧ P n t := by
  rw [List.map_eq_flatMap]
  exact accesses_flatMap_range hround h0

end

/-! ## The sequencer from access to access -/

/-- The place of message byte `i`, or of what follows the message. -/
def msgPlace (d : Direction) (q : Snapshot) (i : Nat) : Phase :=
  if i < q.msgLen d then .msgRead i else .tag 0

/-- The place of AD byte `i`, or of what follows the AD. -/
def adPlace (d : Direction) (q : Snapshot) (i : Nat) : Phase :=
  if i < q.adLen.toNat then .adRead i else msgPlace d q 0

/-- Where the sequencer stands after the last tag byte. -/
def tagEnd : Direction → Phase
  | .encrypt => .finish .noError
  | .decrypt => .verify

/-- Where a completed access leaves the sequencer, its computation not settled. -/
def Phase.next (e : Engine) (d : Direction) (q : Snapshot) : Phase → Phase
  | .adRead i => if endsBlock e i q.adLen.toNat then .adChunk (i + 1) else .adRead (i + 1)
  | .msgRead i => if endsBlock e i (q.msgLen d) then .msgBlock (i + 1) else .msgRead (i + 1)
  | .msgWrite i => if endsBlock e i (q.msgLen d) then .msgNext (i + 1) else .msgWrite (i + 1)
  | .tag j => if j + 1 = q.tau.toNat then tagEnd d else .tag (j + 1)
  | .wipe i => if i + 1 = q.msgLen d then .finish .auth else .wipe (i + 1)
  | .idle => .idle
  | .start => .start
  | .adChunk n => .adChunk n
  | .msgBlock n => .msgBlock n
  | .msgNext n => .msgNext n
  | .verify => .verify
  | .finish c => .finish c

theorem afterRead_phase_next {e : Engine} {d : Direction} {h : Hidden} {a : Nat} (b : Byte)
    (hr : nextAccess e d h = .read a) : (afterRead e d b h).phase = h.phase.next e d h.q := by
  rw [afterRead_phase]
  obtain ⟨i, hp, -⟩ | ⟨i, hp, -⟩ | ⟨j, hp, rfl, -⟩ := nextAccess_read hr <;> rw [hp] <;> rfl

theorem afterWrite_phase_next {e : Engine} {d : Direction} {h : Hidden} {a : Nat} {v : Byte}
    (hw : nextAccess e d h = .write a v) : (afterWrite e d h).phase = h.phase.next e d h.q := by
  rw [afterWrite_phase]
  obtain ⟨i, hp, -⟩ | ⟨j, hp, rfl, -⟩ | ⟨i, hp, -⟩ := nextAccess_write hw <;> rw [hp] <;> rfl

/-! ## A step on served buffers -/

/-- The command with snapshot `q` runs, and the platform serves all its accesses. -/
structure Serving (q : Snapshot) (s : State) : Prop where
  busy : s.status.busy = true
  snapshot : s.hid.q = q
  served : Served q s

/-- Buffers stay served where the platform and the bytes not visible before CMD are the same. -/
theorem Served.congr {q : Snapshot} {s t : State} (h : Served q s) (hp : t.platform = s.platform)
    (hu : ∀ a, t.unseen a = s.unseen a) : Served q t where
  reads a ha := by rw [hp, hu]; exact h.reads a ha
  writes a ha := by rw [hp]; exact h.writes a ha

/-- The command runs, and its settled sequencer stands at `p`. -/
structure StandsAt (e : Engine) (d : Direction) (q : Snapshot) (p : Phase) (s : State) : Prop
    extends Serving q s where
  place : (settle e d s.hid).phase = p

/-- The place is an access inside the lengths of the command. -/
def Phase.inside (d : Direction) (q : Snapshot) : Phase → Prop
  | .adRead i => i < q.adLen.toNat
  | .msgRead i => i < q.msgLen d
  | .msgWrite i => i < q.msgLen d
  | .tag j => j < q.tau.toNat
  | .wipe i => d = .decrypt ∧ i < q.msgLen d
  | .idle => False
  | .start => False
  | .adChunk _ => False
  | .msgBlock _ => False
  | .msgNext _ => False
  | .verify => False
  | .finish _ => False

theorem phaseOk_of_inside {e : Engine} {d : Direction} {h : Hidden} (hi : h.phase.inside d h.q) :
    phaseOk e d h := by
  unfold phaseOk
  cases hp : h.phase <;> simp only [hp, Phase.inside] at hi ⊢ <;> exact hi

theorem settled_of_inside {d : Direction} {q : Snapshot} {p : Phase} (hi : p.inside d q) : p.settled = true := by
  cases p
  case adRead | msgRead | msgWrite | tag | wipe => rfl
  all_goals exact hi.elim

/-- A served access is made, and leaves the sequencer at the next place. -/
theorem StandsAt.step {e : Engine} {d : Direction} {q : Snapshot} {p : Phase} {s : State}
    (h : StandsAt e d q p s) (hfit : RangesFit d q) (hi : p.inside d q) :
    ∃ t, Accesses e d s [p.shape d q] t ∧ Serving q t ∧ t.hid.phase = p.next e d q := by
  obtain ⟨⟨hb, rfl, hserved⟩, rfl⟩ := h
  rw [← settle_q e d s.hid] at hfit hi
  have hok : phaseOk e d (settle e d s.hid) := phaseOk_of_inside hi
  have hshape : (upcoming e d s).shape = (settle e d s.hid).phase.shape d s.hid.q := by
    rw [upcoming, nextAccess_shape, settle_q]
  rw [← hshape]
  cases hacc : upcoming e d s with
  | read a =>
    have hin := nextAccess_read_inRange hfit hok hacc
    have ha := hfit.lt_addrSpace (hin.imp_right .inl)
    rw [settle_q] at hin
    obtain ⟨hmem, hdev, hvis⟩ := hserved.reads a hin
    rw [← hacc]
    refine ⟨_, .cons hb ((streamStep_read hacc).trans
      (dmaRead_served _ ha hmem hdev (by simpa using hvis))) (.nil _), ⟨hb, by simp, ?_⟩, ?_⟩
    · exact hserved.congr rfl fun b => by simp [State.unseen]
    · exact (afterRead_phase_next _ hacc).trans (by rw [settle_q])
  | write a v =>
    have hin := nextAccess_write_inRange hfit hok hacc
    have ha := hfit.lt_addrSpace (.inr (.inr hin))
    rw [settle_q] at hin
    obtain ⟨hmem, hdev⟩ := hserved.writes a hin
    rw [← hacc]
    refine ⟨_, .cons hb ((streamStep_write hacc).trans (dmaWrite_served v _ ha hmem hdev)) (.nil _),
      ⟨hb, by simp, ?_⟩, ?_⟩
    · exact hserved.congr rfl fun b => by simp [State.unseen]
    · exact (afterWrite_phase_next hacc).trans (by rw [settle_q])
  | finish c => exact absurd hi (by rw [nextAccess_finish hacc]; exact id)
  | nothing => exact absurd hacc (nextAccess_ne_nothing (settled_of_inside hi))

/-! ## Where the settled sequencer stands -/

section
variable {e : Engine} {d : Direction} {h : Hidden} {n : Nat}

theorem settle_start (hp : h.phase = .start) : (settle e d h).phase = adPlace d h.q 0 := by
  rw [settle_phase, hp]; rfl

theorem settle_adChunk (hp : h.phase = .adChunk n) : (settle e d h).phase = adPlace d h.q n := by
  rw [settle_phase, hp]; rfl

theorem settle_msgBlock (hp : h.phase = .msgBlock n) : (settle e d h).phase = .msgWrite (blockStart e n) := by
  rw [settle_phase, hp]

theorem settle_msgNext (hp : h.phase = .msgNext n) : (settle e d h).phase = msgPlace d h.q n := by
  rw [settle_phase, hp]; rfl

/-- Where the comparison leads (44_decrypt.md R270). -/
theorem settle_verify (hp : h.phase = .verify) :
    (settle e d h).phase =
      if ctEqual h.q.tau.toNat h.t h.e then .finish .noError
      else if 0 < h.q.msgLen d then .wipe 0 else .finish .auth := by
  rw [settle_phase, hp]

/-- A phase that is an access or the completion needs no computation. -/
theorem settle_of_settled (hp : h.phase.settled = true) : (settle e d h).phase = h.phase := by
  rw [settle_phase]
  cases hh : h.phase
  case start | adChunk | msgBlock | msgNext | verify => rw [hh] at hp; cases hp
  all_goals rfl

end

/-- A command that stands at an access or at its completion. -/
theorem Serving.standsAt_phase {q : Snapshot} {s : State} (h : Serving q s) (e : Engine) (d : Direction)
    {p : Phase} (hp : s.hid.phase = p) (hs : p.settled = true) : StandsAt e d q p s :=
  ⟨h, (settle_of_settled (hp ▸ hs)).trans hp⟩

/-! ## Blocks of the message -/

/-- The length of block `b`; the last one may be partial. -/
def blockLen (e : Engine) (d : Direction) (q : Snapshot) (b : Nat) : Nat :=
  min e.rate (q.msgLen d - b * e.rate)

/-- Where the reads of block `b` stand after `i` of them. -/
def blockReadPlace (e : Engine) (d : Direction) (q : Snapshot) (b i : Nat) : Phase :=
  if i < blockLen e d q b then .msgRead (b * e.rate + i) else .msgWrite (b * e.rate)

/-- Where the writes of block `b` stand after `i` of them. -/
def blockWritePlace (e : Engine) (d : Direction) (q : Snapshot) (b i : Nat) : Phase :=
  if i < blockLen e d q b then .msgWrite (b * e.rate + i) else msgPlace d q ((b + 1) * e.rate)

/-- The accesses of block `b`: its reads, then its writes. -/
def blockAccesses (e : Engine) (d : Direction) (q : Snapshot) (b : Nat) : List AccessShape :=
  ((List.range (blockLen e d q b)).map fun i => .read (q.src.toNat + b * e.rate + i)) ++
    (List.range (blockLen e d q b)).map fun i => .write (q.dst.toNat + b * e.rate + i)

theorem messagePhase_eq (e : Engine) (d : Direction) (q : Snapshot) :
    messagePhase e d q = (List.range (blockCount e (q.msgLen d))).flatMap (blockAccesses e d q) := rfl

section
variable {e : Engine} {d : Direction} {q : Snapshot} {b i : Nat}

/-- A block that exists has bytes. -/
theorem blockLen_pos (hb : b < blockCount e (q.msgLen d)) :
    b * e.rate < q.msgLen d ∧ 0 < blockLen e d q b := by
  unfold blockCount at hb
  unfold blockLen
  cases e <;> simp only [Engine.rate] at hb ⊢ <;> omega

/-- A byte of a block is a byte of the message. -/
theorem lt_msgLen_of_lt_blockLen (hi : i < blockLen e d q b) : b * e.rate + i < q.msgLen d := by
  unfold blockLen at hi
  omega

/-- Byte `i` of block `b` ends it exactly if it is its last. -/
theorem endsBlock_iff (hi : i < blockLen e d q b) :
    endsBlock e (b * e.rate + i) (q.msgLen d) = true ↔ i + 1 = blockLen e d q b := by
  unfold blockLen at hi ⊢
  rw [endsBlock, decide_eq_true_iff]
  cases e <;> simp only [Engine.rate] at hi ⊢ <;> omega

/-- Block `b` begins at its first byte. -/
theorem blockStart_eq (hi : i < blockLen e d q b) : blockStart e (b * e.rate + i + 1) = b * e.rate := by
  have hrate : i < e.rate := hi.trans_le (min_le_left _ _)
  rw [blockStart, Nat.add_sub_cancel, Nat.add_comm, Nat.add_mul_div_right _ _ (by omega),
    Nat.div_eq_of_lt hrate, Nat.zero_add]

/-- What follows the last byte of block `b`: the next block, or the tag. -/
theorem msgPlace_blockEnd (b : Nat) :
    msgPlace d q (b * e.rate + blockLen e d q b) = msgPlace d q ((b + 1) * e.rate) := by
  rw [Nat.succ_mul, msgPlace, msgPlace, blockLen]
  by_cases h : b * e.rate + e.rate ≤ q.msgLen d
  · rw [min_eq_left (by omega)]
  · rw [if_neg (by omega), if_neg (by omega)]

/-- The blocks reach the end of the message. -/
theorem msgLen_le_blockCount : q.msgLen d ≤ blockCount e (q.msgLen d) * e.rate := by
  unfold blockCount
  cases e <;> simp only [Engine.rate] <;> omega

/-- The first `k` blocks read and write the bytes below `k` rates. -/
theorem length_blocks (k : Nat) :
    ((List.range k).flatMap (blockAccesses e d q)).length = 2 * min (q.msgLen d) (k * e.rate) := by
  induction k with
  | zero => simp
  | succ k ih =>
    rw [List.range_succ, List.flatMap_append, List.length_append, ih, List.flatMap_singleton, blockAccesses,
      List.length_append, List.length_map, List.length_map, List.length_range, Nat.succ_mul k, blockLen]
    omega

theorem length_messagePhase : (messagePhase e d q).length = 2 * q.msgLen d := by
  rw [messagePhase_eq, length_blocks, min_eq_left msgLen_le_blockCount]

theorem length_phases :
    (adPhase q ++ messagePhase e d q ++ tagPhase d q).length =
      q.adLen.toNat + 2 * q.msgLen d + q.tau.toNat := by
  simp [length_messagePhase, adPhase, tagPhase, Nat.add_assoc]

end

/-! ## The phases -/

section
variable {e : Engine} {d : Direction} {q : Snapshot} {s : State} (hfit : RangesFit d q)
include hfit

/-- Phase (1): one AD byte read. -/
theorem adRound (i : Nat) (s : State) (hi : i < q.adLen.toNat) (h : StandsAt e d q (adPlace d q i) s) :
    ∃ t, Accesses e d s [.read (q.ad.toNat + i)] t ∧ StandsAt e d q (adPlace d q (i + 1)) t := by
  rw [adPlace, if_pos hi] at h
  obtain ⟨t, hst, ht, hp⟩ := h.step hfit hi
  refine ⟨t, hst, ?_⟩
  rw [Phase.next] at hp
  split_ifs at hp with hend
  · exact ⟨ht, by rw [settle_adChunk hp, ht.snapshot]⟩
  · rw [adPlace, if_pos (succ_lt_of_not_endsBlock hi hend)]
    exact ht.standsAt_phase e d hp rfl

/-- Phase (2): one byte of a block read. -/
theorem blockReadRound {b : Nat} (i : Nat) (s : State) (hi : i < blockLen e d q b)
    (h : StandsAt e d q (blockReadPlace e d q b i) s) :
    ∃ t, Accesses e d s [.read (q.src.toNat + b * e.rate + i)] t ∧
      StandsAt e d q (blockReadPlace e d q b (i + 1)) t := by
  rw [blockReadPlace, if_pos hi] at h
  obtain ⟨t, hst, ht, hp⟩ := h.step hfit (lt_msgLen_of_lt_blockLen hi)
  rw [Phase.shape, ← Nat.add_assoc] at hst
  refine ⟨t, hst, ?_⟩
  rw [Phase.next, if_congr (endsBlock_iff hi) rfl rfl] at hp
  rw [blockReadPlace]
  split_ifs at hp with hend
  · rw [if_neg (by omega)]
    exact ⟨ht, by rw [settle_msgBlock hp, blockStart_eq hi]⟩
  · rw [if_pos (by omega)]
    exact ht.standsAt_phase e d hp rfl

/-- Phase (2): one byte of a block written. -/
theorem blockWriteRound {b : Nat} (i : Nat) (s : State) (hi : i < blockLen e d q b)
    (h : StandsAt e d q (blockWritePlace e d q b i) s) :
    ∃ t, Accesses e d s [.write (q.dst.toNat + b * e.rate + i)] t ∧
      StandsAt e d q (blockWritePlace e d q b (i + 1)) t := by
  rw [blockWritePlace, if_pos hi] at h
  obtain ⟨t, hst, ht, hp⟩ := h.step hfit (lt_msgLen_of_lt_blockLen hi)
  rw [Phase.shape, ← Nat.add_assoc] at hst
  refine ⟨t, hst, ?_⟩
  rw [Phase.next, if_congr (endsBlock_iff hi) rfl rfl] at hp
  rw [blockWritePlace]
  split_ifs at hp with hend
  · rw [if_neg (by omega), ← msgPlace_blockEnd, ← hend]
    exact ⟨ht, by rw [settle_msgNext hp, ht.snapshot, Nat.add_assoc]⟩
  · rw [if_pos (by omega)]
    exact ht.standsAt_phase e d hp rfl

/-- Phase (2): one block. -/
theorem blockRound (b : Nat) (s : State) (hb : b < blockCount e (q.msgLen d))
    (h : StandsAt e d q (msgPlace d q (b * e.rate)) s) :
    ∃ t, Accesses e d s (blockAccesses e d q b) t ∧ StandsAt e d q (msgPlace d q ((b + 1) * e.rate)) t := by
  obtain ⟨hlt, hpos⟩ := blockLen_pos hb
  have hreads : StandsAt e d q (blockReadPlace e d q b 0) s := by
    rw [blockReadPlace, if_pos hpos, Nat.add_zero]
    rwa [msgPlace, if_pos hlt] at h
  obtain ⟨t, hst, ht⟩ := accesses_map_range (blockReadRound hfit) hreads
  have hwrites : StandsAt e d q (blockWritePlace e d q b 0) t := by
    rw [blockReadPlace, if_neg (lt_irrefl _)] at ht
    rwa [blockWritePlace, if_pos hpos]
  obtain ⟨u, htu, hu⟩ := accesses_map_range (blockWriteRound hfit) hwrites
  rw [blockWritePlace, if_neg (lt_irrefl _)] at hu
  exact ⟨u, hst.append htu, hu⟩

/-- The command runs and has made `j` accesses to tag bytes. -/
structure TagAccessed (e : Engine) (d : Direction) (q : Snapshot) (j : Nat) (s : State) : Prop
    extends Serving q s where
  more : j < q.tau.toNat → (settle e d s.hid).phase = .tag j
  done : j = q.tau.toNat → s.hid.phase = tagEnd d

/-- Phase (3): one tag byte written or read. -/
theorem tagRound (j : Nat) (s : State) (hj : j < q.tau.toNat) (h : TagAccessed e d q j s) :
    ∃ t, Accesses e d s [(Phase.tag j).shape d q] t ∧ TagAccessed e d q (j + 1) t := by
  obtain ⟨t, hst, ht, hp⟩ := StandsAt.step ⟨h.toServing, h.more hj⟩ hfit hj
  refine ⟨t, hst, ht, fun hlt => ?_, fun heq => ?_⟩
  · rw [Phase.next, if_neg (by omega)] at hp
    exact (ht.standsAt_phase e d hp rfl).place
  · rwa [Phase.next, if_pos heq] at hp

/-- Phase (4): one output byte wiped. -/
theorem wipeRound (hd : d = .decrypt) (i : Nat) (s : State) (hi : i < q.msgLen d)
    (h : StandsAt e d q (if i < q.msgLen d then .wipe i else .finish .auth) s) :
    ∃ t, Accesses e d s [.write (q.dst.toNat + i)] t ∧
      StandsAt e d q (if i + 1 < q.msgLen d then .wipe (i + 1) else .finish .auth) t := by
  rw [if_pos hi] at h
  obtain ⟨t, hst, ht, hp⟩ := h.step hfit ⟨hd, hi⟩
  refine ⟨t, hst, ?_⟩
  rw [Phase.next] at hp
  split_ifs at hp with hend
  · rw [if_neg (by omega)]
    exact ht.standsAt_phase e d hp rfl
  · rw [if_pos (by omega)]
    exact ht.standsAt_phase e d hp rfl

/-- From its start a command on served buffers makes the accesses of phases (1) to (3). -/
theorem Serving.accesses_phases (h : Serving q s) (hp : s.hid.phase = .start) (htau : 0 < q.tau.toNat) :
    ∃ t, Accesses e d s (adPhase q ++ messagePhase e d q ++ tagPhase d q) t ∧ Serving q t ∧
      t.hid.phase = tagEnd d := by
  have hstart : StandsAt e d q (adPlace d q 0) s := ⟨h, by rw [settle_start hp, h.snapshot]⟩
  obtain ⟨t, hst, ht⟩ := accesses_map_range (adRound hfit) hstart
  have hmsg : StandsAt e d q (msgPlace d q (0 * e.rate)) t := by
    rwa [adPlace, if_neg (lt_irrefl _), ← Nat.zero_mul e.rate] at ht
  obtain ⟨u, htu, hu⟩ := accesses_flatMap_range (blockRound hfit) hmsg
  have htag : TagAccessed e d q 0 u := by
    rw [msgPlace, if_neg (not_lt.mpr msgLen_le_blockCount)] at hu
    exact ⟨hu.toServing, fun _ => hu.place, fun h0 => absurd h0 htau.ne⟩
  obtain ⟨v, huv, hv⟩ := accesses_map_range (tagRound hfit) htag
  refine ⟨v, (hst.append htu).append ?_, hv.toServing, hv.done rfl⟩
  have hshape : (List.range q.tau.toNat).map (fun j => (Phase.tag j).shape d q) = tagPhase d q := by
    cases d <;> rfl
  exact hshape ▸ huv

end

/-- From a failed comparison DECRYPT wipes the output and stands at its completion with AUTH. -/
theorem Serving.accesses_wipe {e : Engine} {q : Snapshot} {s : State} (h : Serving q s)
    (hfit : RangesFit .decrypt q) (hp : s.hid.phase = .verify)
    (hne : ctEqual q.tau.toNat s.hid.t s.hid.e = false) :
    ∃ t, Accesses e .decrypt s (wipePhase q) t ∧ (settle e .decrypt t.hid).phase = .finish .auth := by
  have hwipe : StandsAt e .decrypt q (if 0 < q.msgLen .decrypt then .wipe 0 else .finish .auth) s :=
    ⟨h, by simp [settle_verify hp, h.snapshot, hne]⟩
  obtain ⟨t, hst, ht⟩ := accesses_map_range
    (P := fun i => StandsAt e .decrypt q (if i < q.msgLen .decrypt then .wipe i else .finish .auth))
    (wipeRound hfit rfl) hwipe
  exact ⟨t, hst, by simpa using ht.place⟩

theorem length_wipePhase (q : Snapshot) : (wipePhase q).length = q.msgLen .decrypt := by
  simp [wipePhase]

/-- A comparison that verifies leads to the completion with NONE (44_decrypt.md R270). -/
theorem Serving.settle_verified {e : Engine} {d : Direction} {q : Snapshot} {s : State} (h : Serving q s)
    (hp : s.hid.phase = .verify) (heq : ctEqual q.tau.toNat s.hid.t s.hid.e = true) :
    (settle e d s.hid).phase = .finish .noError := by
  rw [settle_verify hp, h.snapshot, if_pos heq]

/-- Settles O42: the phases are the loops of the sequencer, one after the other. -/
theorem accessSequenceHasItsPhases : Obligations.AccessSequenceHasItsPhases := by
  intro e d s hb hrun hserved n phases
  have hfit := hrun.fit
  have hserving : Serving s.hid.q s := ⟨hb, rfl, hserved⟩
  have hn : n = phases.length := length_phases.symm
  refine ⟨fun hstart => ?_, fun hp heq => ?_, fun hp hne => ?_⟩
  · obtain ⟨t, hst, ht, hp⟩ := hserving.accesses_phases hfit hstart hrun.tau_pos
    refine ⟨t, hn ▸ hst.execRun _, ht.snapshot, ?_, ?_, ?_⟩
    · rw [hn]
      exact (hst.accessTrace 0).trans (List.append_nil _)
    · rintro rfl
      exact ⟨hp, hst.accessTrace_finish hn ((settle_of_settled (by rw [hp]; rfl)).trans hp)⟩
    · rintro rfl
      refine ⟨hp, fun heq => hst.accessTrace_finish hn (ht.settle_verified hp heq), fun hne => ?_⟩
      obtain ⟨u, htu, hu⟩ := ht.accesses_wipe hfit hp hne
      exact (hst.append htu).accessTrace_finish (by rw [List.length_append, length_wipePhase, hn]) hu
  · exact (Accesses.nil s).accessTrace_finish rfl (hserving.settle_verified hp heq)
  · obtain rfl : d = .decrypt := by
      have ho := hrun.phase
      unfold phaseOk at ho
      rwa [hp] at ho
    obtain ⟨t, hst, ht⟩ := hserving.accesses_wipe hfit hp hne
    exact hst.accessTrace_finish (length_wipePhase _).symm ht

end Sys2Proof.Machine
end

section
/-! SUPPORT. The statements on the encoding: which word stands for which instruction, and what becomes of a word
that stands for none. -/

namespace Sys2Proof.Machine

/-! ## Instructions and their words (30_encoding.md R120, R131) -/

/-- Every instruction is an ENCRYPT or DECRYPT of one of the engines, or one of the two fixed words. -/
theorem instr_stream_or_fixed (i : Instr) :
    (∃ e d tau, i = streamInstr e d tau) ∨ i = .aesround ∨ i = .zeroize := by
  cases i with
  | encrypt128 tau => exact .inl ⟨.e128, .encrypt, tau, rfl⟩
  | encrypt256 tau => exact .inl ⟨.e256, .encrypt, tau, rfl⟩
  | decrypt128 tau => exact .inl ⟨.e128, .decrypt, tau, rfl⟩
  | decrypt256 tau => exact .inl ⟨.e256, .decrypt, tau, rfl⟩
  | aesround => exact .inr (.inl rfl)
  | zeroize => exact .inr (.inr rfl)

theorem encode_streamInstr (e : Engine) (d : Direction) (tau : Nat) :
    encode (streamInstr e d tau) = assembleWord 0#16 (BitVec.ofNat 8 tau) e.var d.op := by
  cases e <;> cases d <;> rfl

theorem wellFormed_streamInstr (e : Engine) (d : Direction) (tau : Nat) :
    (streamInstr e d tau).WellFormed = true ↔ tau ≤ 255 := by
  cases e <;> cases d <;> exact decide_eq_true_iff

/-- A word with RSV zero and the other fields of an instruction is that instruction's word. -/
theorem encode_eq_of_fields {w : Word} {i : Instr} (hr : rsvField w = 0#16) (ht : tagField w = i.tag)
    (hv : varField w = i.var) (ho : opField w = i.op) : encode i = w := by
  rw [encode, ← hr, ← ht, ← hv, ← ho, assembleWord_fields]

/-- The decoder reads a stream command where the fields spell one. -/
theorem decode_stream {w : Word} {e : Engine} {d : Direction} (hr : rsvField w = 0#16)
    (hv : varField w = e.var) (ho : opField w = d.op) :
    decode w = .command (streamInstr e d (tagField w).toNat) := by
  have h := decode_streamWord e d (tagField w)
  rwa [← hr, ← hv, ← ho, assembleWord_fields] at h

/-! ## The decoder and the encoder are inverse (30_encoding.md R126) -/

/-- Settles O2: the decoder reads the fields the encoder wrote, and an 8-bit TAGLEN holds the tag size. -/
theorem decodingAnEncodedInstructionGivesItBack : Obligations.DecodingAnEncodedInstructionGivesItBack := by
  intro i hwf
  obtain ⟨e, d, tau, rfl⟩ | rfl | rfl := instr_stream_or_fixed i
  · have htau : tau % 2 ^ 8 = tau := Nat.mod_eq_of_lt (by have := (wellFormed_streamInstr e d tau).mp hwf; omega)
    rw [encode_streamInstr, decode_streamWord, BitVec.toNat_ofNat, htau]
  · decide
  · decide

/-- A word that decodes to a command has the command's fields, with the tag size of an ENCRYPT or DECRYPT in
TAGLEN. -/
theorem decode_command {w : Word} {i : Instr} (h : decode w = .command i) :
    rsvField w = 0#16 ∧
      ((∃ e d, i = streamInstr e d (tagField w).toNat ∧ varField w = e.var ∧ opField w = d.op) ∨
        ((i = .aesround ∧ opField w = opAesround ∨ i = .zeroize ∧ opField w = opZeroize) ∧
          varField w = 0#4 ∧ tagField w = 0#8)) := by
  unfold decode at h
  split_ifs at h with hr ho hv hv ho hv hv ho hf ho hf <;> cases h <;> refine ⟨not_not.mp hr, ?_⟩
  · exact .inl ⟨.e128, .encrypt, rfl, hv, ho⟩
  · exact .inl ⟨.e256, .encrypt, rfl, hv, ho⟩
  · exact .inl ⟨.e128, .decrypt, rfl, hv, ho⟩
  · exact .inl ⟨.e256, .decrypt, rfl, hv, ho⟩
  · exact .inr ⟨.inl ⟨rfl, ho⟩, hf⟩
  · exact .inr ⟨.inr ⟨rfl, ho⟩, hf⟩

/-- Settles O3: the fields of the word are those of the command, and an 8-bit TAGLEN is at most 255. -/
theorem encodingADecodedWordGivesItBack : Obligations.EncodingADecodedWordGivesItBack := by
  intro w i h
  obtain ⟨hr, ⟨e, d, rfl, hv, ho⟩ | ⟨⟨rfl, ho⟩ | ⟨rfl, ho⟩, hv, ht⟩⟩ := decode_command h
  · refine ⟨?_, (wellFormed_streamInstr e d _).mpr (Nat.le_of_lt_succ (tagField w).isLt)⟩
    rw [encode_streamInstr, BitVec.ofNat_toNat, BitVec.setWidth_eq, ← hr, ← hv, ← ho, assembleWord_fields]
  · exact ⟨encode_eq_of_fields hr ht hv ho, rfl⟩
  · exact ⟨encode_eq_of_fields hr ht hv ho, rfl⟩

theorem decode_eq_command_iff (w : Word) (i : Instr) :
    decode w = .command i ↔ w = encode i ∧ i.WellFormed = true := by
  constructor
  · intro h
    obtain ⟨he, hwf⟩ := encodingADecodedWordGivesItBack w i h
    exact ⟨he.symm, hwf⟩
  · rintro ⟨rfl, hwf⟩
    exact decodingAnEncodedInstructionGivesItBack i hwf

/-! ## Match and mask (30_encoding.md R129) -/

/-- Words are masked field by field. -/
theorem assembleWord_and (r r' : BitVec 16) (t t' : BitVec 8) (v v' o o' : BitVec 4) :
    assembleWord r t v o &&& assembleWord r' t' v' o' =
      assembleWord (r &&& r') (t &&& t') (v &&& v') (o &&& o') := by
  change (r ++ t ++ v ++ o) &&& (r' ++ t' ++ v' ++ o') = _
  rw [BitVec.and_append, BitVec.and_append, BitVec.and_append, assembleWord]

/-- The mask of the ENCRYPT and DECRYPT rows clears TAGLEN and keeps the other fields. -/
theorem and_streamMask (w : Word) :
    w &&& 0xFFFF00FF#32 = assembleWord (rsvField w) 0#8 (varField w) (opField w) := by
  have hmask : 0xFFFF00FF#32 = assembleWord (BitVec.allOnes 16) 0#8 (BitVec.allOnes 4) (BitVec.allOnes 4) := by
    decide
  conv_lhs => rw [hmask, ← assembleWord_fields w]
  rw [assembleWord_and, BitVec.and_zero, BitVec.and_allOnes, BitVec.and_allOnes, BitVec.and_allOnes]

/-- A word matches an ENCRYPT or DECRYPT row exactly when it decodes to the row's command. -/
theorem streamRow_iff (w : Word) (e : Engine) (d : Direction) :
    w &&& 0xFFFF00FF#32 = assembleWord 0#16 0#8 e.var d.op ↔
      decode w = .command (streamInstr e d (tagField w).toNat) := by
  rw [and_streamMask, assembleWord_inj]
  constructor
  · rintro ⟨hr, -, hv, ho⟩
    exact decode_stream hr hv ho
  · intro h
    obtain ⟨he, -⟩ := encodingADecodedWordGivesItBack w _ h
    rw [← he, encode_streamInstr]
    exact ⟨rsvField_assembleWord .., rfl, varField_assembleWord .., opField_assembleWord ..⟩

/-- A word matches a fixed row exactly when it decodes to the row's command. -/
theorem fixedRow_iff (w : Word) {i : Instr} (hwf : i.WellFormed = true) : w = encode i ↔ decode w = .command i := by
  simp [decode_eq_command_iff, hwf]

theorem exists_illegal_iff (w : Word) :
    (∃ why, decode w = .illegal why) ↔ ∀ i, decode w ≠ .command i := by
  cases decode w <;> simp

/-- A word decodes to ILLEGAL exactly when it decodes to the command of no row. -/
theorem exists_illegal_iff_no_row (w : Word) :
    (∃ why, decode w = .illegal why) ↔
      (∀ e d, decode w ≠ .command (streamInstr e d (tagField w).toNat)) ∧
        decode w ≠ .command .aesround ∧ decode w ≠ .command .zeroize := by
  rw [exists_illegal_iff]
  refine ⟨fun h => ⟨fun e d => h _, h _, h _⟩, fun ⟨hs, ha, hz⟩ i hi => ?_⟩
  obtain ⟨-, ⟨e, d, rfl, -⟩ | ⟨⟨rfl, -⟩ | ⟨rfl, -⟩, -⟩⟩ := decode_command hi
  · exact hs e d hi
  · exact ha hi
  · exact hz hi

/-- Settles O4: each row's match is an assembled word, and every command stands in a row. -/
theorem maskAndMatchSelectTheCommand : Obligations.MaskAndMatchSelectTheCommand := by
  intro w
  have hE128 := streamRow_iff w .e128 .encrypt
  have hE256 := streamRow_iff w .e256 .encrypt
  have hD128 := streamRow_iff w .e128 .decrypt
  have hD256 := streamRow_iff w .e256 .decrypt
  have hA := fixedRow_iff w (i := .aesround) rfl
  have hZ := fixedRow_iff w (i := .zeroize) rfl
  have hmask : w &&& 0xFFFFFFFF#32 = w := BitVec.and_allOnes
  refine ⟨hE128, hE256, hD128, hD256, hmask.symm ▸ hA, hmask.symm ▸ hZ, ?_⟩
  rw [exists_illegal_iff_no_row]
  constructor
  · rintro ⟨h1, h2, h3, h4, h5, h6⟩
    refine ⟨fun e d => ?_, mt hA.mpr h5, mt hZ.mpr h6⟩
    cases d <;> cases e
    · exact mt hE128.mpr h1
    · exact mt hE256.mpr h2
    · exact mt hD128.mpr h3
    · exact mt hD256.mpr h4
  · rintro ⟨hs, ha, hz⟩
    exact ⟨mt hE128.mp (hs _ _), mt hE256.mp (hs _ _), mt hD128.mp (hs _ _), mt hD256.mp (hs _ _), mt hA.mp ha,
      mt hZ.mp hz⟩

/-! ## ILLEGAL at acceptance (30_encoding.md R127) -/

/-- A CMD write while reset is released goes to the command controller. -/
theorem step_cmdWrite {s : State} {w : Word} {rest : List Event} (h : s.inputs = .regWrite 0x018 32 w :: rest)
    (hr : s.resetHeld = false) : step s = commandWrite w { s with inputs := rest } := by
  rw [step_input h]
  exact portWrite_cmd w hr

/-- An idle core refuses a word that decodes to ILLEGAL. -/
theorem commandWrite_illegal {w : Word} {why : Illegal} {s : State} (hb : s.status.busy = false)
    (hd : decode w = .illegal why) : commandWrite w s = .next (acceptIllegal w s) := by
  simp [commandWrite, hb, hd]

/-- Refusing a word is a completion that changes no register but the report. -/
theorem acceptIllegal_eq_reported (w : Word) (s : State) :
    acceptIllegal w s = reported .illegal (opField w) false .noParam (0#32 ++ w) s := by
  have hinfo : w.setWidth 64 = 0#32 ++ w := BitVec.setWidth_eq_append (by decide)
  rw [acceptIllegal, hinfo]
  rfl

/-- A word with nonzero RSV, a reserved OP or VAR, or a nonzero field in AESROUND or ZEROIZE decodes to no
command. -/
theorem decode_illegal_of_fields {w : Word}
    (h : rsvField w ≠ 0 ∨ (opField w ≠ 1 ∧ opField w ≠ 2 ∧ opField w ≠ 3 ∧ opField w ≠ 4) ∨
      ((opField w = 1 ∨ opField w = 2) ∧ varField w ≠ 0 ∧ varField w ≠ 1) ∨
      ((opField w = 3 ∨ opField w = 4) ∧ (varField w ≠ 0 ∨ tagField w ≠ 0))) :
    ∃ why, decode w = .illegal why := by
  rw [exists_illegal_iff]
  intro i hi
  obtain ⟨hr, ⟨e, d, rfl, hv, ho⟩ | ⟨⟨rfl, ho⟩ | ⟨rfl, ho⟩, hv, ht⟩⟩ := decode_command hi
  · rw [hr, hv, ho] at h
    revert h
    cases e <;> cases d <;> simp [Engine.var, Direction.op, var128, var256, opEncrypt, opDecrypt]
  · simp [hr, hv, ho, ht, opAesround] at h
  · simp [hr, hv, ho, ht, opZeroize] at h

/-- Settles O21: the word decodes to ILLEGAL, and the idle core refuses it. -/
theorem illegalWordIsRefusedAtAcceptance : Obligations.IllegalWordIsRefusedAtAcceptance := by
  intro s w rest hin hr hb hfields
  obtain ⟨why, hd⟩ := decode_illegal_of_fields hfields
  rw [step_cmdWrite hin hr, commandWrite_illegal (s := { s with inputs := rest }) hb hd,
    acceptIllegal_eq_reported]
  rfl

/-- Settles O1, by running the decoder on each word. -/
theorem sampleWordsDecodeAsTheTableSays : Obligations.SampleWordsDecodeAsTheTableSays := by
  unfold Obligations.SampleWordsDecodeAsTheTableSays
  decide

end Sys2Proof.Machine
end

section
/-! SUPPORT. The statements on the AES round unit: arithmetic in GF(2^8), the three maps of a round byte by byte, and
AESROUND. -/

namespace Sys2Proof.Machine

/-! ## The product in GF(2^8) is distributive, commutative and associative (40_aes_round.md R152) -/

theorem xtime_xor (a b : Byte) : xtime (a ^^^ b) = xtime a ^^^ xtime b := by
  have hmask (p q : Bool) : (if p ^^ q then 0x1B#8 else 0#8) =
      (if p then 0x1B#8 else 0#8) ^^^ (if q then 0x1B#8 else 0#8) := by
    cases p <;> cases q <;> rfl
  rw [xtime, xtime, xtime, BitVec.shiftLeft_xor_distrib, BitVec.msb_xor, hmask]
  ac_rfl

theorem gfMulBits_xor (n : Nat) (a a' b : Byte) :
    gfMulBits n (a ^^^ a') b = gfMulBits n a b ^^^ gfMulBits n a' b := by
  induction n generalizing a a' b with
  | zero => simp [gfMulBits]
  | succ n ih =>
    simp only [gfMulBits, xtime_xor, ih]
    split
    · ac_rfl
    · simp

theorem gfMulBits_zero (n : Nat) (b : Byte) : gfMulBits n 0 b = 0 := by
  simpa using gfMulBits_xor n 0 0 b

theorem zero_gfMul (b : Byte) : gfMul 0 b = 0 :=
  gfMulBits_zero 8 b

theorem gfMulBits_xtime (n : Nat) (a b : Byte) : gfMulBits n (xtime a) b = xtime (gfMulBits n a b) := by
  have hzero : xtime 0 = 0 := by decide
  induction n generalizing a b with
  | zero => exact hzero.symm
  | succ n ih =>
    simp only [gfMulBits, xtime_xor, ih]
    split
    · rfl
    · rw [hzero]

/-- A factor moves out of the left operand: both sides add up the products `xtime^k a • b` at the bits `k` of `c`. -/
theorem gfMulBits_gfMul (n : Nat) (a b c : Byte) : gfMulBits n (gfMul a b) c = gfMul (gfMulBits n a c) b := by
  induction n generalizing a c with
  | zero => exact (zero_gfMul b).symm
  | succ n ih =>
    have hx : xtime (gfMul a b) = gfMul (xtime a) b := (gfMulBits_xtime 8 a b).symm
    have hadd (x y : Byte) : gfMul (x ^^^ y) b = gfMul x b ^^^ gfMul y b := gfMulBits_xor 8 x y b
    simp only [gfMulBits, hx, ih, hadd]
    split
    · rfl
    · rw [zero_gfMul]

theorem gfMul_right_comm (a b c : Byte) : gfMul (gfMul a b) c = gfMul (gfMul a c) b :=
  gfMulBits_gfMul 8 a b c

theorem one_gfMul : ∀ b : Byte, gfMul 1 b = b := by decide +kernel

theorem gfMul_comm (a b : Byte) : gfMul a b = gfMul b a := by
  have h := gfMul_right_comm 1 a b
  rwa [one_gfMul, one_gfMul] at h

theorem gfMul_assoc (a b c : Byte) : gfMul (gfMul a b) c = gfMul a (gfMul b c) := by
  rw [gfMul_comm a b, gfMul_right_comm, gfMul_comm]

theorem gfMul_two (a : Byte) : gfMul a 2 = xtime a := by
  simp [gfMul, gfMulBits]

theorem gfMul_three (a : Byte) : gfMul a 3 = mul3 a := by
  simp [gfMul, gfMulBits, mul3, BitVec.xor_comm]

/-! ## The inverse in GF(2^8) (40_aes_round.md R152, R153)

The nonzero bytes form a group of order 255, so the power 254 is the inverse.  That every nonzero byte has an inverse
at all is read off the Sbox: undoing its affine map gives the inverse. -/

/-- The byte whose affine image is `b`. -/
def affineInv (b : Byte) : Byte := b.rotateLeft 1 ^^^ b.rotateLeft 3 ^^^ b.rotateLeft 6 ^^^ 0x05#8

/-- The inverse the Sbox holds. -/
def sboxInv (a : Byte) : Byte := affineInv (sbox a)

theorem affine_affineInv : ∀ b : Byte, affine (affineInv b) = b := by decide +kernel

theorem gfMul_sboxInv : ∀ a : Byte, a ≠ 0 → gfMul a (sboxInv a) = 1 := by decide +kernel

theorem sboxInv_ne_zero {a : Byte} (ha : a ≠ 0) : sboxInv a ≠ 0 := by
  intro h
  have h1 := gfMul_sboxInv a ha
  rw [h, gfMul_comm, zero_gfMul] at h1
  exact absurd h1 (by decide)

theorem gfMul_ne_zero {a b : Byte} (ha : a ≠ 0) (hb : b ≠ 0) : gfMul a b ≠ 0 := by
  intro h
  apply hb
  calc b = gfMul (gfMul a (sboxInv a)) b := by rw [gfMul_sboxInv a ha, one_gfMul]
    _ = gfMul (gfMul a b) (sboxInv a) := gfMul_right_comm a _ b
    _ = 0 := by rw [h, zero_gfMul]

/-- The elements of the multiplicative group. -/
abbrev NonzeroByte := { a : Byte // a ≠ 0 }

/-- The group of the nonzero bytes. -/
abbrev nonzeroByteGroup : Group NonzeroByte where
  mul a b := ⟨gfMul a b, gfMul_ne_zero a.2 b.2⟩
  one := ⟨1, by decide⟩
  inv a := ⟨sboxInv a, sboxInv_ne_zero a.2⟩
  mul_assoc a b c := Subtype.ext (gfMul_assoc a b c)
  one_mul a := Subtype.ext (one_gfMul a)
  mul_one a := Subtype.ext ((gfMul_comm a 1).trans (one_gfMul a))
  inv_mul_cancel a := Subtype.ext ((gfMul_comm _ _).trans (gfMul_sboxInv a a.2))

theorem card_nonzeroByte : Nat.card NonzeroByte = 255 := by
  have hbyte : Fintype.card Byte = 2 ^ 8 := by rw [← FinEnum.card_eq_fintypeCard, FinEnum.card_bitVec]
  rw [Nat.card_eq_fintype_card, Fintype.card_subtype_compl, Fintype.card_subtype_eq, hbyte]
  rfl

/-- Lagrange's theorem in the group of the nonzero bytes. -/
theorem gfPow_255 {a : Byte} (ha : a ≠ 0) : gfPow a 255 = 1 := by
  let _ := nonzeroByteGroup
  have hpow (n : Nat) : ((⟨a, ha⟩ : NonzeroByte) ^ n).val = gfPow a n := by
    induction n with
    | zero => rfl
    | succ n ih => rw [pow_succ', gfPow, ← ih]; rfl
  rw [← hpow, ← card_nonzeroByte, pow_card_eq_one']
  rfl

theorem gfMul_gfInv {a : Byte} (ha : a ≠ 0) : gfMul a (gfInv a) = 1 :=
  gfPow_255 ha

theorem gfInv_zero : gfInv 0 = 0 :=
  zero_gfMul (gfPow 0 253)

theorem gfInv_eq_sboxInv (a : Byte) : gfInv a = sboxInv a := by
  by_cases ha : a = 0
  · rw [ha, gfInv_zero]
    decide
  · calc gfInv a = gfMul (gfMul a (sboxInv a)) (gfInv a) := by rw [gfMul_sboxInv a ha, one_gfMul]
      _ = gfMul (gfMul a (gfInv a)) (sboxInv a) := gfMul_right_comm a _ _
      _ = sboxInv a := by rw [gfMul_gfInv ha, one_gfMul]

/-! ## SubBytes (40_aes_round.md R153) -/

theorem getLsbD_rotateRight_byte (b : Byte) {k i : Nat} (hk : k < 8) (hi : i < 8) :
    (b.rotateRight k).getLsbD i = b.getLsbD ((i + k) % 8) := by
  rw [BitVec.getLsbD_rotateRight, Nat.mod_eq_of_lt hk]
  by_cases hwrap : i < 8 - k
  · have hsum : (i + k) % 8 = k + i := by omega
    simp [hwrap, hsum]
  · have hsum : (i + k) % 8 = i - (8 - k) := by omega
    simp [hwrap, hi, hsum]

theorem getLsbD_affine (b : Byte) {i : Nat} (hi : i < 8) :
    (affine b).getLsbD i =
      (b.getLsbD i ^^ b.getLsbD ((i + 4) % 8) ^^ b.getLsbD ((i + 5) % 8) ^^ b.getLsbD ((i + 6) % 8) ^^
        b.getLsbD ((i + 7) % 8) ^^ (0x63#8).getLsbD i) := by
  simp only [affine, BitVec.getLsbD_xor, getLsbD_rotateRight_byte b _ hi, Nat.reduceLT]

theorem sbox_eq_affine_gfInv (a : Byte) : sbox a = affine (gfInv a) := by
  rw [gfInv_eq_sboxInv, sboxInv, affine_affineInv]

/-- Settles O30: SubBytes works byte by byte, and the Sbox is the affine image of the inverse it holds. -/
theorem sboxIsTheAffineImageOfTheInverse : Obligations.SboxIsTheAffineImageOfTheInverse :=
  ⟨fun _ _ hj => byteAt_blockOf _ hj, sbox_eq_affine_gfInv, fun b _ hi => getLsbD_affine b hi,
    fun _ ha => gfMul_gfInv ha, gfInv_zero, fun a => ⟨(gfMul_two a).symm, (gfMul_three a).symm⟩⟩

/-! ## ShiftRows (40_aes_round.md R154) -/

theorem byteAt_shiftRows (b : Block) {r c : Nat} (hr : r < 4) (hc : c < 4) :
    byteAt (shiftRows b) (r + 4 * c) = byteAt b (r + 4 * ((c + r) % 4)) := by
  have hrow : (r + 4 * c) % 4 = r := by omega
  have hcol : (r + 4 * c) / 4 = c := by omega
  rw [shiftRows, byteAt_blockOf _ (by omega), hrow, hcol]

/-- Settles O31, the spec's example by running ShiftRows. -/
theorem shiftRowsRotatesEachRow : Obligations.ShiftRowsRotatesEachRow :=
  ⟨fun b _ _ hr hc => byteAt_shiftRows b hr hc, by decide +kernel⟩

/-! ## MixColumns (40_aes_round.md R155) -/

/-- Row `r` of the mixed column `c`. -/
theorem byteAt_mixColumns (b : Block) {c r : Nat} (hc : c < 4) (hr : r < 4) :
    byteAt (mixColumns b) (4 * c + r) =
      mixRow (byteAt b (4 * c)) (byteAt b (4 * c + 1)) (byteAt b (4 * c + 2)) (byteAt b (4 * c + 3)) r := by
  have hrow : (4 * c + r) % 4 = r := by omega
  have hcol : (4 * c + r) / 4 = c := by omega
  rw [mixColumns, byteAt_blockOf _ (by omega), hrow, hcol]

/-- Settles O32: each row of the mixed column with `xtime` and `mul3` as products, the spec's example by running
MixColumns. -/
theorem mixColumnsMultipliesEachColumn : Obligations.MixColumnsMultipliesEachColumn := by
  refine ⟨fun b c hc => ?_, by decide +kernel⟩
  simp only [gfMul_comm 2, gfMul_comm 3, gfMul_two, gfMul_three]
  exact ⟨byteAt_mixColumns b hc (r := 0) (by decide), byteAt_mixColumns b hc (r := 1) (by decide),
    byteAt_mixColumns b hc (r := 2) (by decide), byteAt_mixColumns b hc (r := 3) (by decide)⟩

/-! ## AESROUND (40_aes_round.md R160) -/

/-- The completion of AESROUND changes AESR_OUT and the report. -/
theorem complete_aesround {s : State} (ho : s.hid.q.op = opAesround) :
    complete .noError .noParam 0 s =
      { reported .noError s.status.lastOp false .noParam 0 s with
        aesrOut := aesRound s.hid.q.inp s.hid.q.rk } := by
  simp [complete, reported, ho, opAesround, opZeroize, opDecrypt]

/-- Settles O33: the turn of a running AESROUND is its completion. -/
theorem aesroundCompletesWithTheRound : Obligations.AesroundCompletesWithTheRound := by
  intro s hb ho
  calc exec .aesround s = .next (complete .noError .noParam 0 s) := registerCommand_busy opAesround hb
    _ = _ := by rw [complete_aesround ho]; rfl

end Sys2Proof.Machine
end

section
/-! SUPPORT. The statements on the update, the keystream and the tag: lanes 6 and 7 of Engine-256, the formulas and
the published values. -/

namespace Sys2Proof.Machine

/-! ## Lanes 6 and 7 of Engine-256 (41_update_init.md R190) -/

/-- Lanes 6 and 7 replaced, the lanes Engine-256 does not use. -/
def Lanes.withShort (x y : Block) (l : Lanes) : Lanes := { l with s6 := x, s7 := y }

/-- The hidden state with lanes 6 and 7 replaced. -/
def Hidden.withShort (x y : Block) (h : Hidden) : Hidden := { h with lanes := h.lanes.withShort x y }

@[simp] theorem withShort_q (x y : Block) (h : Hidden) : (h.withShort x y).q = h.q := rfl
@[simp] theorem withShort_phase (x y : Block) (h : Hidden) : (h.withShort x y).phase = h.phase := rfl

/-- The repetition of a function that commutes with replacing lanes 6 and 7. -/
theorem repeatLanes_withShort {f : Lanes → Lanes} {x y : Block}
    (hf : ∀ l, f (l.withShort x y) = (f l).withShort x y) (n : Nat) (l : Lanes) :
    repeatLanes f n (l.withShort x y) = (repeatLanes f n l).withShort x y := by
  induction n generalizing l with
  | zero => rfl
  | succ n ih => rw [repeatLanes, hf, ih]; rfl

/-- Update256 assigns lanes 0 to 5 from lanes 0 to 5. -/
theorem update256_withShort (m x y : Block) (l : Lanes) :
    update256 m (l.withShort x y) = (update256 m l).withShort x y := rfl

theorem init256_withShort (k n : Wide) (x y : Block) (l : Lanes) :
    init256 k n (l.withShort x y) = (init256 k n l).withShort x y :=
  repeatLanes_withShort (f := initRound256 k n)
    (fun l => by simp only [initRound256, update256_withShort]) 4 (seed256 k n l)

theorem stir256_withShort (len x y : Block) (l : Lanes) :
    stir256 len (l.withShort x y) = (stir256 len l).withShort x y :=
  repeatLanes_withShort (update256_withShort (l.s3 ^^^ len) x y) 7 l

theorem initialize256_withShort (x y : Block) (h : Hidden) :
    initialize128or256 .e256 (h.withShort x y) = (initialize128or256 .e256 h).withShort x y :=
  congrArg (fun l => { h with lanes := l }) (init256_withShort h.q.key h.q.nonce x y h.lanes)

/-- The 16- and the 32-byte tag of Engine-256 read lanes 0 to 5. -/
theorem tagOf256_withShort (tau : Nat) (x y : Block) (l : Lanes) :
    tagOf .e256 tau (l.withShort x y) = tagOf .e256 tau l := rfl

theorem enterTag256_withShort (d : Direction) (x y : Block) (h : Hidden) :
    enterTag .e256 d (h.withShort x y) = (enterTag .e256 d h).withShort x y := by
  have hstir := stir256_withShort (lengthBlock h.q.adLen.toNat (h.q.msgLen d)) x y h.lanes
  simp only [enterTag, finalize, stir, Hidden.withShort, Hidden.atPhase, hstir, tagOf256_withShort]

theorem enterMsg256_withShort (d : Direction) (i : Nat) (x y : Block) (h : Hidden) :
    enterMsg .e256 d i (h.withShort x y) = (enterMsg .e256 d i h).withShort x y := by
  rw [enterMsg, enterMsg, withShort_q]
  split
  · rfl
  · exact enterTag256_withShort d x y h

theorem enterAd256_withShort (d : Direction) (i : Nat) (x y : Block) (h : Hidden) :
    enterAd .e256 d i (h.withShort x y) = (enterAd .e256 d i h).withShort x y := by
  rw [enterAd, enterAd, withShort_q]
  split
  · rfl
  · exact enterMsg256_withShort d 0 x y h

theorem absorbChunk256_withShort (n : Nat) (x y : Block) (h : Hidden) :
    absorbChunk .e256 n (h.withShort x y) = (absorbChunk .e256 n h).withShort x y := by
  unfold absorbChunk
  split <;> rfl

theorem cryptBlock256_withShort (d : Direction) (n : Nat) (x y : Block) (h : Hidden) :
    cryptBlock .e256 d n (h.withShort x y) = (cryptBlock .e256 d n h).withShort x y := by
  cases d <;> simp only [cryptBlock] <;> split <;> rfl

/-- The comparison and the wipe read the tags and the snapshot only. -/
theorem verifyTag_withShort (d : Direction) (x y : Block) (h : Hidden) :
    verifyTag d (h.withShort x y) = (verifyTag d h).withShort x y := by
  unfold verifyTag Hidden.withShort
  dsimp only
  split
  · rfl
  · split <;> rfl

/-- The computation of every step of an Engine-256 command commutes with replacing lanes 6 and 7. -/
theorem settle256_withShort (d : Direction) (x y : Block) (h : Hidden) :
    settle .e256 d (h.withShort x y) = (settle .e256 d h).withShort x y := by
  cases hp : h.phase <;> simp only [settle, withShort_phase, hp]
  case start => rw [initialize256_withShort, enterAd256_withShort]
  case adChunk n => rw [absorbChunk256_withShort, enterAd256_withShort]
  case msgBlock n => rw [cryptBlock256_withShort]; rfl
  case msgNext n => exact enterMsg256_withShort d n x y { h with buf := 0 }
  case verify => exact verifyTag_withShort d x y h

/-- A command of VAR 1 that runs in a state that meets the invariant has lanes 6 and 7 zero. -/
theorem State.Inv.engine256_shortZero {s : State} (hi : s.Inv) (hb : s.status.busy = true)
    (hbuf : s.hid.q.hasBuffers = true) (hv : s.hid.q.var = 1) : s.hid.lanes.shortZero := by
  obtain ⟨e, d, hrun⟩ | hrun := hi.run hb
  · have he : e = .e256 := by
      have hvar := hrun.var.symm.trans hv
      cases e
      · exact absurd hvar (by decide)
      · rfl
    exact hrun.lanes he
  · rw [hrun.hasBuffers] at hbuf
    exact absurd hbuf (by decide)

/-- Settles O35: every step's computation commutes with replacing lanes 6 and 7, and the invariant keeps them zero. -/
theorem engine256LeavesLanesSixAndSeven : Obligations.Engine256LeavesLanesSixAndSeven :=
  ⟨fun d h x y => settle256_withShort d x y h, fun _ hi hb hbuf hv => hi.engine256_shortZero hb hbuf hv⟩

/-! ## The formulas and the published values (95_test_vectors.md L2.2, L2.3, L2.5, L2.9) -/

theorem c0_c1_fibonacci :
    toBytes 16 c0 ++ toBytes 16 c1 = (List.range 32).map fun i => BitVec.ofNat 8 (Nat.fib i) := by
  decide +kernel

/-- 95_test_vectors.md L2.3 for Engine-128: computed once, every vector of the engine starts from these lanes. -/
theorem init128_vector :
    init128 (half0 (ofBytes 256 [0x10, 0x01])) (half0 (ofBytes 256 [0x10, 0x00, 0x02])) =
      { s0 := 0xc119df33a897eb28a69eebde292a6ca3, s1 := 0xa6d296e2931141b8f43d8036517d28cd
        s2 := 0xe5ae9e84c43e5c52a200e5df9f03dbe5, s3 := 0x20e85219ba72f111683e38dcb19c734d
        s4 := 0xd293d9cff90dc7b476a8d210c241af63, s5 := 0x238ff48e554c3dd54f56202e1f4f5565
        s6 := 0xc82347de582cb143bb3db3334b98bb49, s7 := 0xc5dfd7bbc908e2cf581c1bef422afad4 } := by
  decide +kernel

/-- 95_test_vectors.md L2.3 for Engine-256: computed once, every vector of the engine starts from these lanes. -/
theorem init256_vector :
    init256 (ofBytes 256 [0x10, 0x01]) (ofBytes 256 [0x10, 0x00, 0x02]) .zero =
      { s0 := 0xe9b67486e88eae92753a64d24936d2fa, s1 := 0x14a683fecc7e2d969e3491f691e0dfcf
        s2 := 0x4a8ab3e6ff0ec5d0832f269b09b51b5a, s3 := 0x6f4226c8c3cc4dfd685158da17bd195b
        s4 := 0x0a848e3133b688115584df95ae43fa60, s5 := 0x62928b1d28b08d9ba6953d30e6d57380
        s6 := 0, s7 := 0 } := by
  decide +kernel

/-- Settles O39: the formulas are the definitions; every published value is computed, those after initialization from
the lanes it leaves. -/
theorem constantsAndVectorsReproduce : Obligations.ConstantsAndVectorsReproduce := by
  unfold Obligations.ConstantsAndVectorsReproduce
  simp only [encryptBytes, lanesAfterAd, initLanes, init128_vector, init256_vector]
  refine ⟨c0_c1_fibonacci, fun _ _ => ⟨rfl, rfl⟩, fun _ _ => ⟨rfl, rfl⟩, fun _ => ⟨rfl, rfl⟩,
    fun _ _ => ⟨rfl, rfl⟩, fun _ => ⟨rfl, rfl, rfl, rfl⟩, ?update128, ?update256, rfl, rfl,
    ?keystream128, ?keystream256, ?E1, ?E6, ?E7b, ?E10, ?E17, ?E21, ?E27⟩
  all_goals decide +kernel

end Sys2Proof.Machine
end

section
/-! SUPPORT. Blocks: the padded bytes of a block, encryption and decryption of a block as inverses, and the round trip
of whole messages (43_encrypt.md R232, R233, R240, 44_decrypt.md R262, R263, R270). -/

namespace Sys2Proof.Machine

/-! ## The bytes of a block -/

theorem wide_ext {x y : Wide} (h : ∀ j, j < 32 → byteAt x j = byteAt y j) : x = y :=
  eq_of_byteAt_eq (k := 32) h

theorem getElem_toBytes {n k j : Nat} (x : BitVec n) (hj : j < (toBytes k x).length) :
    (toBytes k x)[j] = byteAt x j := by
  simp [toBytes]

theorem byteAt_padBlock (l : List Byte) {j : Nat} (hj : j < 32) : byteAt (padBlock l) j = l.getD j 0 :=
  byteAt_ofBytes l (by omega)

/-- The padded bytes of a string are its first bytes, zero above (00_scope.md R12). -/
theorem padBlock_toBytes (x : Wide) (r : Nat) : padBlock (toBytes r x) = truncBytes x r := by
  refine wide_ext fun j hj => ?_
  rw [byteAt_padBlock _ hj, byteAt_truncBytes x r hj]
  by_cases hr : j < r <;> simp [toBytes, hr]

/-- A string that is zero from byte `r` on is its own truncation. -/
theorem truncBytes_eq_self {x : Wide} {r : Nat} (h : ∀ j, r ≤ j → j < 32 → byteAt x j = 0) :
    truncBytes x r = x := by
  refine wide_ext fun j hj => ?_
  rw [byteAt_truncBytes x r hj]
  split_ifs with hr
  · rfl
  · exact (h j (not_lt.mp hr) hj).symm

/-- The bytes of a padded string are the string's. -/
theorem toBytes_padBlock {l : List Byte} (hl : l.length ≤ 32) : toBytes l.length (padBlock l) = l := by
  refine List.ext_getElem (length_toBytes _ _) fun j h1 h2 => ?_
  rw [getElem_toBytes, byteAt_padBlock _ (by omega), List.getD_eq_getElem _ _ h2]

theorem toBytes_truncBytes (x : Wide) {r : Nat} (hr : r ≤ 32) : toBytes r (truncBytes x r) = toBytes r x := by
  refine List.map_congr_left fun j hj => ?_
  have hjr := List.mem_range.mp hj
  rw [byteAt_truncBytes x r (by omega), if_pos hjr]

/-- XOR with a keystream word twice gives the truncated string back, whatever is cut off in between. -/
theorem truncBytes_xor_cancel (x z : Wide) (r : Nat) :
    truncBytes (truncBytes (x ^^^ z) r ^^^ z) r = truncBytes x r := by
  refine wide_ext fun j hj => ?_
  rw [byteAt_truncBytes _ r hj, byteAt_truncBytes _ r hj, byteAt_xor, byteAt_truncBytes _ r hj]
  split_ifs
  · rw [byteAt_xor, BitVec.xor_assoc, BitVec.xor_self, BitVec.xor_zero]
  · rfl

/-! ## A block and its decryption (43_encrypt.md R232, R233, 44_decrypt.md R262, R263) -/

/-- DecBlock of EncBlock's ciphertext from one state. -/
theorem decBlock_encBlock (e : Engine) (x : Wide) (h : Hidden) :
    decBlock e (encBlock e x h).1 h = (x, (encBlock e x h).2) := by
  simp only [encBlock, decBlock, BitVec.xor_assoc, BitVec.xor_self, BitVec.xor_zero]

/-- The plaintext DecPartial recovers from EncPartial's ciphertext. -/
theorem decPartial_encPartial_buf (e : Engine) {r : Nat} {h : Hidden}
    (hz : ∀ j, r ≤ j → j < 32 → byteAt h.buf j = 0) :
    (decPartial e r { h with buf := (encPartial e r h).buf }).buf = h.buf :=
  (truncBytes_xor_cancel h.buf (keystream e h.lanes) r).trans (truncBytes_eq_self hz)

/-- DecPartial injects the plaintext it recovers. -/
theorem decPartial_lanes (e : Engine) (r : Nat) (h : Hidden) :
    (decPartial e r h).lanes = update e (decPartial e r h).buf h.lanes := rfl

/-- EncPartial injects the plaintext it is given. -/
theorem encPartial_lanes (e : Engine) (r : Nat) (h : Hidden) :
    (encPartial e r h).lanes = update e h.buf h.lanes := rfl

theorem byteAt_encPartial_buf (e : Engine) (r : Nat) (h : Hidden) {j : Nat} (hj : j < 32) :
    byteAt (encPartial e r h).buf j = if j < r then byteAt h.buf j ^^^ byteAt (keystream e h.lanes) j else 0 := by
  rw [← byteAt_xor]
  exact byteAt_truncBytes _ r hj

theorem rate_le (e : Engine) : e.rate ≤ 32 := by cases e <;> decide

/-- Settles O36: the keystream cancels, so both directions inject the same plaintext. -/
theorem blocksKeepBothSidesInStep : Obligations.BlocksKeepBothSidesInStep := by
  refine ⟨decBlock_encBlock, fun e r h hr hz => ?_⟩
  have hrate := rate_le e
  have hbuf := decPartial_encPartial_buf e hz
  refine ⟨?_, hbuf, fun j hj => ?_, fun j hj h32 => ?_⟩
  · rw [decPartial_lanes, hbuf, encPartial_lanes]
  · rw [byteAt_encPartial_buf e r h (by omega), if_pos hj]
  · rw [byteAt_encPartial_buf e r h h32, if_neg (by omega)]

/-- Decrypting the ciphertext of a block of the algorithm gives the block and the same lanes. -/
theorem decryptBlock_encryptBlock (e : Engine) {x : List Byte} (hx : x.length ≤ 32) (l : Lanes) :
    decryptBlock e (encryptBlock e x l).1 l = (x, (encryptBlock e x l).2) := by
  have hplain : toBytes x.length (padBlock (encryptBlock e x l).1 ^^^ keystream e l) = x := by
    rw [encryptBlock, padBlock_toBytes, ← toBytes_truncBytes _ hx, truncBytes_xor_cancel, toBytes_truncBytes _ hx,
      toBytes_padBlock hx]
  have hlen : (encryptBlock e x l).1.length = x.length := length_toBytes _ _
  simp only [decryptBlock, hlen, hplain]
  rfl

/-! ## The blocks of a byte string -/

theorem rate_pos (e : Engine) : 0 < e.rate := by cases e <;> decide

/-- The number of bytes in block `b` of `len` bytes; the last one may be shorter. -/
def chunkLen (e : Engine) (len b : Nat) : Nat := min e.rate (len - b * e.rate)

theorem length_blockBytes (e : Engine) (bytes : List Byte) (b : Nat) :
    (blockBytes e bytes b).length = chunkLen e bytes.length b := by
  simp [blockBytes, chunkLen]

theorem length_blockBytes_le (e : Engine) (bytes : List Byte) (b : Nat) : (blockBytes e bytes b).length ≤ 32 := by
  have := rate_le e
  rw [length_blockBytes, chunkLen]
  omega

theorem lt_blockCount_iff {e : Engine} {len b : Nat} : b < blockCount e len ↔ b * e.rate < len := by
  unfold blockCount
  cases e <;> simp only [Engine.rate] <;> omega

theorem le_blockCount_mul (e : Engine) (len : Nat) : len ≤ blockCount e len * e.rate :=
  not_lt.mp fun h => lt_irrefl _ (lt_blockCount_iff.mpr h)

/-- The bytes before block `b` and those of the block are the bytes before the next block. -/
theorem take_append_blockBytes (e : Engine) (bytes : List Byte) (b : Nat) :
    bytes.take (b * e.rate) ++ blockBytes e bytes b = bytes.take ((b + 1) * e.rate) := by
  rw [blockBytes, Nat.succ_mul, List.take_add]

/-- A block that ends inside the first part of a string. -/
theorem blockBytes_append_left {e : Engine} {xs : List Byte} {b : Nat} (ys : List Byte)
    (h : (b + 1) * e.rate ≤ xs.length) : blockBytes e (xs ++ ys) b = blockBytes e xs b := by
  rw [Nat.succ_mul] at h
  rw [blockBytes, blockBytes, List.drop_append_of_le_length (by omega),
    List.take_append_of_le_length (by rw [List.length_drop]; omega)]

/-- The last block of a string. -/
theorem blockBytes_append_right {e : Engine} {xs ys : List Byte} {b : Nat} (h : xs.length = b * e.rate)
    (hy : ys.length ≤ e.rate) : blockBytes e (xs ++ ys) b = ys := by
  rw [blockBytes, ← h, List.drop_left, List.take_of_length_le hy]

/-! ## The first blocks of a message -/

/-- What a block operation has made of the first `k` blocks of a byte string: `overBlocks` after `k` rounds. -/
def firstBlocks (e : Engine) (f : List Byte → Lanes → List Byte × Lanes) (bytes : List Byte) (l : Lanes)
    (k : Nat) : List Byte × Lanes :=
  (List.range k).foldl
    (fun acc i => (acc.1 ++ (f (blockBytes e bytes i) acc.2).1, (f (blockBytes e bytes i) acc.2).2)) ([], l)

section
variable {e : Engine} {f : List Byte → Lanes → List Byte × Lanes} {bytes : List Byte} {l : Lanes}

theorem overBlocks_eq : overBlocks e f bytes l = firstBlocks e f bytes l (blockCount e bytes.length) := rfl

theorem firstBlocks_zero : firstBlocks e f bytes l 0 = ([], l) := rfl

theorem firstBlocks_succ (k : Nat) :
    firstBlocks e f bytes l (k + 1) =
      ((firstBlocks e f bytes l k).1 ++ (f (blockBytes e bytes k) (firstBlocks e f bytes l k).2).1,
        (f (blockBytes e bytes k) (firstBlocks e f bytes l k).2).2) := by
  rw [firstBlocks, List.range_succ, List.foldl_append]
  rfl

variable (hf : ∀ x l, (f x l).1.length = x.length)
include hf

theorem length_firstBlocks (k : Nat) :
    (firstBlocks e f bytes l k).1.length = min (k * e.rate) bytes.length := by
  induction k with
  | zero => simp [firstBlocks_zero]
  | succ k ih =>
    rw [firstBlocks_succ, List.length_append, hf, ih, length_blockBytes, chunkLen, Nat.succ_mul]
    omega

theorem length_overBlocks : (overBlocks e f bytes l).1.length = bytes.length := by
  rw [overBlocks_eq, length_firstBlocks hf, min_eq_right (le_blockCount_mul e _)]

/-- Block `b` of the output is what the operation made of block `b`. -/
theorem blockBytes_firstBlocks {b k : Nat} (hbk : b < k) (hk : k ≤ blockCount e bytes.length) :
    blockBytes e (firstBlocks e f bytes l k).1 b =
      (f (blockBytes e bytes b) (firstBlocks e f bytes l b).2).1 := by
  induction k with
  | zero => omega
  | succ k ih =>
    have hlt : k * e.rate < bytes.length := lt_blockCount_iff.mp hk
    have hlen : (firstBlocks e f bytes l k).1.length = k * e.rate := by
      rw [length_firstBlocks hf, min_eq_left hlt.le]
    rw [firstBlocks_succ]
    obtain rfl | hlast := eq_or_ne b k
    · refine blockBytes_append_right hlen ?_
      rw [hf, length_blockBytes]
      exact min_le_left _ _
    · rw [blockBytes_append_left _ (by rw [hlen]; exact Nat.mul_le_mul_right _ (by omega)), ih (by omega) (by omega)]

end

theorem length_encryptBlock (e : Engine) (x : List Byte) (l : Lanes) : (encryptBlock e x l).1.length = x.length :=
  length_toBytes _ _

theorem length_decryptBlock (e : Engine) (c : List Byte) (l : Lanes) : (decryptBlock e c l).1.length = c.length :=
  length_toBytes _ _

/-! ## The round trip (95_test_vectors.md L1.2) -/

/-- Decryption of the ciphertext recovers the message block by block, in step with the encryption's lanes. -/
theorem firstBlocks_decrypt_encrypt (e : Engine) (msg : List Byte) (l : Lanes) {k : Nat}
    (hk : k ≤ blockCount e msg.length) :
    firstBlocks e (decryptBlock e) (overBlocks e (encryptBlock e) msg l).1 l k =
      (msg.take (k * e.rate), (firstBlocks e (encryptBlock e) msg l k).2) := by
  induction k with
  | zero => simp [firstBlocks_zero]
  | succ k ih =>
    have hblock : blockBytes e (overBlocks e (encryptBlock e) msg l).1 k =
        (encryptBlock e (blockBytes e msg k) (firstBlocks e (encryptBlock e) msg l k).2).1 :=
      blockBytes_firstBlocks (length_encryptBlock e) hk le_rfl
    rw [firstBlocks_succ, ih (by omega), hblock, decryptBlock_encryptBlock e (length_blockBytes_le e msg k),
      take_append_blockBytes, firstBlocks_succ]

theorem overBlocks_decrypt_encrypt (e : Engine) (msg : List Byte) (l : Lanes) :
    overBlocks e (decryptBlock e) (overBlocks e (encryptBlock e) msg l).1 l =
      (msg, (overBlocks e (encryptBlock e) msg l).2) := by
  rw [overBlocks_eq (f := decryptBlock e), length_overBlocks (length_encryptBlock e),
    firstBlocks_decrypt_encrypt e msg l le_rfl, List.take_of_length_le (le_blockCount_mul e _)]
  rfl

theorem length_encryptBytes (e : Engine) (key nonce : Wide) (tau : Nat) (ad msg : List Byte) :
    (encryptBytes e key nonce tau ad msg).length = msg.length + tau := by
  rw [encryptBytes, List.length_append, length_overBlocks (length_encryptBlock e), tagBytes, length_toBytes]

/-- Settles O40: decryption splits its input into ciphertext and tag, and ends in the lanes of the encryption. -/
theorem decryptionRecoversEveryMessage : Obligations.DecryptionRecoversEveryMessage := by
  intro e key nonce tau ad msg _
  have hlen := length_overBlocks (e := e) (bytes := msg) (l := lanesAfterAd e key nonce ad) (length_encryptBlock e)
  have hmsgLen : (encryptBytes e key nonce tau ad msg).length - tau = msg.length := by
    rw [length_encryptBytes, Nat.add_sub_cancel]
  rw [decryptBytes, hmsgLen, encryptBytes, List.take_left' hlen, List.drop_left' hlen, overBlocks_decrypt_encrypt,
    decide_eq_true rfl]

end Sys2Proof.Machine
end

section
/-! SUPPORT. System memory and the working block byte by byte: bytes stored or read in a row, and a block filled one
byte at a time. -/

namespace Sys2Proof.Machine

namespace Memory

theorem length_readBytes (m : Memory) (a n : Nat) : (readBytes m a n).length = n := by simp [readBytes]

theorem readBytes_succ (m : Memory) (a n : Nat) : readBytes m a (n + 1) = readBytes m a n ++ [read m (a + n)] := by
  simp [readBytes, List.range_succ]

theorem readBytes_congr {m m' : Memory} {a n : Nat} (h : ∀ j, j < n → read m (a + j) = read m' (a + j)) :
    readBytes m a n = readBytes m' a n :=
  List.map_congr_left fun j hj => h j (List.mem_range.mp hj)

theorem writeBytes_append (xs ys : List Byte) (a : Nat) (m : Memory) :
    writeBytes a (xs ++ ys) m = writeBytes (a + xs.length) ys (writeBytes a xs m) := by
  induction xs generalizing a m with
  | nil => rfl
  | cons x xs ih =>
    rw [List.cons_append, writeBytes, ih, writeBytes, List.length_cons, Nat.add_assoc, Nat.add_comm 1]

theorem writeBytes_snoc (xs : List Byte) (b : Byte) (a : Nat) (m : Memory) :
    writeBytes a (xs ++ [b]) m = write (writeBytes a xs m) (a + xs.length) b :=
  writeBytes_append xs [b] a m

/-- Storing bytes leaves every byte at another address. -/
theorem read_writeBytes_of_ne {bytes : List Byte} {a c : Nat} {m : Memory}
    (h : ∀ j, j < bytes.length → c ≠ a + j) : read (writeBytes a bytes m) c = read m c := by
  induction bytes using List.reverseRecOn with
  | nil => rfl
  | append_singleton xs b ih =>
    rw [List.length_append, List.length_singleton] at h
    rw [writeBytes_snoc, read_write_of_ne _ (h _ (Nat.lt_succ_self _)), ih fun j hj => h j (by omega)]

/-- The bytes stored are the bytes read back. -/
theorem readBytes_writeBytes (bytes : List Byte) (a : Nat) {m : Memory} (hwf : wf m = true) :
    readBytes (writeBytes a bytes m) a bytes.length = bytes := by
  induction bytes using List.reverseRecOn with
  | nil => rfl
  | append_singleton xs b ih =>
    have hrest : readBytes (write (writeBytes a xs m) (a + xs.length) b) a xs.length = xs :=
      (readBytes_congr fun j hj => read_write_of_ne _ (by omega) b).trans ih
    rw [List.length_append, List.length_singleton, writeBytes_snoc, readBytes_succ, hrest,
      read_write_same (lo := 0) (wf_writeBytes xs a hwf)]

end Memory

/-- A block of a byte string in memory. -/
theorem blockBytes_readBytes (e : Engine) (m : Memory) (a n b : Nat) :
    blockBytes e (Memory.readBytes m a n) b = Memory.readBytes m (a + b * e.rate) (chunkLen e n b) := by
  refine List.ext_getElem ?_ fun j h1 h2 => ?_
  · rw [length_blockBytes, Memory.length_readBytes, Memory.length_readBytes]
  · simp [blockBytes, Memory.readBytes, Nat.add_assoc]

/-- The byte behind the bytes of a padded block. -/
theorem setByte_padBlock {xs : List Byte} (b : Byte) (h : xs.length < 32) :
    setByte (padBlock xs) xs.length b = padBlock (xs ++ [b]) := by
  refine wide_ext fun j hj => ?_
  rw [byteAt_padBlock _ hj]
  obtain rfl | hne := eq_or_ne j xs.length
  · rw [byteAt_setByte_same _ (by omega)]
    simp
  · rw [byteAt_setByte_of_ne _ (by omega) hne, byteAt_padBlock _ hj]
    obtain hlt | hgt := Nat.lt_or_gt_of_ne hne
    · rw [List.getD_append _ _ _ _ hlt]
    · rw [List.getD_eq_default _ _ (by omega), List.getD_eq_default _ _ (by simp; omega)]

theorem toBytes_succ {n : Nat} (k : Nat) (x : BitVec n) : toBytes (k + 1) x = toBytes k x ++ [byteAt x k] := by
  simp [toBytes, List.range_succ]

end Sys2Proof.Machine
end

section
/-! SUPPORT. A run on served buffers as a computation on memory and hidden state alone (46_commands.md R322). -/

namespace Sys2Proof.Machine

/-! ## Runs by their number of steps -/

/-- `n` steps of the run, none of them cut short, lead from `s` to `t`. -/
def Takes (e : Engine) (d : Direction) (n : Nat) (s t : State) : Prop := ∃ l, Accesses e d s l t ∧ l.length = n

section
variable {e : Engine} {d : Direction} {s t u : State} {n k : Nat}

theorem Takes.zero (s : State) : Takes e d 0 s s := ⟨[], .nil s, rfl⟩

theorem Takes.trans (h : Takes e d n s t) (h' : Takes e d k t u) : Takes e d (n + k) s u := by
  obtain ⟨l, hl, rfl⟩ := h
  obtain ⟨l', hl', rfl⟩ := h'
  exact ⟨l ++ l', hl.append hl', List.length_append⟩

theorem Takes.one (hb : s.status.busy = true) (hs : streamStep e d s = .next t) : Takes e d 1 s t :=
  ⟨[_], .cons hb hs (.nil t), rfl⟩

theorem Takes.execRun (h : Takes e d n s t) (tau : Nat) : execRun (streamInstr e d tau) n s = .next t := by
  obtain ⟨l, hl, rfl⟩ := h
  exact hl.execRun tau

/-- A loop whose round `i` takes `c i` steps from `P i` to `P (i + 1)`. -/
theorem takes_loop {P : Nat → State → Prop} {c : Nat → Nat}
    (hround : ∀ i s, i < n → P i s → ∃ t, Takes e d (c i) s t ∧ P (i + 1) t) (h0 : P 0 s) :
    ∃ t, Takes e d (∑ i ∈ Finset.range n, c i) s t ∧ P n t := by
  induction n with
  | zero => exact ⟨s, .zero s, h0⟩
  | succ n ih =>
    obtain ⟨t, hst, ht⟩ := ih fun i s hi => hround i s (by omega)
    obtain ⟨u, htu, hu⟩ := hround n t n.lt_succ_self ht
    exact ⟨u, by rw [Finset.sum_range_succ]; exact hst.trans htu, hu⟩

end

/-- The blocks of a byte string have its bytes. -/
theorem sum_chunkLen (e : Engine) (len : Nat) :
    ∑ b ∈ Finset.range (blockCount e len), chunkLen e len b = len := by
  have hsum (k : Nat) : ∑ b ∈ Finset.range k, chunkLen e len b = min (k * e.rate) len := by
    induction k with
    | zero => simp
    | succ k ih =>
      rw [Finset.sum_range_succ, ih, chunkLen, Nat.succ_mul]
      omega
  rw [hsum, min_eq_right (le_blockCount_mul e len)]

/-! ## The computation due, settled once -/

theorem settle_eq_self {e : Engine} {d : Direction} {h : Hidden} (hp : h.phase.settled = true) :
    settle e d h = h := by
  unfold settle
  cases hh : h.phase
  case start | adChunk | msgBlock | msgNext | verify => rw [hh] at hp; cases hp
  all_goals rfl

theorem settle_settle (e : Engine) (d : Direction) (h : Hidden) : settle e d (settle e d h) = settle e d h := by
  by_cases hp : h.phase = .idle
  · have hself : settle e d h = h := by unfold settle; rw [hp]
    rw [hself, hself]
  · exact settle_eq_self (settle_settled hp)

/-! ## A served step -/

/-- The command with snapshot `q` runs on served buffers, with memory `m` and, once the computation due is done, the
hidden state of `h`. -/
structure RunsAs (e : Engine) (d : Direction) (q : Snapshot) (m : Memory) (h : Hidden) (s : State) : Prop
    extends Serving q s where
  lastOp : s.status.lastOp = d.op
  mem : s.mem = m
  computed : settle e d s.hid = settle e d h

/-- What a served step makes of memory and hidden state. -/
def turn (e : Engine) (d : Direction) (m : Memory) (h : Hidden) : Memory × Hidden :=
  match nextAccess e d h with
  | .read a => (m, afterRead e d (Memory.read m a) h)
  | .write a v => (Memory.write m a v, afterWrite e d h)
  | .finish _ => (m, h)
  | .nothing => (m, h)

section
variable {e : Engine} {d : Direction} {q : Snapshot} {m : Memory} {h h' : Hidden} {s : State}

theorem RunsAs.congr (hs : RunsAs e d q m h s) (hh : settle e d h = settle e d h') : RunsAs e d q m h' s :=
  ⟨hs.toServing, hs.lastOp, hs.mem, hs.computed.trans hh⟩

/-- A run may be described with the computation due already done. -/
theorem RunsAs.settle (hs : RunsAs e d q m h s) : RunsAs e d q m (settle e d h) s :=
  hs.congr (settle_settle e d h).symm

theorem RunsAs.snapshot_eq (hs : RunsAs e d q m h s) : h.q = q := by
  rw [← settle_q e d h, ← hs.computed, settle_q, hs.snapshot]

/-- A run that stands at an access inside the lengths of its command makes it. -/
theorem RunsAs.turn (hs : RunsAs e d q m h s) (hfit : RangesFit d q) (hi : h.phase.inside d q) :
    ∃ t, Takes e d 1 s t ∧ RunsAs e d q (turn e d m h).1 (turn e d m h).2 t := by
  have hq := hs.snapshot_eq
  obtain ⟨⟨hb, hsq, hserved⟩, hop, rfl, hcomp⟩ := hs
  rw [settle_eq_self (settled_of_inside hi)] at hcomp
  have hup : upcoming e d s = nextAccess e d h := by rw [upcoming, hcomp]
  have hok : phaseOk e d h := phaseOk_of_inside (hq.symm ▸ hi)
  unfold Machine.turn
  cases hacc : nextAccess e d h with
  | read a =>
    have hin : q.inAd a = true ∨ q.inInput a = true := hq ▸ nextAccess_read_inRange (hq.symm ▸ hfit) hok hacc
    obtain ⟨hmem, hdev, hvis⟩ := hserved.reads a hin
    refine ⟨_, .one hb ((streamStep_read (hup.trans hacc)).trans (dmaRead_served _
      (hfit.lt_addrSpace (hin.imp_right .inl)) hmem hdev (by simpa using hvis))), ⟨hb, by simp [hsq], ?_⟩,
      hop, rfl, by simp [hcomp]⟩
    exact hserved.congr rfl fun b => by simp [State.unseen]
  | write a v =>
    have hin : q.inOutput a = true := hq ▸ nextAccess_write_inRange (hq.symm ▸ hfit) hok hacc
    obtain ⟨hmem, hdev⟩ := hserved.writes a hin
    refine ⟨_, .one hb ((streamStep_write (hup.trans hacc)).trans (dmaWrite_served v _
      (hfit.lt_addrSpace (.inr (.inr hin))) hmem hdev)), ⟨hb, by simp [hsq], ?_⟩, hop, rfl, by simp [hcomp]⟩
    exact hserved.congr rfl fun b => by simp [State.unseen]
  | finish c => exact absurd hi (by rw [nextAccess_finish hacc]; exact id)
  | nothing => exact absurd hacc (nextAccess_ne_nothing (settled_of_inside hi))

/-- A loop of single accesses: memory and hidden state run through the sequences `M` and `g`. -/
theorem RunsAs.loop {M : Nat → Memory} {g : Nat → Hidden} {n : Nat} (hs : RunsAs e d q (M 0) (g 0) s)
    (hfit : RangesFit d q)
    (hround : ∀ i, i < n → (g i).phase.inside d q ∧ Machine.turn e d (M i) (g i) = (M (i + 1), g (i + 1))) :
    ∃ t, Takes e d n s t ∧ RunsAs e d q (M n) (g n) t := by
  have hloop := takes_loop (n := n) (c := fun _ => 1) (P := fun i => RunsAs e d q (M i) (g i))
    (fun i s hi hs => by
      obtain ⟨hin, hturn⟩ := hround i hi
      simpa only [hturn] using hs.turn hfit hin) hs
  simpa using hloop

end

end Sys2Proof.Machine
end

section
/-! SUPPORT. The loops of a run, each on memory and hidden state: a block read, a block or the tag written
(20_memory.md R102). -/

namespace Sys2Proof.Machine

/-! ## Places in a block -/

/-- A byte of a block is a byte of the string. -/
theorem lt_of_lt_chunkLen {e : Engine} {len b i : Nat} (hi : i < chunkLen e len b) : b * e.rate + i < len := by
  unfold chunkLen at hi
  omega

theorem chunkLen_pos {e : Engine} {len b : Nat} (hb : b * e.rate < len) : 0 < chunkLen e len b := by
  have := rate_pos e
  unfold chunkLen
  omega

theorem chunkLen_le (e : Engine) (len b : Nat) : chunkLen e len b ≤ e.rate := min_le_left _ _

/-- Byte `i` of block `b` ends it exactly if it is its last. -/
theorem endsBlock_chunk_iff {e : Engine} {len b i : Nat} (hi : i < chunkLen e len b) :
    endsBlock e (b * e.rate + i) len = true ↔ i + 1 = chunkLen e len b := by
  unfold chunkLen at hi ⊢
  rw [endsBlock, decide_eq_true_iff]
  cases e <;> simp only [Engine.rate] at hi ⊢ <;> omega

/-- A place in block `b`, or the place at its end, is followed by the next one. -/
theorem ite_endsBlock {e : Engine} {len b i : Nat} (place : Nat → Phase) (atEnd : Nat → Phase)
    (hi : i < chunkLen e len b) :
    (if endsBlock e (b * e.rate + i) len then atEnd (b * e.rate + i + 1) else place (b * e.rate + i + 1)) =
      if i + 1 < chunkLen e len b then place (b * e.rate + (i + 1)) else atEnd (b * e.rate + (i + 1)) := by
  rw [if_congr (endsBlock_chunk_iff hi) rfl rfl]
  split_ifs
  · omega
  · rfl
  · rfl
  · omega

theorem mul_add_mod_rate {e : Engine} {len b i : Nat} (hi : i < chunkLen e len b) :
    (b * e.rate + i) % e.rate = i := by
  rw [Nat.mul_add_mod_self_right, Nat.mod_eq_of_lt (hi.trans_le (chunkLen_le e len b))]

/-- The end of block `b` is the beginning of the next one, or the end of the string. -/
theorem chunk_end {e : Engine} {len b : Nat} (hb : b * e.rate < len) :
    b * e.rate + chunkLen e len b = min ((b + 1) * e.rate) len := by
  rw [chunkLen, Nat.succ_mul]
  omega

theorem blockStart_chunk_end {e : Engine} {len b : Nat} (hb : b * e.rate < len) :
    blockStart e (b * e.rate + chunkLen e len b) = b * e.rate := by
  have hpos := chunkLen_pos hb
  have hle := chunkLen_le e len b
  rw [blockStart, Nat.add_sub_assoc hpos, Nat.add_comm, Nat.add_mul_div_right _ _ (rate_pos e),
    Nat.div_eq_of_lt (by omega), Nat.zero_add]

/-! ## A block read -/

/-- The two byte strings a command reads block by block: its associated data and its message. -/
inductive Source where
  | ad
  | msg

/-- The place before byte `i`. -/
def Source.reading : Source → Nat → Phase
  | .ad, i => .adRead i
  | .msg, i => .msgRead i

/-- The place once the block that ends before byte `n` is read. -/
def Source.full : Source → Nat → Phase
  | .ad, n => .adChunk n
  | .msg, n => .msgBlock n

/-- The address of its first byte. -/
def Source.base (q : Snapshot) : Source → Nat
  | .ad => q.ad.toNat
  | .msg => q.src.toNat

/-- Its length in bytes. -/
def Source.len (d : Direction) (q : Snapshot) : Source → Nat
  | .ad => q.adLen.toNat
  | .msg => q.msgLen d

/-- Its bytes in memory. -/
def Source.bytes (d : Direction) (q : Snapshot) (m : Memory) (src : Source) : List Byte :=
  Memory.readBytes m (src.base q) (src.len d q)

theorem Source.length_bytes (d : Direction) (q : Snapshot) (m : Memory) (src : Source) :
    (src.bytes d q m).length = src.len d q :=
  Memory.length_readBytes _ _ _

/-- The hidden state `h` with an empty working block. -/
def Hidden.cleared (h : Hidden) : Hidden := { h with buf := 0 }

@[simp] theorem cleared_q (h : Hidden) : h.cleared.q = h.q := rfl

/-- The hidden state `h` after `i` bytes of block `b` have been read into the empty working block. -/
def Hidden.afterReads (e : Engine) (d : Direction) (q : Snapshot) (src : Source) (m : Memory) (b i : Nat) (h : Hidden) :
    Hidden :=
  { h with
    buf := padBlock (Memory.readBytes m (src.base q + b * e.rate) i)
    phase := if i < chunkLen e (src.len d q) b then src.reading (b * e.rate + i) else src.full (b * e.rate + i) }

/-- The hidden state `h` with a whole block in the working block, the one that ends before byte `n`. -/
def Hidden.holding (src : Source) (x : List Byte) (n : Nat) (h : Hidden) : Hidden :=
  { h with buf := padBlock x, phase := src.full n }

@[simp] theorem holding_buf (src : Source) (x : List Byte) (n : Nat) (h : Hidden) :
    (h.holding src x n).buf = padBlock x := rfl
@[simp] theorem holding_lanes (src : Source) (x : List Byte) (n : Nat) (h : Hidden) :
    (h.holding src x n).lanes = h.lanes := rfl

section
variable {e : Engine} {d : Direction} {q : Snapshot} {m : Memory} {h : Hidden} {s : State} {src : Source} {n b i : Nat}

theorem Source.inside_reading (hn : n < src.len d q) : (src.reading n).inside d q := by
  cases src <;> exact hn

theorem turn_reading (hp : h.phase = src.reading n) :
    turn e d m h = (m, { h with
      buf := setByte h.buf (n % e.rate) (Memory.read m (src.base h.q + n))
      phase := if endsBlock e n (src.len d h.q) then src.full (n + 1) else src.reading (n + 1) }) := by
  cases src
  · simp only [turn, nextAccess, afterRead, hp, Source.reading]
    rfl
  · simp only [turn, nextAccess, afterRead, hp, Source.reading]
    rfl

theorem turn_afterReads (hq : h.q = q) (hi : i < chunkLen e (src.len d q) b) :
    turn e d m (h.afterReads e d q src m b i) = (m, h.afterReads e d q src m b (i + 1)) := by
  have hrate : i < 32 := (hi.trans_le (chunkLen_le e _ b)).trans_le (rate_le e)
  have hset := setByte_padBlock (xs := Memory.readBytes m (src.base q + b * e.rate) i)
    (Memory.read m (src.base q + b * e.rate + i)) (by rwa [Memory.length_readBytes])
  rw [Memory.length_readBytes, ← Memory.readBytes_succ] at hset
  rw [turn_reading (src := src) (n := b * e.rate + i) (if_pos hi)]
  simp only [Hidden.afterReads, hq, mul_add_mod_rate hi, ite_endsBlock src.reading src.full hi, ← Nat.add_assoc, hset]

/-- Block `b` of a source is read into the empty working block. -/
theorem RunsAs.reads (hs : RunsAs e d q m (h.cleared.atPhase (src.reading (b * e.rate))) s)
    (hfit : RangesFit d q) (hb : b * e.rate < src.len d q) :
    ∃ t, Takes e d (chunkLen e (src.len d q) b) s t ∧
      RunsAs e d q m
        (h.holding src (blockBytes e (src.bytes d q m) b) (min ((b + 1) * e.rate) (src.len d q))) t := by
  have hq : h.q = q := hs.snapshot_eq
  have hstart : RunsAs e d q m (h.afterReads e d q src m b 0) s := by
    rwa [Hidden.afterReads, if_pos (chunkLen_pos hb)]
  obtain ⟨t, hst, ht⟩ := hstart.loop (M := fun _ => m) (g := fun i => h.afterReads e d q src m b i)
    (n := chunkLen e (src.len d q) b) hfit fun i hi =>
      ⟨by simpa only [Hidden.afterReads, if_pos hi] using Source.inside_reading (lt_of_lt_chunkLen hi),
        turn_afterReads hq hi⟩
  refine ⟨t, hst, ?_⟩
  rwa [Hidden.afterReads, if_neg (lt_irrefl _), chunk_end hb, ← blockBytes_readBytes] at ht

end

/-! ## Bytes written in a row -/

section
variable {e : Engine} {d : Direction} {q : Snapshot} {m : Memory} {h : Hidden} {s : State} {n a : Nat}

/-- A loop of writes stores the first bytes of `x` from address `a` on. -/
theorem RunsAs.writes {place : Nat → Phase} {x : Wide} (hs : RunsAs e d q m (h.atPhase (place 0)) s)
    (hfit : RangesFit d q)
    (hround : ∀ i, i < n → (place i).inside d q ∧ ∀ m, Machine.turn e d m (h.atPhase (place i)) =
      (Memory.write m (a + i) (byteAt x i), h.atPhase (place (i + 1)))) :
    ∃ t, Takes e d n s t ∧ RunsAs e d q (Memory.writeBytes a (toBytes n x) m) (h.atPhase (place n)) t :=
  hs.loop (M := fun i => Memory.writeBytes a (toBytes i x) m) (g := fun i => h.atPhase (place i)) hfit fun i hi =>
    ⟨(hround i hi).1, by
      rw [(hround i hi).2, toBytes_succ, Memory.writeBytes_snoc, length_toBytes]⟩

/-- Where the writes of block `b` stand after `i` of them. -/
def msgWritePlace (e : Engine) (d : Direction) (q : Snapshot) (b i : Nat) : Phase :=
  if i < chunkLen e (q.msgLen d) b then .msgWrite (b * e.rate + i) else .msgNext (b * e.rate + i)

theorem turn_msgWrite (hp : h.phase = .msgWrite n) :
    turn e d m h = (Memory.write m (h.q.dst.toNat + n) (byteAt h.buf (n % e.rate)),
      h.atPhase (if endsBlock e n (h.q.msgLen d) then .msgNext (n + 1) else .msgWrite (n + 1))) := by
  simp only [turn, nextAccess, afterWrite, hp]

/-- The working block's bytes are written as block `b` of the output. -/
theorem RunsAs.writesBlock {b : Nat} (hs : RunsAs e d q m (h.atPhase (.msgWrite (b * e.rate))) s)
    (hfit : RangesFit d q) (hb : b * e.rate < q.msgLen d) :
    ∃ t, Takes e d (chunkLen e (q.msgLen d) b) s t ∧
      RunsAs e d q
        (Memory.writeBytes (q.dst.toNat + b * e.rate) (toBytes (chunkLen e (q.msgLen d) b) h.buf) m)
        (h.atPhase (.msgNext (min ((b + 1) * e.rate) (q.msgLen d)))) t := by
  have hq : h.q = q := hs.snapshot_eq
  have hstart : RunsAs e d q m (h.atPhase (msgWritePlace e d q b 0)) s := by
    rwa [msgWritePlace, if_pos (chunkLen_pos hb)]
  obtain ⟨t, hst, ht⟩ := hstart.writes (n := chunkLen e (q.msgLen d) b) (a := q.dst.toNat + b * e.rate) (x := h.buf)
    hfit fun i hi => by
      have hplace : msgWritePlace e d q b i = .msgWrite (b * e.rate + i) := if_pos hi
      refine ⟨hplace ▸ lt_of_lt_chunkLen hi, fun m => ?_⟩
      rw [turn_msgWrite (n := b * e.rate + i) hplace, mul_add_mod_rate hi, ← Nat.add_assoc, atPhase_q, hq,
        ite_endsBlock .msgWrite .msgNext hi]
      rfl
  refine ⟨t, hst, ?_⟩
  rwa [msgWritePlace, if_neg (lt_irrefl _), chunk_end hb] at ht

/-- Where ENCRYPT stands after `j` tag bytes. -/
def tagWritePlace (q : Snapshot) (j : Nat) : Phase :=
  if j = q.tau.toNat then .finish .noError else .tag j

theorem turn_tagWrite (hp : h.phase = .tag n) :
    turn e .encrypt m h = (Memory.write m (h.q.dst.toNat + h.q.msgLen .encrypt + n) (byteAt h.t n),
      h.atPhase (if n + 1 = h.q.tau.toNat then .finish .noError else .tag (n + 1))) := by
  simp only [turn, nextAccess, afterWrite, hp]

/-- ENCRYPT writes the tag behind the ciphertext (43_encrypt.md R240). -/
theorem RunsAs.writesTag (hs : RunsAs e .encrypt q m (h.atPhase (.tag 0)) s) (hfit : RangesFit .encrypt q)
    (htau : 0 < q.tau.toNat) :
    ∃ t, Takes e .encrypt q.tau.toNat s t ∧
      RunsAs e .encrypt q
        (Memory.writeBytes (q.dst.toNat + q.msgLen .encrypt) (toBytes q.tau.toNat h.t) m)
        (h.atPhase (.finish .noError)) t := by
  have hq : h.q = q := hs.snapshot_eq
  have hstart : RunsAs e .encrypt q m (h.atPhase (tagWritePlace q 0)) s := by
    rwa [tagWritePlace, if_neg htau.ne]
  obtain ⟨t, hst, ht⟩ := hstart.writes (n := q.tau.toNat) (a := q.dst.toNat + q.msgLen .encrypt) (x := h.t)
    hfit fun j hj => by
      have hplace : tagWritePlace q j = .tag j := if_neg hj.ne
      refine ⟨hplace ▸ hj, fun m => ?_⟩
      rw [turn_tagWrite (n := j) hplace, atPhase_q, hq]
      rfl
  refine ⟨t, hst, ?_⟩
  rwa [tagWritePlace, if_pos rfl] at ht

end

end Sys2Proof.Machine
end

section
/-! SUPPORT. The blocks of a run against the blocks of the algorithm (42_absorb.md R213, 43_encrypt.md R240,
44_decrypt.md R270). -/

namespace Sys2Proof.Machine

/-! ## The algorithm block by block -/

/-- The lanes after the first `k` chunks of associated data: `absorbBytes` after `k` rounds. -/
def firstChunks (e : Engine) (ad : List Byte) (l : Lanes) (k : Nat) : Lanes :=
  (List.range k).foldl (fun l i => update e (padBlock (blockBytes e ad i)) l) l

theorem absorbBytes_eq (e : Engine) (ad : List Byte) (l : Lanes) :
    absorbBytes e ad l = firstChunks e ad l (blockCount e ad.length) := rfl

theorem firstChunks_succ (e : Engine) (ad : List Byte) (l : Lanes) (k : Nat) :
    firstChunks e ad l (k + 1) = update e (padBlock (blockBytes e ad k)) (firstChunks e ad l k) := by
  rw [firstChunks, List.range_succ, List.foldl_append]
  rfl

/-- The algorithm's operation on one message block. -/
def blockOp (e : Engine) : Direction → List Byte → Lanes → List Byte × Lanes
  | .encrypt => encryptBlock e
  | .decrypt => decryptBlock e

theorem length_blockOp (e : Engine) (d : Direction) (x : List Byte) (l : Lanes) :
    (blockOp e d x l).1.length = x.length := by
  cases d
  · exact length_encryptBlock e x l
  · exact length_decryptBlock e x l

/-! ## The computation on one block -/

theorem absorbChunk_lanes (e : Engine) (n : Nat) (h : Hidden) :
    (absorbChunk e n h).lanes = update e h.buf h.lanes := by
  unfold absorbChunk
  split <;> rfl

/-- The update reads the bytes of a rate-sized block only. -/
theorem update_truncBytes_rate (e : Engine) (m : Wide) (l : Lanes) :
    update e (truncBytes m e.rate) l = update e m l := by
  cases e with
  | e128 => rw [Engine.rate, truncBytes_eq_self fun j hj h32 => absurd hj (not_le.mpr h32)]
  | e256 =>
    have hhalf : half0 (truncBytes m 16) = half0 m := by
      ext i hi
      simp [half0, truncBytes, BitVec.getElem_extractLsb', hi, Nat.lt_trans hi]
    rw [update, update, Engine.rate, hhalf]

/-- The end of a block is a multiple of the rate exactly if the block is full. -/
theorem blockEnd_mod_rate {e : Engine} {len b : Nat} (hb : b * e.rate < len) :
    (min ((b + 1) * e.rate) len) % e.rate = if chunkLen e len b = e.rate then 0 else chunkLen e len b := by
  have hle := chunkLen_le e len b
  rw [← chunk_end hb, Nat.mul_add_mod_self_right]
  split_ifs with h
  · rw [h, Nat.mod_self]
  · exact Nat.mod_eq_of_lt (by omega)

/-- The computation on a message block is the algorithm's, on its bytes and on the lanes. -/
theorem cryptBlock_holding {e : Engine} {d : Direction} {n : Nat} {x : List Byte} {h : Hidden}
    (hn : n % e.rate = if x.length = e.rate then 0 else x.length) (hx : 0 < x.length) (hrate : x.length ≤ e.rate) :
    (cryptBlock e d n (h.holding .msg x n)).lanes = (blockOp e d x h.lanes).2 ∧
      toBytes x.length (cryptBlock e d n (h.holding .msg x n)).buf = (blockOp e d x h.lanes).1 := by
  have h32 : x.length ≤ 32 := hrate.trans (rate_le e)
  by_cases hfull : x.length = e.rate
  · rw [if_pos hfull] at hn
    cases d with
    | encrypt =>
      rw [cryptBlock, if_pos hn]
      exact ⟨rfl, rfl⟩
    | decrypt =>
      rw [cryptBlock, if_pos hn]
      refine ⟨?_, rfl⟩
      rw [blockOp, decryptBlock, padBlock_toBytes, hfull, update_truncBytes_rate]
      rfl
  · rw [if_neg hfull] at hn
    cases d with
    | encrypt =>
      rw [cryptBlock, hn, if_neg hx.ne']
      exact ⟨rfl, toBytes_truncBytes _ h32⟩
    | decrypt =>
      rw [cryptBlock, hn, if_neg hx.ne']
      refine ⟨?_, toBytes_truncBytes _ h32⟩
      rw [blockOp, decryptBlock, padBlock_toBytes]
      rfl

section
variable {e : Engine} {d : Direction} {h : Hidden} {n : Nat}

theorem settle_holding_ad (x : List Byte) :
    settle e d (h.holding .ad x n) = enterAd e d n (absorbChunk e n (h.holding .ad x n)).cleared := rfl

/-- Once block `b` of a message of `len` bytes is read, the algorithm's output stands in the working block. -/
theorem settle_holding_msg {len b : Nat} {x : List Byte} (h : Hidden) (hb : b * e.rate < len)
    (hx : x.length = chunkLen e len b) :
    ∃ g : Hidden, settle e d (h.holding .msg x (min ((b + 1) * e.rate) len)) = g.atPhase (.msgWrite (b * e.rate)) ∧
      g.lanes = (blockOp e d x h.lanes).2 ∧ toBytes x.length g.buf = (blockOp e d x h.lanes).1 := by
  refine ⟨_, ?_, cryptBlock_holding (n := min ((b + 1) * e.rate) len) ?_ ?_ ?_⟩
  · conv_rhs => rw [← blockStart_chunk_end hb, chunk_end hb]
    rfl
  · rw [hx, blockEnd_mod_rate hb]
  · rw [hx]; exact chunkLen_pos hb
  · rw [hx]; exact chunkLen_le e len b

theorem settle_msgNext_eq (h : Hidden) :
    settle e d (h.atPhase (.msgNext n)) = enterMsg e d n (h.atPhase (.msgNext n)).cleared := rfl

theorem enterAd_of_lt (hn : n < h.q.adLen.toNat) : enterAd e d n h = h.atPhase (.adRead n) := if_pos hn

theorem enterAd_of_ge (hn : h.q.adLen.toNat ≤ n) : enterAd e d n h = enterMsg e d 0 h := if_neg (not_lt.mpr hn)

theorem enterMsg_of_lt (hn : n < h.q.msgLen d) : enterMsg e d n h = h.atPhase (.msgRead n) := if_pos hn

theorem enterMsg_of_ge (hn : h.q.msgLen d ≤ n) : enterMsg e d n h = enterTag e d h := if_neg (not_lt.mpr hn)

end

/-! ## The phases of a run -/

/-- The input a block is read from has not been overwritten by the blocks before it: input and output are in place or
apart (46_commands.md R333). -/
theorem src_ne_dst_of_contract {d : Direction} {q : Snapshot} (hc : contractCheck d q = none) {i j : Nat}
    (hj : j < i) (hi : i < q.msgLen d) : q.src.toNat + i ≠ q.dst.toNat + j := by
  have hfit := rangesFit_of_contract hc
  have hsrc := hfit.srcLen
  have hdst := hfit.dstLen
  simp only [contractCheck, ite_some_eq_none_iff, overlaps, decide_eq_true_iff] at hc
  obtain ⟨-, -, -, -, -, -, -, -, hover, -⟩ := hc
  cases d <;> dsimp only at hsrc hdst <;> omega

section
variable {e : Engine} {d : Direction} {q : Snapshot} {m : Memory} {s : State}

/-- The hidden state right after acceptance (46_commands.md R321). -/
def Hidden.accepted (q : Snapshot) : Hidden := { Hidden.zero with q := q, phase := .start }

/-- Between AD chunks: `k` of them are absorbed. -/
def ChunksAbsorbed (e : Engine) (d : Direction) (q : Snapshot) (m : Memory) (l : Lanes) (k : Nat) (s : State) : Prop :=
  ∃ h : Hidden, h.lanes = firstChunks e (Source.ad.bytes d q m) l k ∧
    RunsAs e d q m (enterAd e d (min (k * e.rate) q.adLen.toNat) h.cleared) s

/-- Between message blocks: the algorithm's output of `k` of them is written. -/
def BlocksWritten (e : Engine) (d : Direction) (q : Snapshot) (m : Memory) (l : Lanes) (k : Nat) (s : State) : Prop :=
  ∃ h : Hidden, h.lanes = (firstBlocks e (blockOp e d) (Source.msg.bytes d q m) l k).2 ∧
    RunsAs e d q
      (Memory.writeBytes q.dst.toNat (firstBlocks e (blockOp e d) (Source.msg.bytes d q m) l k).1 m)
      (enterMsg e d (min (k * e.rate) (q.msgLen d)) h.cleared) s

/-- The algorithm's pass over associated data and message as they stand in memory. -/
def messageRun (e : Engine) (d : Direction) (q : Snapshot) (m : Memory) : List Byte × Lanes :=
  overBlocks e (blockOp e d) (Source.msg.bytes d q m) (lanesAfterAd e q.key q.nonce (Source.ad.bytes d q m))

theorem messageRun_eq :
    messageRun e d q m = firstBlocks e (blockOp e d) (Source.msg.bytes d q m)
      (lanesAfterAd e q.key q.nonce (Source.ad.bytes d q m)) (blockCount e (q.msgLen d)) := by
  rw [messageRun, overBlocks_eq, Source.length_bytes]
  rfl

/-- From its start a command stands before the first AD chunk, the lanes initialized. -/
theorem RunsAs.beginsAd (hs : RunsAs e d q m (Hidden.accepted q) s) :
    ChunksAbsorbed e d q m (initLanes e q.key q.nonce .zero) 0 s := by
  refine ⟨initialize128or256 e (Hidden.accepted q), rfl, ?_⟩
  rw [Nat.zero_mul, Nat.zero_min]
  exact hs.settle

/-- When every chunk is absorbed, the run stands before the first message block. -/
theorem ChunksAbsorbed.beginsMessage
    (hs : ChunksAbsorbed e d q m (initLanes e q.key q.nonce .zero) (blockCount e q.adLen.toNat) s) :
    BlocksWritten e d q m (lanesAfterAd e q.key q.nonce (Source.ad.bytes d q m)) 0 s := by
  obtain ⟨h, hl, hs⟩ := hs
  have hq : h.q = q := by simpa using hs.snapshot_eq
  rw [min_eq_right (le_blockCount_mul e _), enterAd_of_ge (by rw [cleared_q, hq])] at hs
  refine ⟨h, ?_, by rwa [Nat.zero_mul, Nat.zero_min]⟩
  rw [hl, lanesAfterAd, absorbBytes_eq, Source.length_bytes]
  rfl

/-- When every block is written, the run stands at the tag. -/
theorem BlocksWritten.reachesTag
    (hs : BlocksWritten e d q m (lanesAfterAd e q.key q.nonce (Source.ad.bytes d q m))
      (blockCount e (q.msgLen d)) s) :
    ∃ h, h.lanes = (messageRun e d q m).2 ∧
      RunsAs e d q (Memory.writeBytes q.dst.toNat (messageRun e d q m).1 m) (enterTag e d h) s := by
  obtain ⟨h, hl, hs⟩ := hs
  have hq : h.q = q := by simpa using hs.snapshot_eq
  rw [min_eq_right (le_blockCount_mul e _), enterMsg_of_ge (by rw [cleared_q, hq])] at hs
  rw [messageRun_eq]
  exact ⟨h.cleared, hl, hs⟩

variable {l : Lanes} (hc : contractCheck d q = none)
include hc

/-- Phase (1): one chunk is absorbed. -/
theorem chunkRound (k : Nat) (s : State) (hk : k < blockCount e q.adLen.toNat) (hs : ChunksAbsorbed e d q m l k s) :
    ∃ t, Takes e d (chunkLen e q.adLen.toNat k) s t ∧ ChunksAbsorbed e d q m l (k + 1) t := by
  have hlt : k * e.rate < q.adLen.toNat := lt_blockCount_iff.mp hk
  obtain ⟨h, hl, hs⟩ := hs
  have hq : h.q = q := by simpa using hs.snapshot_eq
  rw [min_eq_left hlt.le, enterAd_of_lt (by rwa [← hq] at hlt)] at hs
  obtain ⟨t, hst, ht⟩ := RunsAs.reads (src := .ad) hs (rangesFit_of_contract hc) hlt
  have hset := ht.settle
  rw [settle_holding_ad] at hset
  refine ⟨t, hst, _, ?_, hset⟩
  rw [absorbChunk_lanes, holding_buf, holding_lanes, firstChunks_succ, ← hl]

/-- The bytes of block `k` are still those of the message when the blocks before it are written. -/
theorem blockBytes_after_writes (k : Nat) {out : List Byte} (hout : out.length = k * e.rate) :
    blockBytes e (Source.msg.bytes d q (Memory.writeBytes q.dst.toNat out m)) k =
      blockBytes e (Source.msg.bytes d q m) k := by
  rw [Source.bytes, Source.bytes, blockBytes_readBytes, blockBytes_readBytes]
  refine Memory.readBytes_congr fun j hj => Memory.read_writeBytes_of_ne fun i hi => ?_
  rw [Nat.add_assoc]
  exact src_ne_dst_of_contract hc (by omega) (lt_of_lt_chunkLen hj)

/-- Phase (2): one block is read, encrypted or decrypted, and written. -/
theorem messageRound (k : Nat) (s : State) (hk : k < blockCount e (q.msgLen d)) (hs : BlocksWritten e d q m l k s) :
    ∃ t, Takes e d (2 * chunkLen e (q.msgLen d) k) s t ∧ BlocksWritten e d q m l (k + 1) t := by
  have hlt : k * e.rate < q.msgLen d := lt_blockCount_iff.mp hk
  have hfit := rangesFit_of_contract hc
  have hmsg : (Source.msg.bytes d q m).length = q.msgLen d := Source.length_bytes d q m .msg
  have hblock : (blockBytes e (Source.msg.bytes d q m) k).length = chunkLen e (q.msgLen d) k := by
    rw [length_blockBytes, hmsg]
  obtain ⟨h, hl, hs⟩ := hs
  have hq : h.q = q := by simpa using hs.snapshot_eq
  have hout : (firstBlocks e (blockOp e d) (Source.msg.bytes d q m) l k).1.length = k * e.rate := by
    rw [length_firstBlocks (length_blockOp e d), hmsg, min_eq_left hlt.le]
  rw [min_eq_left hlt.le, enterMsg_of_lt (by rwa [← hq] at hlt)] at hs
  obtain ⟨t, hst, ht⟩ := RunsAs.reads (src := .msg) hs hfit hlt
  rw [blockBytes_after_writes hc k hout] at ht
  obtain ⟨g, hg, hlanes, hbytes⟩ := settle_holding_msg (d := d) h hlt hblock
  rw [hl] at hlanes hbytes
  rw [hblock] at hbytes
  obtain ⟨u, htu, hu⟩ := RunsAs.writesBlock (hg ▸ ht.settle) hfit hlt
  have hnext := hu.settle
  rw [settle_msgNext_eq, hbytes, ← hout, ← Memory.writeBytes_append] at hnext
  refine ⟨u, two_mul (chunkLen e (q.msgLen d) k) ▸ hst.trans htu, ?_⟩
  rw [BlocksWritten, firstBlocks_succ]
  exact ⟨_, hlanes, hnext⟩

/-- From its start a command writes the algorithm's output of the message and stands at the tag, with the
algorithm's lanes. -/
theorem RunsAs.reachesTag (hs : RunsAs e d q m (Hidden.accepted q) s) :
    ∃ t h, Takes e d (q.adLen.toNat + 2 * q.msgLen d) s t ∧ h.lanes = (messageRun e d q m).2 ∧
      RunsAs e d q (Memory.writeBytes q.dst.toNat (messageRun e d q m).1 m) (enterTag e d h) t := by
  obtain ⟨t, hst, ht⟩ := takes_loop (chunkRound hc) hs.beginsAd
  obtain ⟨u, htu, hu⟩ := takes_loop (messageRound hc) ht.beginsMessage
  rw [sum_chunkLen] at hst
  rw [← Finset.mul_sum, sum_chunkLen] at htu
  obtain ⟨h, hl, hu⟩ := hu.reachesTag
  exact ⟨u, h, hst.trans htu, hl, hu⟩

end

/-- A run that stands at its completion completes (46_commands.md R323). -/
theorem RunsAs.completes {e : Engine} {d : Direction} {q : Snapshot} {m : Memory} {h : Hidden} {s : State} {c : ErrCode}
    (hs : RunsAs e d q m (h.atPhase (.finish c)) s) (hop : q.op = d.op) :
    ∃ t, Takes e d 1 s t ∧ t.status = ⟨false, c, d.op, decide (c = .noError ∧ d = .decrypt), .noParam⟩ ∧
      t.errInfo = 0 ∧ t.intStatus.done = true ∧ t.hid = .zero ∧ t.mem = m := by
  have hup : upcoming e d s = .finish c := by
    rw [upcoming, hs.computed]
    rfl
  refine ⟨_, .one hs.busy (streamStep_finish hup), ?_⟩
  rw [complete_stream (d := d) (by simp [hs.snapshot, hop])]
  simp [reported, hs.lastOp, hs.mem]

/-! ## A whole ENCRYPT -/

/-- The tag computed from the lanes after the message is the algorithm's (45_finalize_verify.md R294). -/
theorem toBytes_finalize_t (e : Engine) (d : Direction) (h : Hidden) :
    toBytes h.q.tau.toNat (finalize e d h).t = tagBytes e h.q.adLen.toNat (h.q.msgLen d) h.q.tau.toNat h.lanes := rfl

theorem encryptBytes_eq (e : Engine) (q : Snapshot) (m : Memory) :
    encryptBytes e q.key q.nonce q.tau.toNat (Source.ad.bytes .encrypt q m) (Source.msg.bytes .encrypt q m) =
      (messageRun e .encrypt q m).1 ++
        tagBytes e q.adLen.toNat (q.msgLen .encrypt) q.tau.toNat (messageRun e .encrypt q m).2 := by
  rw [encryptBytes, Source.length_bytes, Source.length_bytes]
  rfl

theorem length_messageRun (e : Engine) (d : Direction) (q : Snapshot) (m : Memory) :
    (messageRun e d q m).1.length = q.msgLen d :=
  (length_overBlocks (length_blockOp e d)).trans (Source.length_bytes d q m .msg)

/-- From its start ENCRYPT writes the algorithm's ciphertext and tag, and completes. -/
theorem RunsAs.encrypts {e : Engine} {q : Snapshot} {m : Memory} {s : State}
    (hs : RunsAs e .encrypt q m (Hidden.accepted q) s) (hc : contractCheck .encrypt q = none) (hop : q.op = opEncrypt) :
    ∃ t, Takes e .encrypt (q.adLen.toNat + 2 * q.srcLen.toNat + q.tau.toNat + 1) s t ∧
      t.status = ⟨false, .noError, 1, false, .noParam⟩ ∧ t.errInfo = 0 ∧ t.intStatus.done = true ∧
      t.hid = .zero ∧
      t.mem = Memory.writeBytes q.dst.toNat
        (encryptBytes e q.key q.nonce q.tau.toNat (Source.ad.bytes .encrypt q m)
          (Source.msg.bytes .encrypt q m)) m := by
  obtain ⟨htau, -⟩ := contractCheck_none hc
  obtain ⟨t, h, hst, hl, ht⟩ := hs.reachesTag hc
  have hq : h.q = q := ht.snapshot_eq
  obtain ⟨u, htu, hu⟩ := RunsAs.writesTag (h := finalize e .encrypt h) ht (rangesFit_of_contract hc) (by omega)
  obtain ⟨v, huv, hstatus, hinfo, hdone, hhid, hmem⟩ := hu.completes hop
  refine ⟨v, (hst.trans htu).trans huv, hstatus, hinfo, hdone, hhid, ?_⟩
  have htag := toBytes_finalize_t e .encrypt h
  rw [hq, hl] at htag
  rw [hmem, htag, encryptBytes_eq, Memory.writeBytes_append, length_messageRun]

/-- The acceptance of a stream command whose contract holds starts its run (46_commands.md R321). -/
theorem RunsAs.of_accept {e : Engine} {d : Direction} {tau : BitVec 8} {s : State} (hz : s.hid = .zero)
    (hserved : Served (takeSnapshot d.op e.var tau s) s) :
    RunsAs e d (takeSnapshot d.op e.var tau s) s.mem (Hidden.accepted (takeSnapshot d.op e.var tau s))
      (startRun (snapshotTaken d.op e.var tau s)) := by
  refine ⟨⟨rfl, rfl, hserved.congr rfl fun a => ?_⟩, rfl, rfl, ?_⟩
  · simp [State.unseen, snapshotTaken]
  · simp [snapshotTaken, hz, Hidden.accepted]

theorem exec_streamInstr_accepts {e : Engine} {d : Direction} {tau : Nat} {s : State} (hb : s.status.busy = false)
    (hc : contractCheck d (takeSnapshot d.op e.var (BitVec.ofNat 8 tau) s) = none) :
    exec (streamInstr e d tau) s = .next (startRun (snapshotTaken d.op e.var (BitVec.ofNat 8 tau) s)) := by
  rw [exec_streamInstr, streamCommand_idle e d tau hb]
  obtain ⟨p, v, hsome, -⟩ | ⟨-, ha⟩ := accept_cases d.op e.var (BitVec.ofNat 8 tau) (contractCheck d) s
  · rw [hc] at hsome
    cases hsome
  · rw [ha, snapshotTaken]

theorem execRun_of_exec {i : Instr} {s t : State} (h : exec i s = .next t) (n : Nat) :
    execRun i (1 + n) s = execRun i n t := by
  rw [Nat.add_comm, execRun, h]

/-- Settles O59: the run starts at acceptance, and what it writes is stored in the output range and nowhere else. -/
theorem encryptWritesCiphertextAndTag : Obligations.EncryptWritesCiphertextAndTag := by
  intro e tau s hinv hb hc hserved htau
  have htauq : (BitVec.ofNat 8 tau).toNat = tau := Nat.mod_eq_of_lt (by omega)
  obtain ⟨t, hst, hstatus, hinfo, hdone, hhid, hmem⟩ :=
    (RunsAs.of_accept (d := .encrypt) (hinv.idle hb) hserved).encrypts hc rfl
  simp only [takeSnapshot, Source.bytes, Source.base, Source.len, Snapshot.msgLen, htauq] at hst hmem
  have hlen : (encryptBytes e s.key s.nonce tau (Memory.readBytes s.mem s.adAddr.toNat s.adLen.toNat)
      (Memory.readBytes s.mem s.srcAddr.toNat s.srcLen.toNat)).length = s.srcLen.toNat + tau := by
    rw [length_encryptBytes, Memory.length_readBytes]
  have hdst : s.dstLen.toNat = s.srcLen.toNat + tau := by
    simpa [takeSnapshot, Snapshot.msgLen, htauq] using (rangesFit_of_contract hc).dstLen
  refine ⟨t, ?_, hstatus, hinfo, hdone, hhid, ?_, fun a ha => ?_⟩
  · rw [execRun_of_exec (exec_streamInstr_accepts (d := .encrypt) hb hc), hst.execRun]
  · rw [hmem, ← hlen, Memory.readBytes_writeBytes _ _ hinv.memWf]
  · have hout : ¬ (s.dstAddr.toNat ≤ a ∧ a < s.dstAddr.toNat + s.dstLen.toNat) := of_decide_eq_false ha
    rw [hmem, Memory.read_writeBytes_of_ne fun j hj => by omega]

end Sys2Proof.Machine
end

section
/-! SUPPORT. A whole DECRYPT: the tag is read, compared, and the output stays or is wiped (44_decrypt.md R270, R273,
45_finalize_verify.md R296–R298). -/

namespace Sys2Proof.Machine

/-! ## Bytes in a row -/

theorem Memory.readBytes_add (m : Memory) (a n k : Nat) :
    readBytes m a (n + k) = readBytes m a n ++ readBytes m (a + n) k := by
  simp [readBytes, List.range_add, Nat.add_assoc]

/-- The bytes of a word up to and with a byte just set. -/
theorem toBytes_setByte (x : Wide) (b : Byte) {j : Nat} (hj : j < 32) :
    toBytes (j + 1) (setByte x j b) = toBytes j x ++ [b] := by
  have hbelow : toBytes j (setByte x j b) = toBytes j x :=
    List.map_congr_left fun k hk => by
      have hk : k < j := List.mem_range.mp hk
      exact byteAt_setByte_of_ne x (by omega) (by omega) b
  rw [toBytes_succ, hbelow, byteAt_setByte_same x (by omega)]

theorem toBytes_zero (n : Nat) : toBytes n (0 : Wide) = List.replicate n 0 := by
  refine List.ext_getElem (by simp) fun j h1 h2 => ?_
  rw [getElem_toBytes, List.getElem_replicate]
  ext i hi
  simp [byteAt]

/-! ## The comparison (45_finalize_verify.md R296) -/

/-- The accumulated difference is zero exactly if no byte differs. -/
theorem ctDiff_eq_zero_iff (a b : Wide) (n : Nat) :
    ctDiff a b n = 0#8 ↔ ∀ j, j < n → byteAt a j = byteAt b j := by
  induction n with
  | zero => exact ⟨fun _ j hj => absurd hj j.not_lt_zero, fun _ => rfl⟩
  | succ n ih =>
    have hstep : ctDiff a b (n + 1) = ctDiff a b n ||| (byteAt a n ^^^ byteAt b n) := by
      simp [ctDiff, List.range_succ]
    rw [hstep, BitVec.or_eq_zero_iff, ih, BitVec.xor_eq_zero_iff, Nat.forall_lt_succ_right]

theorem ctEqual_eq_decide (tau : Nat) (a b : Wide) : ctEqual tau a b = decide (toBytes tau a = toBytes tau b) := by
  have hiff : ctDiff a b tau = 0#8 ↔ toBytes tau a = toBytes tau b := by
    simp [ctDiff_eq_zero_iff, toBytes]
  exact decide_eq_decide.mpr hiff

/-! ## The tag read -/

section
variable {e : Engine} {q : Snapshot} {m : Memory} {h : Hidden} {s : State} {n : Nat}

/-- Where DECRYPT stands after `j` tag bytes. -/
def tagReadPlace (q : Snapshot) (j : Nat) : Phase :=
  if j = q.tau.toNat then .verify else .tag j

/-- The first `j` tag bytes behind the ciphertext are read into E; `T` is the tag computed. -/
def TagBytesRead (e : Engine) (q : Snapshot) (m : Memory) (T : Wide) (j : Nat) (s : State) : Prop :=
  ∃ h : Hidden, h.phase = tagReadPlace q j ∧ h.t = T ∧
    toBytes j h.e = Memory.readBytes m (q.src.toNat + q.msgLen .decrypt) j ∧ RunsAs e .decrypt q m h s

theorem turn_tagRead (hp : h.phase = .tag n) :
    turn e .decrypt m h = (m, { h with
      e := setByte h.e n (Memory.read m (h.q.src.toNat + h.q.msgLen .decrypt + n))
      phase := tagReadPlace h.q (n + 1) }) := by
  simp only [turn, nextAccess, afterRead, hp, tagReadPlace]

/-- Phase (3): one tag byte is read. -/
theorem tagReadRound {T : Wide} (hc : contractCheck .decrypt q = none) (j : Nat) (s : State) (hj : j < q.tau.toNat)
    (hs : TagBytesRead e q m T j s) : ∃ t, Takes e .decrypt 1 s t ∧ TagBytesRead e q m T (j + 1) t := by
  obtain ⟨htau, -⟩ := contractCheck_none hc
  obtain ⟨h, hp, hT, hE, hs⟩ := hs
  have hq : h.q = q := hs.snapshot_eq
  have hplace : h.phase = .tag j := hp.trans (if_neg hj.ne)
  obtain ⟨t, hst, ht⟩ := hs.turn (rangesFit_of_contract hc) (hplace ▸ hj)
  rw [turn_tagRead hplace, hq] at ht
  refine ⟨t, hst, _, ?_, ?_, ?_, ht⟩
  · rfl
  · exact hT
  · rw [toBytes_setByte _ _ (by omega), hE, Memory.readBytes_succ]

/-- DECRYPT reads the tag behind the ciphertext and stands at the comparison (44_decrypt.md R270). -/
theorem RunsAs.readsTag (hs : RunsAs e .decrypt q m (h.atPhase (.tag 0)) s) (hc : contractCheck .decrypt q = none) :
    ∃ t, Takes e .decrypt q.tau.toNat s t ∧ TagBytesRead e q m h.t q.tau.toNat t := by
  obtain ⟨htau, -⟩ := contractCheck_none hc
  have hstart : TagBytesRead e q m h.t 0 s := ⟨h.atPhase (.tag 0), (if_neg (by omega)).symm, rfl, rfl, hs⟩
  simpa using takes_loop (c := fun _ => 1) (tagReadRound hc) hstart

/-! ## What follows the comparison -/

/-- Where the wipe stands after `i` bytes. -/
def wipePlace (q : Snapshot) (i : Nat) : Phase :=
  if i < q.msgLen .decrypt then .wipe i else .finish .auth

theorem turn_wipe {i : Nat} (hi : i < h.q.msgLen .decrypt) :
    turn e .decrypt m (h.atPhase (wipePlace h.q i)) =
      (Memory.write m (h.q.dst.toNat + i) 0, h.atPhase (wipePlace h.q (i + 1))) := by
  have hnext : (if i + 1 = h.q.msgLen .decrypt then .finish .auth else .wipe (i + 1)) = wipePlace h.q (i + 1) := by
    rw [wipePlace]
    split_ifs
    · omega
    · rfl
    · rfl
    · omega
  rw [← hnext, wipePlace, if_pos hi]
  rfl

/-- The wipe makes the output range zero (45_finalize_verify.md R298). -/
theorem RunsAs.wipes (hs : RunsAs e .decrypt q m (h.atPhase (wipePlace q 0)) s) (hfit : RangesFit .decrypt q) :
    ∃ t, Takes e .decrypt (q.msgLen .decrypt) s t ∧
      RunsAs e .decrypt q (Memory.writeBytes q.dst.toNat (List.replicate (q.msgLen .decrypt) 0) m)
        (h.atPhase (.finish .auth)) t := by
  have hq : h.q = q := hs.snapshot_eq
  obtain ⟨t, hst, ht⟩ := hs.writes (x := 0) (a := q.dst.toNat) (n := q.msgLen .decrypt) hfit fun i hi => by
    refine ⟨?_, fun m => ?_⟩
    · rw [wipePlace, if_pos hi]
      exact ⟨rfl, hi⟩
    · have hturn := turn_wipe (e := e) (m := m) (hq.symm ▸ hi)
      rw [hq] at hturn
      rw [hturn]
      simp [byteAt]
  rw [toBytes_zero, wipePlace, if_neg (lt_irrefl _)] at ht
  exact ⟨t, hst, ht⟩

/-- Memory with the output range zeroed, unless the tag verified. -/
def wipedUnless (ok : Bool) (q : Snapshot) (m : Memory) : Memory :=
  if ok then m else Memory.writeBytes q.dst.toNat (List.replicate (q.msgLen .decrypt) 0) m

/-- From the comparison DECRYPT comes to its completion, at once when the tags agree and after the wipe when they do
not (45_finalize_verify.md R297, R298). -/
theorem RunsAs.compares {ok : Bool} (hs : RunsAs e .decrypt q m h s) (hp : h.phase = .verify)
    (hok : ctEqual q.tau.toNat h.t h.e = ok) (hfit : RangesFit .decrypt q) :
    ∃ t g, Takes e .decrypt (if ok then 0 else q.msgLen .decrypt) s t ∧
      RunsAs e .decrypt q (wipedUnless ok q m) (Hidden.atPhase (.finish (if ok then .noError else .auth)) g) t := by
  obtain rfl : h.q = q := hs.snapshot_eq
  have hverify : Machine.settle e .decrypt h = verifyTag .decrypt h := by rw [Machine.settle, hp]
  have hset : RunsAs e .decrypt h.q m (verifyTag .decrypt h) s := hverify ▸ hs.settle
  rw [verifyTag, hok] at hset
  cases ok with
  | true => exact ⟨s, h, .zero s, hset⟩
  | false =>
    have hwipe : RunsAs e .decrypt h.q m (Hidden.atPhase (wipePlace h.q 0) { h with t := 0 }) s := by
      rw [if_neg Bool.false_ne_true] at hset
      rw [wipePlace]
      split_ifs at hset ⊢ <;> exact hset
    obtain ⟨t, hst, ht⟩ := hwipe.wipes hfit
    exact ⟨t, _, hst, ht⟩

end

/-! ## The algorithm on the bytes in memory -/

/-- Plaintext and verdict of the algorithm, for the input as it stands in memory. -/
def decryption (e : Engine) (q : Snapshot) (m : Memory) : List Byte × Bool :=
  decryptBytes e q.key q.nonce q.tau.toNat (Source.ad.bytes .decrypt q m)
    (Memory.readBytes m q.src.toNat q.srcLen.toNat)

section
variable {e : Engine} {q : Snapshot} {m : Memory} {s : State} (hc : contractCheck .decrypt q = none)
include hc

/-- The algorithm compares the tag of its lanes with the bytes behind the ciphertext. -/
theorem decryption_eq :
    decryption e q m = ((messageRun e .decrypt q m).1,
      decide (tagBytes e q.adLen.toNat (q.msgLen .decrypt) q.tau.toNat (messageRun e .decrypt q m).2 =
        Memory.readBytes m (q.src.toNat + q.msgLen .decrypt) q.tau.toNat)) := by
  have hsrc : q.srcLen.toNat = q.msgLen .decrypt + q.tau.toNat := (rangesFit_of_contract hc).srcLen
  have hlen : (Source.msg.bytes .decrypt q m).length = q.msgLen .decrypt := Source.length_bytes .decrypt q m .msg
  have hinput : Memory.readBytes m q.src.toNat q.srcLen.toNat =
      Source.msg.bytes .decrypt q m ++ Memory.readBytes m (q.src.toNat + q.msgLen .decrypt) q.tau.toNat := by
    rw [hsrc, Memory.readBytes_add]
    rfl
  rw [decryption, decryptBytes, hinput, List.length_append, hlen, Memory.length_readBytes, Nat.add_sub_cancel,
    List.take_left' hlen, List.drop_left' hlen, Source.length_bytes]
  rfl

/-- The tag bytes are still those of the input when the plaintext is written: input and output are in place or apart
(46_commands.md R333). -/
theorem readBytes_tag_after_writes {out : List Byte} (hout : out.length = q.msgLen .decrypt) :
    Memory.readBytes (Memory.writeBytes q.dst.toNat out m) (q.src.toNat + q.msgLen .decrypt) q.tau.toNat =
      Memory.readBytes m (q.src.toNat + q.msgLen .decrypt) q.tau.toNat := by
  have hfit := rangesFit_of_contract hc
  have hsrc := hfit.srcLen
  have hdst := hfit.dstLen
  simp only [contractCheck, ite_some_eq_none_iff, overlaps, decide_eq_true_iff] at hc
  obtain ⟨-, -, -, -, -, -, -, -, hover, -⟩ := hc
  dsimp only at hsrc hdst
  exact Memory.readBytes_congr fun j hj => Memory.read_writeBytes_of_ne fun i hi => by omega

/-- From its start DECRYPT writes the algorithm's plaintext and stands at the comparison, which has the algorithm's
outcome. -/
theorem RunsAs.reachesComparison (hs : RunsAs e .decrypt q m (Hidden.accepted q) s) :
    ∃ t h, Takes e .decrypt (q.adLen.toNat + 2 * q.msgLen .decrypt + q.tau.toNat) s t ∧ h.phase = .verify ∧
      ctEqual q.tau.toNat h.t h.e = (decryption e q m).2 ∧
      RunsAs e .decrypt q (Memory.writeBytes q.dst.toNat (decryption e q m).1 m) h t := by
  obtain ⟨t, g, hst, hl, ht⟩ := hs.reachesTag hc
  have hq : g.q = q := ht.snapshot_eq
  obtain ⟨u, htu, h, hp, hT, hE, hu⟩ := RunsAs.readsTag (h := finalize e .decrypt g) ht hc
  have htag := toBytes_finalize_t e .decrypt g
  rw [hq, hl] at htag
  rw [readBytes_tag_after_writes hc (length_messageRun e .decrypt q m)] at hE
  rw [decryption_eq hc]
  refine ⟨u, h, hst.trans htu, hp.trans (if_pos rfl), ?_, hu⟩
  rw [ctEqual_eq_decide, hT, htag, hE]

/-- From its start DECRYPT writes the algorithm's plaintext and completes with NONE, or writes zeros over it and
completes with AUTH. -/
theorem RunsAs.decrypts (hs : RunsAs e .decrypt q m (Hidden.accepted q) s) (hop : q.op = opDecrypt) :
    ∃ t, Takes e .decrypt
        (q.adLen.toNat + (if (decryption e q m).2 then 2 else 3) * q.msgLen .decrypt + q.tau.toNat + 1) s t ∧
      t.status = ⟨false, if (decryption e q m).2 then .noError else .auth, 2, (decryption e q m).2, .noParam⟩ ∧
      t.errInfo = 0 ∧ t.intStatus.done = true ∧ t.hid = .zero ∧
      t.mem = wipedUnless (decryption e q m).2 q (Memory.writeBytes q.dst.toNat (decryption e q m).1 m) := by
  obtain ⟨t, h, hst, hp, hok, ht⟩ := hs.reachesComparison hc
  obtain ⟨u, g, htu, hu⟩ := ht.compares hp hok (rangesFit_of_contract hc)
  obtain ⟨v, huv, hstatus, hinfo, hdone, hhid, hmem⟩ := hu.completes hop
  refine ⟨v, ?_, ?_, hinfo, hdone, hhid, hmem⟩
  · have hsteps := (hst.trans htu).trans huv
    cases hr : (decryption e q m).2 with
    | true => rwa [hr] at hsteps
    | false =>
      rw [hr, if_neg Bool.false_ne_true] at hsteps
      rw [if_neg Bool.false_ne_true]
      convert hsteps using 1
      omega
  · rw [hstatus]
    cases (decryption e q m).2 <;> rfl

end

theorem length_decryption (e : Engine) {q : Snapshot} (m : Memory) (hc : contractCheck .decrypt q = none) :
    (decryption e q m).1.length = q.msgLen .decrypt := by
  rw [decryption_eq hc, length_messageRun]

/-- What is written to the output range last is found there. -/
theorem readBytes_wipedUnless {q : Snapshot} {m : Memory} {out : List Byte} (ok : Bool) (hwf : Memory.wf m = true)
    (hout : out.length = q.msgLen .decrypt) :
    Memory.readBytes (wipedUnless ok q (Memory.writeBytes q.dst.toNat out m)) q.dst.toNat (q.msgLen .decrypt) =
      if ok then out else List.replicate (q.msgLen .decrypt) 0 := by
  cases ok with
  | true => exact hout ▸ Memory.readBytes_writeBytes out q.dst.toNat hwf
  | false =>
    have hback := Memory.readBytes_writeBytes (List.replicate (q.msgLen .decrypt) (0 : Byte)) q.dst.toNat
      (Memory.wf_writeBytes out q.dst.toNat hwf)
    rwa [List.length_replicate] at hback

/-- Neither the plaintext nor the wipe touches a byte outside the output range. -/
theorem read_wipedUnless_of_outside {q : Snapshot} {m : Memory} {out : List Byte} {a : Nat} (ok : Bool)
    (hfit : RangesFit .decrypt q) (hout : out.length = q.msgLen .decrypt) (ha : q.inOutput a = false) :
    Memory.read (wipedUnless ok q (Memory.writeBytes q.dst.toNat out m)) a = Memory.read m a := by
  have hdst : q.dstLen.toNat = q.msgLen .decrypt := hfit.dstLen
  have hframe (bytes : List Byte) (hb : bytes.length = q.msgLen .decrypt) (m : Memory) :
      Memory.read (Memory.writeBytes q.dst.toNat bytes m) a = Memory.read m a :=
    Memory.read_writeBytes_of_ne fun j hj haj => by
      have hin : ¬ (q.dst.toNat ≤ a ∧ a < q.dst.toNat + q.dstLen.toNat) := of_decide_eq_false ha
      omega
  cases ok with
  | true => exact hframe out hout m
  | false => exact (hframe _ List.length_replicate _).trans (hframe out hout m)

/-- Settles O60: the run starts at acceptance, and the verdict of the algorithm decides how long it is and whether the
plaintext or zeros are left in the output range. -/
theorem decryptWritesThePlaintextOrZeros : Obligations.DecryptWritesThePlaintextOrZeros := by
  intro e tau s hinv hb hc hserved htau msgLen r
  have htauq : (takeSnapshot 2 e.var (BitVec.ofNat 8 tau) s).tau.toNat = tau := Nat.mod_eq_of_lt (by omega)
  have hmsg : (takeSnapshot 2 e.var (BitVec.ofNat 8 tau) s).msgLen .decrypt = msgLen := by
    rw [Snapshot.msgLen, htauq]
    rfl
  have hr : decryption e (takeSnapshot 2 e.var (BitVec.ofNat 8 tau) s) s.mem = r := by
    rw [decryption, htauq]
    rfl
  obtain ⟨t, hst, hstatus, hinfo, hdone, hhid, hmem⟩ :=
    (RunsAs.of_accept (d := .decrypt) (hinv.idle hb) hserved).decrypts hc rfl
  have hout := length_decryption e s.mem hc
  rw [htauq] at hst
  rw [← hr, ← hmsg]
  refine ⟨t, ?_, hstatus, hinfo, hdone, hhid, ?_, fun a ha => ?_⟩
  · rw [execRun_of_exec (exec_streamInstr_accepts (d := .decrypt) hb hc)]
    exact hst.execRun tau
  · rw [hmem]
    exact readBytes_wipedUnless _ hinv.memWf hout
  · rw [hmem, read_wipedUnless_of_outside _ (rangesFit_of_contract hc) hout ha]

end Sys2Proof.Machine
end

section
/-! SUPPORT. The statements on finalization and the comparison: the length block, the bytes compared, and what the
run does after the comparison, up to the report of a failed one (45_finalize_verify.md R290, R296–R298). -/

namespace Sys2Proof.Machine

/-! ## The length block (45_finalize_verify.md R290) -/

theorem lengthBlock_adHalf {adLen : Nat} (h : adLen ≤ Config.maxLen) (msgLen : Nat) :
    ((lengthBlock adLen msgLen).extractLsb' 0 64).toNat = 8 * adLen := by
  unfold Config.maxLen at h
  rw [lengthBlock, BitVec.extractLsb'_append_eq_right, BitVec.toNat_ofNat]
  omega

theorem lengthBlock_msgHalf {msgLen : Nat} (h : msgLen ≤ Config.maxLen) (adLen : Nat) :
    ((lengthBlock adLen msgLen).extractLsb' 64 64).toNat = 8 * msgLen := by
  unfold Config.maxLen at h
  rw [lengthBlock, BitVec.extractLsb'_append_eq_left, BitVec.toNat_ofNat]
  omega

/-- Settles O37: equal blocks have equal halves, which are the lengths in bits. -/
theorem lengthBlockTellsLengthsApart : Obligations.LengthBlockTellsLengthsApart := by
  intro adLen msgLen had hmsg
  refine ⟨lengthBlock_adHalf had _, lengthBlock_msgHalf hmsg _, fun adLen' msgLen' had' hmsg' heq => ?_⟩
  have hadHalf := lengthBlock_adHalf had msgLen
  have hmsgHalf := lengthBlock_msgHalf hmsg adLen
  rw [heq, lengthBlock_adHalf had'] at hadHalf
  rw [heq, lengthBlock_msgHalf hmsg'] at hmsgHalf
  omega

/-! ## The comparison and what follows it (45_finalize_verify.md R296–R298) -/

theorem ctEqual_iff (tau : Nat) (a b : Wide) :
    ctEqual tau a b = true ↔ ∀ j, j < tau → byteAt a j = byteAt b j :=
  decide_eq_true_iff.trans (ctDiff_eq_zero_iff a b tau)

/-- Settles O38: no difference accumulates exactly if no byte differs. -/
theorem comparisonIsEqualityOfTheTagBytes : Obligations.ComparisonIsEqualityOfTheTagBytes :=
  ctEqual_iff

theorem not_ctEqual_of_ne {tau : Nat} {a b : Wide} (h : ∃ j, j < tau ∧ byteAt a j ≠ byteAt b j) :
    ¬ ctEqual tau a b = true := fun heq =>
  have ⟨j, hj, hne⟩ := h
  hne ((ctEqual_iff tau a b).mp heq j hj)

theorem settle_eq_verifyTag {h : Hidden} (hp : h.phase = .verify) (e : Engine) (d : Direction) :
    settle e d h = verifyTag d h := by
  rw [settle, hp]

theorem verifyTag_match {h : Hidden} (heq : ctEqual h.q.tau.toNat h.t h.e = true) (d : Direction) :
    verifyTag d h = h.atPhase (.finish .noError) :=
  if_pos heq

theorem verifyTag_empty {d : Direction} {h : Hidden} (hne : ¬ ctEqual h.q.tau.toNat h.t h.e = true)
    (hlen : h.q.msgLen d = 0) : verifyTag d h = { h with t := 0, phase := .finish .auth } := by
  rw [verifyTag, if_neg hne, if_neg hlen.not_gt]

theorem verifyTag_wipe {d : Direction} {h : Hidden} (hne : ¬ ctEqual h.q.tau.toNat h.t h.e = true)
    (hlen : 0 < h.q.msgLen d) : verifyTag d h = { h with t := 0, phase := .wipe 0 } := by
  rw [verifyTag, if_neg hne, if_pos hlen]

/-- A failing completion changes no register but the report, whatever the command. -/
theorem complete_failed {c : ErrCode} (hc : c ≠ .noError) (p : ErrParam) (v : BitVec 64) (s : State) :
    complete c p v s = reported c s.status.lastOp false p v s := by
  simp [complete, reported, hc]

/-- The report is the same whatever the hidden state was. -/
theorem reported_onHidden (c : ErrCode) (op : BitVec 4) (ok : Bool) (p : ErrParam) (v : BitVec 64)
    (f : Hidden → Hidden) (s : State) : reported c op ok p v (s.onHidden f) = reported c op ok p v s := rfl

/-- Settles O51: the comparison is settled to the completion with NONE. -/
theorem matchingTagCompletesWithAuthOk : Obligations.MatchingTagCompletesWithAuthOk := by
  intro e tau s hb hp hop hall
  have hset : settle e .decrypt s.hid = s.hid.atPhase (.finish .noError) := by
    rw [settle_eq_verifyTag hp, verifyTag_match ((ctEqual_iff _ _ _).mpr hall)]
  have hfinish : upcoming e .decrypt s = .finish .noError := upcoming_finish (by rw [hset]; rfl)
  have hopd : (s.onHidden (settle e .decrypt)).hid.q.op = Direction.decrypt.op := by
    rw [onHidden_hid, settle_q, hop]
    rfl
  rw [exec_streamInstr_busy e _ _ hb, streamStep_finish hfinish, complete_stream hopd, reported_onHidden]
  rfl

/-- A step that completes with an error. -/
theorem streamStep_failed {e : Engine} {d : Direction} {s : State} {c : ErrCode} (hc : c ≠ .noError)
    (h : upcoming e d s = .finish c) :
    streamStep e d s = .next (reported c s.status.lastOp false .noParam 0 s) := by
  rw [streamStep_finish h, complete_failed hc, reported_onHidden]
  rfl

/-- Settles O53: the comparison is settled to the completion with AUTH or to the write of the first byte wiped. -/
theorem differingTagWipesBeforeReporting : Obligations.DifferingTagWipesBeforeReporting := by
  intro e s hb hp hdiff
  have hne := not_ctEqual_of_ne hdiff
  rw [exec_streamInstr_busy e _ _ hb]
  refine ⟨fun hlen => ?_, fun hlen hok hdev => ?_⟩
  · refine streamStep_failed (by decide) (upcoming_finish ?_)
    rw [settle_eq_verifyTag hp, verifyTag_empty hne hlen]
  · have hset : settle e .decrypt s.hid = { s.hid with t := 0, phase := .wipe 0 } := by
      rw [settle_eq_verifyTag hp, verifyTag_wipe hne hlen]
    have hwrite : upcoming e .decrypt s = .write s.hid.q.dst.toNat 0 := by
      rw [upcoming, hset]
      rfl
    rw [streamStep_write hwrite, dmaWrite_served (s := s.onHidden _) _ _ s.hid.q.dst.isLt hok hdev]
    simp only [State.onHidden, hset]
    rfl

/-! ## A completion with AUTH (45_finalize_verify.md R298) -/

/-- A step of a run leaves STATUS as it was, or reports BUS, or is the completion that comes next. -/
theorem streamStep_status {e : Engine} {d : Direction} {s t : State} (h : streamStep e d s = .next t) :
    t.status = s.status ∨ t.status.errCode = .bus ∨
      ∃ c, upcoming e d s = .finish c ∧ t = complete c .noParam 0 (s.onHidden (settle e d)) := by
  obtain ⟨a, -, hread⟩ | ⟨a, v, -, hwrite⟩ | hfinish := streamStep_next h
  · obtain ⟨-, ⟨-, rfl⟩ | ⟨-, -, ⟨-, rfl⟩ | ⟨-, rfl⟩⟩⟩ := dmaRead_next hread
    · exact .inr (.inl rfl)
    · exact .inl rfl
    · exact .inl rfl
  · obtain ⟨-, ⟨-, rfl⟩ | ⟨-, -, rfl⟩⟩ := dmaWrite_next hwrite
    · exact .inr (.inl rfl)
    · exact .inl rfl
  · exact .inr (.inr hfinish)

/-- AUTH comes next once the wipe is done, or from the comparison when there is nothing to wipe. -/
theorem settle_finish_auth {e : Engine} {d : Direction} {h : Hidden} (hf : (settle e d h).phase = .finish .auth) :
    h.phase = .finish .auth ∨ (h.phase = .verify ∧ h.q.msgLen d = 0) := by
  rw [settle_phase] at hf
  cases hp : h.phase <;> simp only [hp] at hf
  case start | adChunk | msgNext => split_ifs at hf
  case verify =>
    split_ifs at hf with _ hlen
    · cases hf
    · exact .inr ⟨rfl, Nat.eq_zero_of_not_pos hlen⟩
  case finish => exact .inl hf
  all_goals cases hf

/-- A run that reports AUTH next is a DECRYPT that has wiped its message. -/
theorem StreamRun.wiped_of_auth {e : Engine} {d : Direction} {s : State} (h : StreamRun e d s)
    (hf : (settle e d s.hid).phase = .finish .auth) : d = .decrypt ∧ wipedTo s (s.hid.q.msgLen d) := by
  have hplace := h.phase
  unfold phaseOk at hplace
  obtain hp | ⟨hp, hlen⟩ := settle_finish_auth hf
  · simp only [hp] at hplace
    obtain ⟨hc, -⟩ | ⟨-, hd⟩ := hplace
    · cases hc
    · exact ⟨hd, h.wiped hp⟩
  · simp only [hp] at hplace
    exact ⟨hplace, fun j hj => by omega⟩

/-- In a DECRYPT whose message is wiped every byte of the output range is zero. -/
theorem StreamRun.read_output_of_wiped {e : Engine} {s : State} (h : StreamRun e .decrypt s)
    (hw : wipedTo s (s.hid.q.msgLen .decrypt)) {a : Nat} (ha : s.hid.q.inOutput a = true) :
    Memory.read s.mem a = 0 := by
  have hlen : s.hid.q.dstLen.toNat = s.hid.q.msgLen .decrypt := h.fit.dstLen
  obtain ⟨hlo, hhi⟩ := inRange_iff.mp ha
  rw [← Nat.add_sub_cancel' hlo]
  exact hw _ (by omega)

/-- Settles O52: only a completion reports AUTH, and it comes when the message is wiped. -/
theorem authFailureLeavesZeroedOutput : Obligations.AuthFailureLeavesZeroedOutput := by
  intro e d s t hinv hb hrun hexec hauth
  rw [exec_streamInstr_busy e d _ hb] at hexec
  obtain ⟨hclear, -⟩ := hinv.clear hb
  obtain hsame | hbus | ⟨c, hfinish, rfl⟩ := streamStep_status hexec
  · rw [hsame, hclear] at hauth
    cases hauth
  · rw [hbus] at hauth
    cases hauth
  · obtain rfl : c = .auth := hauth
    obtain ⟨rfl, hwiped⟩ := hrun.wiped_of_auth (nextAccess_finish hfinish)
    rw [complete_failed (by decide)]
    exact ⟨rfl, rfl, rfl, rfl, fun a => hrun.read_output_of_wiped hwiped⟩

end Sys2Proof.Machine
end

section
/-! SUPPORT. The statements on the contract check: what passes it, and which report each failing check makes
(46_commands.md R326–R333). -/

namespace Sys2Proof.Machine

/-! ## Refusal at acceptance (46_commands.md R321) -/

/-- A stream command whose contract fails on an idle core completes in the same step and changes no register but
the report. -/
theorem exec_contractViolation {e : Engine} {d : Direction} {tau : Nat} {s : State} {p : ErrParam}
    {v : BitVec 64} (hb : s.status.busy = false)
    (hc : contractCheck d (takeSnapshot d.op e.var (BitVec.ofNat 8 tau) s) = some (p, v)) :
    exec (streamInstr e d tau) s = .next (reported .contract d.op false p v s) := by
  rw [exec_streamInstr, streamCommand_idle e d tau hb]
  obtain ⟨p', v', hc', ha⟩ | ⟨hnone, -⟩ := accept_cases d.op e.var (BitVec.ofNat 8 tau) (contractCheck d) s
  · cases hc.symm.trans hc'
    rw [ha, complete_failed (by decide)]
    rfl
  · rw [hnone] at hc
    cases hc

/-! ## Ranges that meet (46_commands.md R333) -/

/-- Two ranges with different starts overlap exactly if they share a byte; empty ranges share none. -/
theorem overlaps_iff {s sl d dl : Nat} :
    overlaps s sl d dl = true ↔ s ≠ d ∧ ∃ a, inRange s sl a = true ∧ inRange d dl a = true := by
  simp only [overlaps, decide_eq_true_eq, inRange_iff]
  constructor
  · rintro ⟨hsl, hdl, hne, hsd, hds⟩
    exact ⟨hne, max s d, by omega, by omega⟩
  · rintro ⟨hne, a, hs, hd⟩
    omega

/-! ## The checks in their order (46_commands.md R326) -/

/-- The output length a command must give (R330). -/
def Snapshot.expectedLen (d : Direction) (q : Snapshot) : Nat :=
  match d with
  | .encrypt => q.msgLen d + q.tau.toNat
  | .decrypt => q.msgLen d

/-- The checks of the tag size and the input length pass (R327, R328). -/
structure SourceFits (d : Direction) (q : Snapshot) : Prop where
  tau : q.tau.toNat = 16 ∨ q.tau.toNat = 32
  tag : d = .decrypt → q.tau.toNat ≤ q.srcLen.toNat
  msgLen : q.msgLen d ≤ Config.maxLen

/-- The checks of all lengths pass (R327–R330). -/
structure LengthsFit (d : Direction) (q : Snapshot) : Prop extends SourceFits d q where
  adLen : q.adLen.toNat ≤ Config.maxLen
  dstLen : q.dstLen.toNat = q.expectedLen d

/-- The checks that follow those of the lengths: the ranges in their order, then the overlap (R331, R333). -/
def rangeCheck (q : Snapshot) : Option (ErrParam × BitVec 64) :=
  if Config.addrSpace < q.src.toNat + q.srcLen.toNat then
    some (.srcRange, BitVec.ofNat 64 (Config.addrSpace - q.src.toNat))
  else if Config.addrSpace < q.dst.toNat + q.dstLen.toNat then
    some (.dstRange, BitVec.ofNat 64 (Config.addrSpace - q.dst.toNat))
  else if Config.addrSpace < q.ad.toNat + q.adLen.toNat then
    some (.adRange, BitVec.ofNat 64 (Config.addrSpace - q.ad.toNat))
  else if overlaps q.src.toNat q.srcLen.toNat q.dst.toNat q.dstLen.toNat then some (.overlap, 0)
  else none

section
variable {d : Direction} {q : Snapshot}

theorem contractCheck_tagSize (h16 : q.tau.toNat ≠ 16) (h32 : q.tau.toNat ≠ 32) :
    contractCheck d q = some (.tagSize, 0x30#64) :=
  if_pos ⟨h16, h32⟩

section
variable (ht : q.tau.toNat = 16 ∨ q.tau.toNat = 32)
include ht

theorem contractCheck_shortInput (hlt : q.srcLen.toNat < q.tau.toNat) :
    contractCheck .decrypt q = some (.srcLen, BitVec.ofNat 64 q.tau.toNat) := by
  rw [contractCheck, if_neg (by omega), if_pos ⟨rfl, hlt⟩]

theorem contractCheck_longEncrypt (hlong : Config.maxLen < q.srcLen.toNat) :
    contractCheck .encrypt q = some (.srcLen, BitVec.ofNat 64 Config.maxLen) := by
  rw [contractCheck, if_neg (by omega), if_neg (by simp)]
  exact if_pos hlong

theorem contractCheck_longDecrypt (hlong : Config.maxLen + q.tau.toNat < q.srcLen.toNat) :
    contractCheck .decrypt q = some (.srcLen, BitVec.ofNat 64 (Config.maxLen + q.tau.toNat)) := by
  rw [contractCheck, if_neg (by omega), if_neg (by omega)]
  exact if_pos (Nat.lt_sub_of_add_lt hlong)

end

theorem SourceFits.contractCheck_longAd (h : SourceFits d q) (hlong : Config.maxLen < q.adLen.toNat) :
    contractCheck d q = some (.adLen, BitVec.ofNat 64 Config.maxLen) := by
  obtain ⟨htau, htag, hmsg⟩ := h
  unfold contractCheck
  rw [if_neg (by omega), if_neg (by simpa using htag), if_neg hmsg.not_gt, if_pos hlong]

theorem SourceFits.contractCheck_badOutput (h : SourceFits d q) (had : q.adLen.toNat ≤ Config.maxLen)
    (hne : q.dstLen.toNat ≠ q.expectedLen d) :
    contractCheck d q = some (.dstLen, BitVec.ofNat 64 (q.expectedLen d)) := by
  obtain ⟨htau, htag, hmsg⟩ := h
  unfold contractCheck
  rw [if_neg (by omega), if_neg (by simpa using htag), if_neg hmsg.not_gt, if_neg had.not_gt]
  exact if_pos hne

theorem LengthsFit.contractCheck_eq (h : LengthsFit d q) : contractCheck d q = rangeCheck q := by
  obtain ⟨⟨htau, htag, hmsg⟩, had, hdst⟩ := h
  unfold contractCheck
  rw [if_neg (by omega), if_neg (by simpa using htag), if_neg hmsg.not_gt, if_neg had.not_gt]
  exact if_neg (not_not.mpr hdst)

theorem contractCheck_eq_none_iff :
    contractCheck d q = none ↔ LengthsFit d q ∧ rangeCheck q = none := by
  constructor
  · intro h
    have hfit : LengthsFit d q := by
      simp only [contractCheck, ite_some_eq_none_iff, ne_eq, not_and, not_lt, not_not] at h
      obtain ⟨htau, htag, hmsg, had, hdst, -⟩ := h
      exact ⟨⟨by omega, htag, hmsg⟩, had, hdst⟩
    exact ⟨hfit, hfit.contractCheck_eq ▸ h⟩
  · rintro ⟨hfit, hrange⟩
    exact hfit.contractCheck_eq.trans hrange

end

/-- No buffer wraps, and input and output start together or share no byte (R331, R333). -/
theorem rangeCheck_eq_none_iff {q : Snapshot} :
    rangeCheck q = none ↔
      q.src.toNat + q.srcLen.toNat ≤ Config.addrSpace ∧ q.dst.toNat + q.dstLen.toNat ≤ Config.addrSpace ∧
        q.ad.toNat + q.adLen.toNat ≤ Config.addrSpace ∧
        (q.src = q.dst ∨ ∀ a, ¬ (q.inInput a = true ∧ q.inOutput a = true)) := by
  have hstart : q.src.toNat = q.dst.toNat ↔ q.src = q.dst := BitVec.toNat_inj
  simp only [rangeCheck, ite_some_eq_none_iff, not_lt, and_true, overlaps_iff, hstart, not_and_or, not_not,
    not_exists, ne_eq]
  rfl

/-- Settles O24: the checks of the lengths, then those of the ranges. -/
theorem contractHoldsExactlyWhenEveryCheckDoes : Obligations.ContractHoldsExactlyWhenEveryCheckDoes := by
  intro d q
  have htau : (q.tau = 16 ∨ q.tau = 32) ↔ (q.tau.toNat = 16 ∨ q.tau.toNat = 32) := by
    rw [← BitVec.toNat_inj, ← BitVec.toNat_inj]
    rfl
  rw [contractCheck_eq_none_iff, rangeCheck_eq_none_iff, htau]
  constructor
  · rintro ⟨⟨⟨ht, htag, hmsg⟩, had, hdst⟩, hranges⟩
    refine ⟨ht, htag, hmsg, had, ?_, ?_, hranges⟩
    · rintro rfl
      exact hdst
    · rintro rfl
      rw [hdst]
      exact Nat.sub_add_cancel (htag rfl)
  · rintro ⟨ht, htag, hmsg, had, henc, hdec, hranges⟩
    refine ⟨⟨⟨ht, htag, hmsg⟩, had, ?_⟩, hranges⟩
    cases d
    · exact henc rfl
    · exact Nat.eq_sub_of_add_eq (hdec rfl)

/-! ## The reports of the failing checks (46_commands.md R327–R333) -/

/-- Settles O25: the first check fails, TAGLEN holding the whole tag size. -/
theorem badTagSizeIsAContractViolation : Obligations.BadTagSizeIsAContractViolation := by
  intro e d tau s hb hle h16 h32
  have htau : (BitVec.ofNat 8 tau).toNat = tau := Nat.mod_eq_of_lt (Nat.lt_succ_of_le hle)
  refine exec_contractViolation hb (contractCheck_tagSize ?_ ?_) <;> rwa [takeSnapshot_tau, htau]

section
variable {tau : Nat} (ht : tau = 16 ∨ tau = 32) (op var : BitVec 4) (s : State)
include ht

/-- A permitted tag size is not cut by the 8 bits of TAGLEN. -/
theorem takeSnapshot_tau_toNat : (takeSnapshot op var (BitVec.ofNat 8 tau) s).tau.toNat = tau := by
  obtain rfl | rfl := ht <;> rfl

theorem takeSnapshot_tau_fits : (takeSnapshot op var (BitVec.ofNat 8 tau) s).tau.toNat = 16 ∨
    (takeSnapshot op var (BitVec.ofNat 8 tau) s).tau.toNat = 32 := by
  rwa [takeSnapshot_tau_toNat ht]

theorem takeSnapshot_expectedLen_encrypt :
    (takeSnapshot op var (BitVec.ofNat 8 tau) s).expectedLen .encrypt = s.srcLen.toNat + tau :=
  congrArg (s.srcLen.toNat + ·) (takeSnapshot_tau_toNat ht op var s)

theorem takeSnapshot_expectedLen_decrypt :
    (takeSnapshot op var (BitVec.ofNat 8 tau) s).expectedLen .decrypt = s.srcLen.toNat - tau :=
  congrArg (s.srcLen.toNat - ·) (takeSnapshot_tau_toNat ht op var s)

theorem takeSnapshot_sourceFits_encrypt (hsrc : s.srcLen.toNat ≤ Config.maxLen) :
    SourceFits .encrypt (takeSnapshot op var (BitVec.ofNat 8 tau) s) :=
  ⟨takeSnapshot_tau_fits ht op var s, by simp, hsrc⟩

theorem takeSnapshot_sourceFits_decrypt (htag : tau ≤ s.srcLen.toNat)
    (hsrc : s.srcLen.toNat ≤ Config.maxLen + tau) :
    SourceFits .decrypt (takeSnapshot op var (BitVec.ofNat 8 tau) s) := by
  refine ⟨takeSnapshot_tau_fits ht op var s, fun _ => ?_, ?_⟩
  · rwa [takeSnapshot_tau_toNat ht]
  · rw [Snapshot.msgLen, takeSnapshot_tau_toNat ht]
    exact Nat.sub_le_of_le_add hsrc

end

/-- Settles O26: the check of the input length is the first to fail. -/
theorem badSourceLengthIsAContractViolation : Obligations.BadSourceLengthIsAContractViolation := by
  intro e tau s hb ht
  have htau := fun op => takeSnapshot_tau_toNat ht op e.var s
  have hfits := fun op => takeSnapshot_tau_fits ht op e.var s
  refine ⟨fun hshort => exec_contractViolation hb ?_, fun hlong => exec_contractViolation hb ?_,
    fun hlong => exec_contractViolation hb ?_⟩
  · rw [contractCheck_shortInput (hfits _) (by rwa [htau]), htau]
  · exact contractCheck_longEncrypt (hfits _) hlong
  · rw [contractCheck_longDecrypt (hfits _) (by rwa [htau]), htau]
    rfl

/-- Settles O27: the check of the AD length is the first to fail. -/
theorem longAssociatedDataIsAContractViolation : Obligations.LongAssociatedDataIsAContractViolation := by
  intro e tau s hb ht hlong
  refine ⟨fun hsrc => exec_contractViolation hb ?_, fun htag hsrc => exec_contractViolation hb ?_⟩
  · exact (takeSnapshot_sourceFits_encrypt ht _ _ s hsrc).contractCheck_longAd hlong
  · exact (takeSnapshot_sourceFits_decrypt ht _ _ s htag hsrc).contractCheck_longAd hlong

/-- Settles O28: the check of the output length is the first to fail. -/
theorem badOutputLengthIsAContractViolation : Obligations.BadOutputLengthIsAContractViolation := by
  intro e tau s hb ht had
  refine ⟨fun hsrc hne => exec_contractViolation hb ?_, fun htag hsrc hne => exec_contractViolation hb ?_⟩
  · have hexp := takeSnapshot_expectedLen_encrypt ht Direction.encrypt.op e.var s
    have hsum : BitVec.ofNat 64 (s.srcLen.toNat + tau) = s.srcLen + BitVec.ofNat 64 tau := by
      simp [BitVec.ofNat_add]
    rw [(takeSnapshot_sourceFits_encrypt ht _ _ s hsrc).contractCheck_badOutput had (by rwa [hexp]), hexp, hsum]
  · have hexp := takeSnapshot_expectedLen_decrypt ht Direction.decrypt.op e.var s
    have hdiff : BitVec.ofNat 64 (s.srcLen.toNat - tau) = s.srcLen - BitVec.ofNat 64 tau := by
      obtain rfl | rfl := ht <;> bv_omega
    rw [(takeSnapshot_sourceFits_decrypt ht _ _ s htag hsrc).contractCheck_badOutput had (by rwa [hexp]), hexp,
      hdiff]

/-- Settles O29: the lengths fit, so `rangeCheck` decides. -/
theorem badRangesAndOverlapAreContractViolations : Obligations.BadRangesAndOverlapAreContractViolations := by
  intro e d tau s hb ht had henc hdec
  have hfit : LengthsFit d (takeSnapshot d.op e.var (BitVec.ofNat 8 tau) s) := by
    cases d
    · obtain ⟨hsrc, hdst⟩ := henc rfl
      exact ⟨takeSnapshot_sourceFits_encrypt ht _ _ s hsrc, had,
        hdst.trans (takeSnapshot_expectedLen_encrypt ht _ _ s).symm⟩
    · obtain ⟨hsrc, hdst⟩ := hdec rfl
      exact ⟨takeSnapshot_sourceFits_decrypt ht _ _ s (by omega) hsrc, had,
        (Nat.eq_sub_of_add_eq hdst).trans (takeSnapshot_expectedLen_decrypt ht _ _ s).symm⟩
  have hrefuse {p : ErrParam} {v : BitVec 64}
      (hc : rangeCheck (takeSnapshot d.op e.var (BitVec.ofNat 8 tau) s) = some (p, v)) :
      exec (streamInstr e d tau) s = .next (reported .contract d.op false p v s) :=
    exec_contractViolation hb (hfit.contractCheck_eq.trans hc)
  refine ⟨fun hsrc => hrefuse (if_pos hsrc), fun hsrc hdst => hrefuse ?_, fun hsrc hdst hadr => hrefuse ?_,
    fun hsrc hdst hadr hne hshare => hrefuse ?_⟩
  · exact (if_neg hsrc.not_gt).trans (if_pos hdst)
  · exact (if_neg hsrc.not_gt).trans ((if_neg hdst.not_gt).trans (if_pos hadr))
  · have hover := overlaps_iff.mpr ⟨fun h => hne (BitVec.eq_of_toNat_eq h), hshare⟩
    exact (if_neg hsrc.not_gt).trans ((if_neg hdst.not_gt).trans ((if_neg hadr.not_gt).trans (if_pos hover)))

end Sys2Proof.Machine
end

section
/-! SUPPORT. The statements on steps and commands: which command a step runs, what acceptance leaves, what a step of
a run leaves, and what every completion does (46_commands.md R320–R324, R340, R345). -/

namespace Sys2Proof.Machine

/-! ## Steps run commands (46_commands.md R320–R324) -/

theorem commandWrite_command {w : Word} {i : Instr} {s : State} (hb : s.status.busy = false)
    (hd : decode w = .command i) : commandWrite w s = exec i s := by
  simp [commandWrite, hb, hd]

/-- A BUSY core drops the word. -/
theorem commandWrite_busy {s : State} (w : Word) (hb : s.status.busy = true) :
    commandWrite w s = .next (dropCommand s) := by
  simp [commandWrite, hb]

/-- The core's turn runs the command the snapshot decodes to. -/
theorem coreTurn_command {s : State} {i : Instr} (hb : s.status.busy = true)
    (hd : decode s.hid.q.word = .command i) : coreTurn s = exec i s := by
  simp [coreTurn, hb, hd]

/-- A step that is the core's turn, no input waiting or the core event the first, runs the snapshot's command. -/
theorem step_runs {s : State} {i : Instr} (hb : s.status.busy = true) (hd : decode s.hid.q.word = .command i)
    (rest : List Event) :
    (s.inputs = [] → step s = exec i s) ∧
      (s.inputs = .core :: rest → step s = exec i { s with inputs := rest }) :=
  ⟨fun hin => (step_noInput hin).trans (coreTurn_command hb hd),
    fun hin => (step_input hin).trans (coreTurn_command hb hd)⟩

/-- Settles O18: the write goes to the command controller, which runs what the word decodes to. -/
theorem commandWriteRunsTheDecodedCommand : Obligations.CommandWriteRunsTheDecodedCommand := by
  intro s w i rest hin hr hb hd
  rw [step_cmdWrite hin hr]
  exact commandWrite_command hb hd

/-- Settles O19: the snapshot's fields spell the word of the command. -/
theorem coreTurnRunsTheRunningCommand : Obligations.CoreTurnRunsTheRunningCommand := by
  intro s e d rest hb
  refine ⟨fun ho hv => step_runs hb ?_ rest, fun ho hv ht => step_runs hb ?_ rest,
    fun ho hv ht => step_runs hb ?_ rest⟩
  · rw [Snapshot.word, ho, hv]
    exact decode_streamWord e d s.hid.q.tau
  · rw [Snapshot.word, ho, hv, ht]
    decide
  · rw [Snapshot.word, ho, hv, ht]
    decide

/-- Settles O20: the step is `dropCommand`. -/
theorem commandWriteWhileBusyIsDropped : Obligations.CommandWriteWhileBusyIsDropped := by
  intro s w rest hin hr hb
  refine ⟨_, (step_cmdWrite hin hr).trans (commandWrite_busy w hb), rfl, fun hie => ?_⟩
  simp [State.irq, hie]

/-! ## Acceptance (46_commands.md R321) -/

/-- An idle core whose contract check passes starts the run. -/
theorem exec_streamInstr_accepted {e : Engine} {d : Direction} {tau : Nat} {s : State}
    (hb : s.status.busy = false)
    (hc : contractCheck d (takeSnapshot d.op e.var (BitVec.ofNat 8 tau) s) = none) :
    exec (streamInstr e d tau) s = .next (startRun (snapshotTaken d.op e.var (BitVec.ofNat 8 tau) s)) := by
  rw [exec_streamInstr, streamCommand_idle e d tau hb]
  obtain ⟨p, v, hfail, -⟩ | ⟨-, ha⟩ := accept_cases d.op e.var (BitVec.ofNat 8 tau) (contractCheck d) s
  · rw [hc] at hfail
    cases hfail
  · rw [ha]
    rfl

/-- AESROUND and ZEROIZE start on an idle core whatever the registers hold (60_exceptions.md R363). -/
theorem registerCommand_idle (op : BitVec 4) {s : State} (hb : s.status.busy = false) :
    registerCommand op s = .next (startRun (snapshotTaken op 0 0 s)) := by
  rw [registerCommand, hb]
  rfl

/-- Settles O22: `startRun` after `snapshotTaken`. -/
theorem streamCommandAcceptanceTakesTheSnapshot : Obligations.StreamCommandAcceptanceTakesTheSnapshot :=
  fun _ _ _ _ hb hc => exec_streamInstr_accepted hb hc

/-- Settles O23: `startRun` after `snapshotTaken`, for both commands. -/
theorem registerCommandAcceptanceTakesTheSnapshot : Obligations.RegisterCommandAcceptanceTakesTheSnapshot :=
  fun _ hb => ⟨registerCommand_idle opAesround hb, registerCommand_idle opZeroize hb⟩

/-! ## ZEROIZE (46_commands.md R340) -/

/-- The completion of ZEROIZE clears the secrets and reports. -/
theorem complete_zeroize {s : State} (ho : s.hid.q.op = opZeroize) :
    complete .noError .noParam 0 s =
      { reported .noError s.status.lastOp false .noParam 0 s with
        key := 0, nonce := 0, aesrIn := 0, aesrRk := 0, aesrOut := 0 } := by
  simp [complete, reported, ho, opAesround, opZeroize, opDecrypt]

/-- Settles O34: the turn of a running ZEROIZE is its completion. -/
theorem zeroizeClearsTheHostLoadedSecrets : Obligations.ZeroizeClearsTheHostLoadedSecrets := by
  intro s hb ho
  calc exec .zeroize s = .next (complete .noError .noParam 0 s) := registerCommand_busy opZeroize hb
    _ = _ := by rw [complete_zeroize ho]; rfl

/-! ## A step of a running ENCRYPT or DECRYPT (46_commands.md R322, R323) -/

section
variable {e : Engine} {d : Direction} {s : State}

/-- A read of a served run takes the byte in memory. -/
theorem StreamRun.step_read (h : StreamRun e d s) (hserved : Served s.hid.q s) {a : Nat}
    (hr : upcoming e d s = .read a) :
    streamStep e d s = .next { s with hid := afterRead e d (Memory.read s.mem a) (settle e d s.hid) } := by
  obtain ⟨hok, hdev, hvis⟩ := hserved.reads a (h.read_inRange hr)
  exact (streamStep_read hr).trans (dmaRead_served _ (h.read_lt hr) hok hdev (by simpa using hvis))

/-- A write of a served run stores its byte; a host write of that byte not visible yet gets an open value. -/
theorem StreamRun.step_write (h : StreamRun e d s) (hserved : Served s.hid.q s) {a : Nat} {v : Byte}
    (hw : upcoming e d s = .write a v) :
    streamStep e d s = .next { s with
      mem := Memory.write s.mem a v
      posted := openPosted (fun b => b = a) s.posted
      hid := afterWrite e d (settle e d s.hid) } := by
  obtain ⟨hok, hdev⟩ := hserved.writes a (h.write_inRange hw)
  exact (streamStep_write hw).trans (dmaWrite_served v _ (h.write_lt hw) hok hdev)

/-- The completion of a run reports its outcome. -/
theorem streamStep_reported (hop : s.hid.q.op = d.op) {c : ErrCode} (hf : upcoming e d s = .finish c) :
    streamStep e d s =
      .next (reported c s.status.lastOp (decide (c = .noError ∧ d = .decrypt)) .noParam 0 s) := by
  rw [streamStep_finish hf, complete_stream (d := d) (by simpa using hop), reported_onHidden]
  rfl

end

/-- Settles O44: each access by what the served platform makes of it. -/
theorem servedAccessesTakeEffect : Obligations.ServedAccessesTakeEffect := by
  intro e d s hb hrun hserved
  rw [exec_streamInstr_busy e d _ hb]
  exact ⟨fun a => hrun.step_read hserved, fun a v => hrun.step_write hserved,
    fun c => streamStep_reported hrun.op⟩

/-- A run changes the hidden state, memory, waiting host writes and the count of free bytes alone. -/
theorem RunFrame.eq_update {s s' : State} (h : RunFrame s s') :
    ∃ hid mem posted n, s' = { s with hid := hid, mem := mem, posted := posted, freeCount := n } :=
  ⟨_, _, _, _, h.2⟩

/-- A step of a run of ENCRYPT or DECRYPT stays inside the run's frame, or reports from inside it. -/
theorem RunStep.reports {d : Direction} {s t : State} (h : RunStep s t) (hop : s.hid.q.op = d.op) :
    ∃ s', RunFrame s s' ∧ (t = s' ∨ ∃ c ok p v, t = reported c s'.status.lastOp ok p v s') := by
  obtain h | ⟨s', c, p, v, h, rfl⟩ := h
  · exact ⟨t, h, .inl rfl⟩
  · have hop' : s'.hid.q.op = d.op := by rw [h.1, hop]
    exact ⟨s', h, .inr ⟨c, _, p, v, complete_stream hop' c p v⟩⟩

/-- What a step of a run makes of the waiting host writes: nothing, or it opens the values of those in the output
range or of those at the byte it writes (20_memory.md R105, R106, log 6). -/
theorem streamStep_posted {e : Engine} {d : Direction} {s t : State} (h : streamStep e d s = .next t) :
    t.posted = s.posted ∨ t.posted = openPosted s.hid.q.inOutput s.posted ∨
      ∃ a v, upcoming e d s = .write a v ∧ t.posted = openPosted (fun b => b = a) s.posted := by
  have hbus (a : Nat) : (raiseBus a (s.onHidden (settle e d))).posted =
      openPosted s.hid.q.inOutput s.posted := by
    simp [raiseBus]
  obtain ⟨a, -, hread⟩ | ⟨a, v, hw, hwrite⟩ | ⟨c, -, rfl⟩ := streamStep_next h
  · obtain ⟨-, ⟨-, rfl⟩ | ⟨-, -, ⟨-, rfl⟩ | ⟨-, rfl⟩⟩⟩ := dmaRead_next hread
    · exact .inr (.inl (hbus a))
    · exact .inl rfl
    · exact .inl rfl
  · obtain ⟨-, ⟨-, rfl⟩ | ⟨-, -, rfl⟩⟩ := dmaWrite_next hwrite
    · exact .inr (.inl (hbus a))
    · exact .inr (.inr ⟨a, v, hw, rfl⟩)
  · exact .inl rfl

/-- No step of a run takes a waiting host write away or adds one. -/
theorem streamStep_isPosted {e : Engine} {d : Direction} {s t : State} (h : streamStep e d s = .next t)
    (a : Nat) : isPosted t.posted a = isPosted s.posted a := by
  obtain hp | hp | ⟨b, v, -, hp⟩ := streamStep_posted h <;> simp [hp]

/-- A host write that waits after a step of a run waited before, or its value has become open. -/
theorem streamStep_mem_posted {e : Engine} {d : Direction} {s t : State} (h : streamStep e d s = .next t)
    {c : Posted} (hc : c ∈ t.posted) :
    c ∈ s.posted ∨ (c.value = none ∧
      (s.hid.q.inOutput c.addr = true ∨ ∃ v, upcoming e d s = .write c.addr v)) := by
  obtain hp | hp | ⟨a, v, hw, hp⟩ := streamStep_posted h <;> rw [hp] at hc
  · exact .inl hc
  · obtain ⟨c', hc', haddr, rfl | ⟨hout, hnone⟩⟩ := mem_openPosted hc
    · exact .inl hc'
    · exact .inr ⟨hnone, .inl (haddr ▸ hout)⟩
  · obtain ⟨c', hc', haddr, rfl | ⟨heq, hnone⟩⟩ := mem_openPosted hc
    · exact .inl hc'
    · obtain rfl : c'.addr = a := of_decide_eq_true heq
      exact .inr ⟨hnone, .inr ⟨v, haddr ▸ hw⟩⟩

/-- Settles O45: a step of the run changes no register, but for the report where it completes. -/
theorem runLeavesEveryOtherRegister : Obligations.RunLeavesEveryOtherRegister := by
  intro e d tau s t hb hop hexec
  rw [exec_streamInstr_busy e d tau hb] at hexec
  have hwait := streamStep_isPosted hexec
  have hopen := fun c => streamStep_mem_posted hexec (c := c)
  obtain ⟨s', hframe, ht⟩ := (streamStep_runStep hexec).reports hop
  obtain ⟨hid, mem, posted, n, rfl⟩ := hframe.eq_update
  obtain rfl | ⟨c, ok, p, v, rfl⟩ := ht <;>
    refine ⟨rfl, rfl, rfl, rfl, rfl, rfl, rfl, rfl, rfl, rfl, rfl, rfl, rfl, rfl, rfl, rfl, rfl, rfl, hwait, hopen, ?_⟩
  · exact .inl ⟨rfl, rfl, rfl⟩
  · exact .inr ⟨rfl, rfl, rfl⟩

/-! ## What every completion does (46_commands.md R323, R345, 60_exceptions.md R371) -/

/-- `t` is what a completion leaves, the interrupt enables being those of `s`. -/
def Completion (s t : State) : Prop := ∃ c p v s', s'.ctrl = s.ctrl ∧ t = complete c p v s'

/-- A completion zeroes the hidden state and raises DONE, and IRQ with it when DONE_IE is 1. -/
theorem Completion.done {s t : State} (h : Completion s t) :
    t.hid = .zero ∧ t.intStatus.done = true ∧ (s.ctrl.doneIE = true → t.irq = true) := by
  obtain ⟨c, p, v, s', hctrl, rfl⟩ := h
  exact ⟨rfl, rfl, fun hie => by simp [State.irq, hctrl, hie]⟩

/-- A step of a run that leaves BUSY low is a completion. -/
theorem RunStep.completion {s t : State} (h : RunStep s t) (hb : s.status.busy = true)
    (ht : t.status.busy = false) : Completion s t := by
  obtain ⟨-, hf⟩ | ⟨s', c, p, v, ⟨-, hf⟩, rfl⟩ := h
  · rw [hf] at ht
    cases hb.symm.trans ht
  · exact ⟨c, p, v, s', by rw [hf], rfl⟩

/-- An acceptance that leaves BUSY low is a completion. -/
theorem Accepted.completion {s t : State} (h : Accepted s t) (ht : t.status.busy = false) : Completion s t := by
  cases h with
  | refused e d tau p v hc => exact ⟨.contract, p, v, snapshotTaken d.op e.var tau s, rfl, rfl⟩
  | stream e d tau hc => cases ht
  | register op ho => cases ht

/-- A core's turn that takes a command out of BUSY is a completion. -/
theorem coreTurn_completion {s t : State} (hb : s.status.busy = true) (h : coreTurn s = .next t)
    (ht : t.status.busy = false) : Completion s t := by
  obtain ⟨hidle, -⟩ | ⟨i, -, -, he⟩ := coreTurn_next h
  · cases hb.symm.trans hidle
  · exact (exec_busy_next hb he).completion hb ht

/-- A CMD write to an idle core that does not start a run is a completion. -/
theorem commandWrite_completion {w : Word} {s t : State} (hb : s.status.busy = false)
    (h : commandWrite w s = .next t) (ht : t.status.busy = false) : Completion s t := by
  obtain ⟨hbusy, -⟩ | ⟨-, ⟨i, -, he⟩ | rfl⟩ := commandWrite_next h
  · cases hb.symm.trans hbusy
  · exact (exec_idle_next hb he).completion ht
  · exact ⟨.illegal, .noParam, w.setWidth 64, clearReport (opField w) s, rfl, rfl⟩

/-- Whatever takes a command out of BUSY zeroes the hidden state. -/
theorem Effect.zeroed {s t : State} {ev : Event} (h : Effect s ev t) (hb : s.status.busy = true)
    (ht : t.status.busy = false) : t.hid = .zero := by
  cases h with
  | host h => rw [h.core] at ht; cases hb.symm.trans ht
  | register => rw [writeReg_status] at ht; cases hb.symm.trans ht
  | drop => cases hb.symm.trans ht
  | illegal => rfl
  | accept _ hidle => cases hb.symm.trans hidle
  | run i _ _ h => exact ((exec_busy_next hb h).completion hb ht).done.1
  | assert => rfl
  | release => cases hb.symm.trans ht

/-- With no input waiting, or the core event the first, a step is the core's turn. -/
theorem step_coreTurn {s : State} (hin : s.inputs = [] ∨ s.inputs.head? = some .core) :
    step s = coreTurn (s.withInputs s.inputs.tail) := by
  have hcore : s.inputs.headD .core = .core := by
    rw [List.headD_eq_head?_getD]
    obtain hin | hin := hin <;> rw [hin] <;> rfl
  rw [step_perform, hcore]
  rfl

/-- Settles O54: a core's turn or a CMD write that leaves BUSY low is a completion. -/
theorem everyCompletionZeroesTheHiddenState : Obligations.EveryCompletionZeroesTheHiddenState := by
  intro s t hstep ht
  refine ⟨fun hb => (step_effect hstep).zeroed hb ht, ?_⟩
  rintro (⟨hb, hin⟩ | ⟨hb, hr, w, rest, hin⟩)
  · rw [step_coreTurn hin] at hstep
    exact (coreTurn_completion (s := s.withInputs s.inputs.tail) hb hstep ht).done
  · rw [step_cmdWrite hin hr] at hstep
    exact (commandWrite_completion (s := { s with inputs := rest }) hb hstep ht).done

end Sys2Proof.Machine
end

section
/-! SUPPORT. The statement on register-port errors (60_exceptions.md R366). -/

namespace Sys2Proof.Machine

/-- The three ways in which the port refuses an access (20_memory.md R90). -/
theorem portAccepts_eq_false_iff {off bits : Nat} :
    portAccepts off bits = false ↔ bits ≠ 32 ∨ off % 4 ≠ 0 ∨ 4096 ≤ off := by
  rw [portAccepts, decide_eq_false_iff_not, Config.regWindow]
  omega

/-- A read that the port does not accept is a fault of the host program. -/
theorem portRead_fault {off bits : Nat} (s : State) (hp : portAccepts off bits = false) :
    portRead off bits s = .fault (.registerPort off bits) := by
  simp [portRead, hp]

/-- A write that the port does not accept is a fault of the host program, reset asserted or released. -/
theorem portWrite_fault {off bits : Nat} (v : Word) (s : State) (hp : portAccepts off bits = false) :
    portWrite off bits v s = .fault (.registerPort off bits) := by
  simp [portWrite, hp]

/-- Settles O8: the port accepts no such access, whatever the state. -/
theorem badPortAccessIsAHostFault : Obligations.BadPortAccessIsAHostFault := by
  intro s off bits v rest hbad
  have hp : portAccepts off bits = false := portAccepts_eq_false_iff.mpr hbad
  refine ⟨fun hin => ?_, fun hin => ?_⟩
  · rw [step_input hin]
    exact portRead_fault _ hp
  · rw [step_input hin]
    exact portWrite_fault v _ hp

end Sys2Proof.Machine
end

section
/-! SUPPORT. The statements on reset and hazards (70_reset_and_hazards.md): what a reset in the middle of a command
leaves outside the core, and how many steps a run can still take. -/

namespace Sys2Proof.Machine

/-! ## A reset that cuts a command short (70_reset_and_hazards.md R401, R403) -/

/-- A byte of the output range reads as its free byte once the range is free. -/
theorem read_freeOutput_output {s : State} {j : Nat} (hwf : Memory.wf s.mem = true) (hj : j < s.hid.q.dstLen.toNat) :
    Memory.read (freeOutput s).mem (s.hid.q.dst.toNat + j) = Config.freeByte (s.freeCount + j) :=
  Memory.read_freeRange_of_mem _ _ _ hwf hj

/-- Freeing the output range changes no other byte. -/
theorem read_freeOutput_of_not_inOutput {s : State} {a : Nat} (ha : ¬ s.hid.q.inOutput a = true) :
    Memory.read (freeOutput s).mem a = Memory.read s.mem a := by
  rw [Snapshot.inOutput, inRange_iff] at ha
  exact Memory.read_freeRange_of_not_mem _ _ _ _ (by omega)

/-- Settles O7: what is left outside the core is what `cutShort` leaves, by the two cases of `cutShort_cases`. -/
theorem resetDuringACommandFreesOnlyItsOutput : Obligations.ResetDuringACommandFreesOnlyItsOutput := by
  intro s rest hin hwf
  have hmem : (assertReset (s.withInputs rest)).mem = (cutShort (s.withInputs rest)).mem := rfl
  have hposted : (assertReset (s.withInputs rest)).posted = (cutShort (s.withInputs rest)).posted := rfl
  refine ⟨assertReset (s.withInputs rest), step_input hin, assertReset_atReset _, rfl, ?_⟩
  rw [hmem, hposted]
  obtain ⟨hb, hq, hcut⟩ | ⟨hnone, hcut⟩ := cutShort_cases (s.withInputs rest)
  · rw [withInputs_status] at hb
    rw [withInputs_hid] at hq
    rw [hcut]
    refine ⟨fun a ha => ?_, fun _ _ => ⟨fun j hj => ?_, rfl⟩, fun hn => ?_⟩
    · exact read_freeOutput_of_not_inOutput (s := s.withInputs rest) fun hout => ha ⟨hb, hq, hout⟩
    · exact read_freeOutput_output (s := s.withInputs rest) hwf hj
    · simp [hb, hq] at hn
  · rw [withInputs_status, withInputs_hid] at hnone
    rw [hcut]
    refine ⟨fun _ _ => rfl, fun hb hq => ?_, fun _ => rfl⟩
    simp [hb, hq] at hnone

/-! ## How many accesses are left (20_memory.md R102, 70_reset_and_hazards.md R426, R427) -/

/-- At most how many accesses the run still makes from a place of its access sequence: the AD bytes left, the message
bytes left to read and to write, the tag bytes left, and the wipe, which every run is taken to need. -/
def Phase.accessesLeft (e : Engine) (d : Direction) (q : Snapshot) : Phase → Nat
  | .idle => 0
  | .start => q.adLen.toNat + 2 * q.msgLen d + q.tau.toNat + q.msgLen d
  | .adRead i => (q.adLen.toNat - i) + 2 * q.msgLen d + q.tau.toNat + q.msgLen d
  | .adChunk n => (q.adLen.toNat - n) + 2 * q.msgLen d + q.tau.toNat + q.msgLen d
  | .msgRead i => (q.msgLen d - i) + (q.msgLen d - i / e.rate * e.rate) + q.tau.toNat + q.msgLen d
  | .msgBlock n => (q.msgLen d - n) + (q.msgLen d - blockStart e n) + q.tau.toNat + q.msgLen d
  | .msgWrite i => (q.msgLen d - (i / e.rate + 1) * e.rate) + (q.msgLen d - i) + q.tau.toNat + q.msgLen d
  | .msgNext n => 2 * (q.msgLen d - n) + q.tau.toNat + q.msgLen d
  | .tag j => (q.tau.toNat - j) + q.msgLen d
  | .verify => q.msgLen d
  | .wipe i => q.msgLen d - i
  | .finish _ => 0

section
variable {e : Engine} {d : Direction} {q : Snapshot} {h : Hidden}

/-- No place has more accesses before it than the lengths of the command allow. -/
theorem Phase.accessesLeft_le (p : Phase) :
    p.accessesLeft e d q ≤ q.adLen.toNat + 3 * q.msgLen d + q.tau.toNat := by
  cases p <;> simp only [Phase.accessesLeft] <;> omega

/-- The computation due makes no access, and leaves no more of them to come. -/
theorem accessesLeft_settle (ho : phaseOk e d h) :
    (settle e d h).phase.accessesLeft e d h.q ≤ h.phase.accessesLeft e d h.q := by
  rw [settle_phase]
  unfold phaseOk at ho
  cases hp : h.phase <;> simp only [hp] at ho ⊢
  case start | adChunk | verify =>
    split_ifs <;> simp only [Phase.accessesLeft] <;> omega
  case msgBlock n =>
    obtain ⟨hpos, -, -⟩ := ho
    cases e <;> simp only [Phase.accessesLeft, blockStart, Engine.rate] <;> omega
  case msgNext n =>
    obtain ⟨-, -, hend⟩ := ho
    split_ifs
    · cases e <;> simp only [Phase.accessesLeft, Engine.rate] at hend ⊢ <;> omega
    · simp only [Phase.accessesLeft]
      omega
  all_goals rfl

/-- Every access leaves one fewer to come.  In the message this rests on `endsBlock`: inside a block the next byte has
the same block, and a block ends at a multiple of the rate or with the message. -/
theorem Phase.accessesLeft_next {p : Phase} (hi : p.inside d q) :
    (p.next e d q).accessesLeft e d q < p.accessesLeft e d q := by
  cases p <;> simp only [Phase.inside, Phase.next] at hi ⊢
  case adRead | wipe => split_ifs <;> simp only [Phase.accessesLeft] <;> omega
  case msgRead i | msgWrite i =>
    split_ifs with hend
    all_goals
      simp only [endsBlock, decide_eq_true_eq, not_or] at hend
      cases e <;> simp only [Phase.accessesLeft, blockStart, Engine.rate] at hend ⊢ <;> omega
  case tag j =>
    split_ifs
    · cases d <;> simp only [tagEnd, Phase.accessesLeft] <;> omega
    · simp only [Phase.accessesLeft]
      omega

/-- A place of the access sequence at which no computation is due is an access inside the lengths, or the completion. -/
theorem inside_of_phaseOk (ho : phaseOk e d h) (hs : h.phase.settled = true) (hnf : ∀ c, h.phase ≠ .finish c) :
    h.phase.inside d h.q := by
  unfold phaseOk at ho
  cases hp : h.phase <;> simp only [hp] at ho hs
  case start | adChunk | msgBlock | msgNext | verify => cases hs
  case finish c => exact absurd hp (hnf c)
  all_goals exact ho

end

/-! ## An access that is answered (20_memory.md R96, log 16) -/

/-- Outside device memory every read answers: with BUS, or with some byte, free bytes counted on. -/
theorem dmaRead_answers {a : Nat} {s : State} (k : Byte → State → State) (ha : a < Config.addrSpace)
    (hdev : s.platform.isDevice a = false) :
    dmaRead a s k = .next (raiseBus a s) ∨ ∃ b n, dmaRead a s k = .next (k b { s with freeCount := n }) := by
  cases hok : s.platform.memOK a .read with
  | false => exact .inl (dmaRead_refused ha k hok)
  | true =>
    cases hun : s.unseen a with
    | false => exact .inr ⟨_, s.freeCount, dmaRead_served k ha hok hdev hun⟩
    | true => exact .inr ⟨_, _, dmaRead_unseen ha k hok hdev hun⟩

/-- Outside device memory every write answers: with BUS, or with its byte stored. -/
theorem dmaWrite_answers {a : Nat} {s : State} (v : Byte) (k : State → State) (ha : a < Config.addrSpace)
    (hdev : s.platform.isDevice a = false) :
    dmaWrite a v s k = .next (raiseBus a s) ∨ dmaWrite a v s k =
      .next (k { s with mem := Memory.write s.mem a v, posted := openPosted (fun b => b = a) s.posted }) := by
  cases hok : s.platform.memOK a .write with
  | false => exact .inl (dmaWrite_refused ha k hok)
  | true => exact .inr (dmaWrite_served v k ha hok hdev)

/-! ## A run comes to its end -/

/-- An ENCRYPT or DECRYPT under way on a platform without device memory: what of a `StreamRun` decides whether the next
access is answered and which one follows, whatever memory holds. -/
structure Underway (e : Engine) (d : Direction) (s : State) : Prop where
  busy : s.status.busy = true
  contract : contractCheck d s.hid.q = none
  place : phaseOk e d s.hid
  noDevice : ∀ a, s.platform.isDevice a = false

/-- At most how many accesses the run still makes from `s`. -/
def State.accessesLeft (e : Engine) (d : Direction) (s : State) : Nat := s.hid.phase.accessesLeft e d s.hid.q

section
variable {e : Engine} {d : Direction} {s t : State}

/-- Before an access the settled sequencer stands at a place of the access sequence. -/
theorem Underway.settled_place (h : Underway e d s) (hnf : ∀ c, upcoming e d s ≠ .finish c) :
    phaseOk e d (settle e d s.hid) := by
  obtain ⟨htau, -⟩ := contractCheck_none h.contract
  obtain ho | ⟨c, hc, -⟩ := settle_phaseOk (by omega) h.place
  · exact ho
  · exact absurd (upcoming_finish hc) (hnf c)

/-- The sequencer of a run under way is not idle, so its computation leads to an access or the completion. -/
theorem Underway.settled (h : Underway e d s) : (settle e d s.hid).phase.settled = true := by
  refine settle_settled fun hp => ?_
  have ho := h.place
  unfold phaseOk at ho
  simp only [hp] at ho

theorem Underway.fit (h : Underway e d s) : RangesFit d (settle e d s.hid).q := by
  rw [settle_q]
  exact rangesFit_of_contract h.contract

/-- A completed access keeps the run under way, with one access fewer to come. -/
theorem Underway.of_access (h : Underway e d s) (hnf : ∀ c, upcoming e d s ≠ .finish c)
    (hb : t.status = s.status) (hpl : t.platform = s.platform) (hq : t.hid.q = s.hid.q) (ho : phaseOk e d t.hid)
    (hnext : t.hid.phase = (settle e d s.hid).phase.next e d (settle e d s.hid).q) :
    Underway e d t ∧ t.accessesLeft e d < s.accessesLeft e d := by
  refine ⟨⟨hb ▸ h.busy, hq ▸ h.contract, ho, hpl ▸ h.noDevice⟩, ?_⟩
  have hin : (settle e d s.hid).phase.inside d (settle e d s.hid).q :=
    inside_of_phaseOk (h.settled_place hnf) h.settled fun c hc => hnf c (upcoming_finish hc)
  rw [State.accessesLeft, State.accessesLeft, hnext, hq]
  rw [settle_q] at hin ⊢
  exact (Phase.accessesLeft_next hin).trans_le (accessesLeft_settle h.place)

/-- A step of a run under way is answered: it completes the command, or makes one of the accesses left. -/
theorem Underway.step (h : Underway e d s) : ∃ t, streamStep e d s = .next t ∧
    (t.status.busy = false ∨ (Underway e d t ∧ t.accessesLeft e d < s.accessesLeft e d)) := by
  cases hacc : upcoming e d s with
  | read a =>
    have hnf : ∀ c, upcoming e d s ≠ .finish c := by simp [hacc]
    have ho := h.settled_place hnf
    have hlt := h.fit.lt_addrSpace ((nextAccess_read_inRange h.fit ho hacc).imp_right .inl)
    rw [streamStep_read hacc]
    obtain hbus | ⟨b, n, hread⟩ := dmaRead_answers (s := s.onHidden (settle e d))
      (fun b s2 => s2.onHidden (afterRead e d b)) hlt (h.noDevice a)
    · exact ⟨_, hbus, .inl rfl⟩
    · exact ⟨_, hread, .inr (h.of_access hnf rfl rfl (by simp) (phaseOk_afterRead b ho hacc).1
        (afterRead_phase_next b hacc))⟩
  | write a v =>
    have hnf : ∀ c, upcoming e d s ≠ .finish c := by simp [hacc]
    have ho := h.settled_place hnf
    have hlt := h.fit.lt_addrSpace (.inr (.inr (nextAccess_write_inRange h.fit ho hacc)))
    rw [streamStep_write hacc]
    obtain hbus | hwrite := dmaWrite_answers (s := s.onHidden (settle e d)) v
      (fun s2 => s2.onHidden (afterWrite e d)) hlt (h.noDevice a)
    · exact ⟨_, hbus, .inl rfl⟩
    · exact ⟨_, hwrite, .inr (h.of_access hnf rfl rfl (by simp) (phaseOk_afterWrite ho hacc).1
        (afterWrite_phase_next hacc))⟩
  | finish c => exact ⟨_, streamStep_finish hacc, .inl rfl⟩
  | nothing => exact absurd hacc (nextAccess_ne_nothing h.settled)

/-- A run under way completes within the accesses left and one more step. -/
theorem Underway.completes (h : Underway e d s) :
    ∃ n t, n ≤ s.accessesLeft e d + 1 ∧ Takes e d n s t ∧ t.status.busy = false := by
  induction hk : s.accessesLeft e d using Nat.strong_induction_on generalizing s with
  | _ k ih =>
    obtain ⟨t, hst, hidle | ⟨ht, hlt⟩⟩ := h.step
    · exact ⟨1, t, by omega, .one h.busy hst, hidle⟩
    · obtain ⟨n, u, hn, htu, hu⟩ := ih _ (hk ▸ hlt) ht rfl
      exact ⟨1 + n, u, by omega, (Takes.one h.busy hst).trans htu, hu⟩

end

/-- Settles O58: the run completes within the accesses its place leaves, which the lengths bound. -/
theorem everyRunCompletesWithinItsAccesses : Obligations.EveryRunCompletesWithinItsAccesses := by
  intro e d s hb hrun hdev
  obtain ⟨n, t, hn, hst, ht⟩ := Underway.completes ⟨hb, hrun.contract, hrun.phase, hdev⟩
  refine ⟨n, t, hn.trans ?_, hst.execRun _, ht⟩
  exact Nat.succ_le_succ (Phase.accessesLeft_le s.hid.phase)

end Sys2Proof.Machine
end
